-- ==== Sys2Proof/Word.lean ====
section
/-! DEFINITION. The two word sizes of the 6809: a byte and a 16-bit address or pointer (spec/00_scope.md R7, R10). -/

namespace Sys2Proof

/-- The data width: accumulators, memory cells, DP and CC are 8 bits (R7). -/
abbrev Byte := BitVec 8

/-- The address width: X, Y, U, S, PC, D and every address are 16 bits (R7). -/
abbrev Word := BitVec 16

end Sys2Proof
end

