-- ==== Sys2Proof/Config.lean ====
section
/-! DEFINITION. What an implementation fixes, and the source of the values the spec leaves open
(spec/00_scope.md R8; spec/92_eei_decisions.md). The opaque constants have no value inside the model: a claim
about them holds whatever they are. -/

namespace Sys2Proof.Config

/-- `any1()` (00_scope.md R15, R17): the free bit of draw number `n`. Used for H where the spec says `any1()`
(R172, R213), for V after DAA (R250) and for the flags a reset leaves unspecified (R421). Safe; log 8, log 9. -/
opaque anyBit : Nat → Bool

/-- `any8()` (00_scope.md R15): the free byte of draw number `n`: a read of a `none` cell or of a device cell
that `Env` does not answer (20_memory.md R60), and A and B after a reset (R421). Safe; log 7, log 8. -/
opaque anyByte : Nat → Byte

/-- The free 16-bit value of draw number `n`: X, Y, U and S after a reset (70_reset_and_hazards.md R421).
Safe; log 4, log 8. -/
opaque anyWord : Nat → Word

/-- Which instructions that load S, besides LDS, arm NMI: the parameter `nmi_arm_rule`
(60_exceptions.md R392; 92_eei_decisions.md D18). -/
structure NmiArmRule where
  /-- LEAS arms. -/
  leas : Bool
  /-- TFR with S as destination arms. -/
  tfr : Bool
  /-- EXG with S as an operand arms. -/
  exg : Bool
  /-- PULU with post byte bit 6 arms. -/
  pulu : Bool
  deriving DecidableEq, Repr, Inhabited

/-- The machine's `nmi_arm_rule`, `OPEN` in the spec (D18): no value is chosen. Safe; log 10. -/
opaque nmiArmRule : NmiArmRule

/-- The parameter `clr_reads`: whether CLR on memory reads the cell before it writes zero
(20_memory.md R57; D25), `OPEN` in the spec: no value is chosen. Safe; log 11. -/
opaque clrReads : Bool

/-- What a RAM or ROM cell that no write and no load has touched reads as. DESIGN CHOICE, unsafe; log 1: the spec
leaves RAM at power-up unspecified (70_reset_and_hazards.md R421). -/
def unlisted : Byte := 0x00#8

end Sys2Proof.Config
end

