-- ==== Sys2Proof/Syntax.lean ====
section
/-! DEFINITION. The instructions of the 6809 (spec/30_encoding.md R82, R88, R102; spec/opcode_table.json): one constructor of
`Instr` per mnemonic of the table. The rows of one mnemonic differ only in the addressing mode, and the mode is the
constructor's operand (log 13). -/

namespace Sys2Proof

/-- An 8-bit register as an instruction names it (30_encoding.md R94). -/
inductive Reg8 where
  | a
  | b
  | cc
  | dp
  deriving DecidableEq, Repr

/-- A 16-bit register as an instruction names it (R94). `d` is the view A:B (10_state.md R22). -/
inductive Reg16 where
  | d
  | x
  | y
  | u
  | s
  | pc
  deriving DecidableEq, Repr

/-- An operand of EXG or TFR: a register of either width (R94). -/
inductive Reg where
  | wide (r : Reg16)
  | narrow (r : Reg8)
  deriving DecidableEq, Repr

/-- The index base registers, field `RR` of the post byte (40_addressing_modes.md R114). -/
inductive Ptr where
  | x
  | y
  | u
  | s
  deriving DecidableEq, Repr

/-- The two stack pointers (00_scope.md R14): the hardware stack S and the user stack U. -/
inductive Stk where
  | s
  | u
  deriving DecidableEq, Repr

/-- The indexed and indirect forms, one constructor per row of 40_addressing_modes.md R126. `ind` is `pb[4]`, the
indirect version; the forms that have none (5-bit offset, `,R+`, `,-R`) have no such argument. -/
inductive Idx where
  /-- `n,R`, 5-bit offset (R115). -/
  | off5 (r : Ptr) (n : BitVec 5)
  /-- `,R`, no offset (R115). -/
  | noOff (r : Ptr) (ind : Bool)
  /-- `nn,R`, 8-bit offset (R115). -/
  | off8 (r : Ptr) (ind : Bool) (n : Byte)
  /-- `mmnn,R`, 16-bit offset (R115). -/
  | off16 (r : Ptr) (ind : Bool) (n : Word)
  /-- `A,R` (R116). -/
  | accA (r : Ptr) (ind : Bool)
  /-- `B,R` (R116). -/
  | accB (r : Ptr) (ind : Bool)
  /-- `D,R` (R116). -/
  | accD (r : Ptr) (ind : Bool)
  /-- `,R+` (R119). -/
  | inc1 (r : Ptr)
  /-- `,R++` (R119). -/
  | inc2 (r : Ptr) (ind : Bool)
  /-- `,-R` (R120). -/
  | dec1 (r : Ptr)
  /-- `,--R` (R120). -/
  | dec2 (r : Ptr) (ind : Bool)
  /-- `label,PCR`, 8-bit offset (R121). -/
  | pcr8 (ind : Bool) (n : Byte)
  /-- `label,PCR`, 16-bit offset (R121). -/
  | pcr16 (ind : Bool) (n : Word)
  /-- `[mmnn]`, extended indirect (R123). -/
  | extInd (addr : Word)
  deriving DecidableEq, Repr

/-- A memory operand: the addressing modes that yield an effective address (R110). -/
inductive MemOp where
  /-- Direct, `DP:adr8` (R111). -/
  | dir (adr8 : Byte)
  /-- Extended (R112). -/
  | ext (adr16 : Word)
  /-- Indexed and indirect (R114). -/
  | idx (form : Idx)
  deriving DecidableEq, Repr

/-- An 8-bit source operand: immediate or memory (R110, R113). -/
inductive Src8 where
  | imm (data : Byte)
  | mem (m : MemOp)
  deriving DecidableEq, Repr

/-- A 16-bit source operand: immediate or memory (R110, R113). -/
inductive Src16 where
  | imm (data : Word)
  | mem (m : MemOp)
  deriving DecidableEq, Repr

/-- The instructions, in the order of the spec's family files 41 to 49. -/
inductive Instr where
  -- 41_load_store.md: load and store
  /-- LDA (R142). -/
  | lda (src : Src8)
  /-- LDB (R143). -/
  | ldb (src : Src8)
  /-- LDD (R144). -/
  | ldd (src : Src16)
  /-- LDX (R145). -/
  | ldx (src : Src16)
  /-- LDY (R146). -/
  | ldy (src : Src16)
  /-- LDU (R147). -/
  | ldu (src : Src16)
  /-- LDS (R148). -/
  | lds (src : Src16)
  /-- STA (R149). -/
  | sta (dst : MemOp)
  /-- STB (R150). -/
  | stb (dst : MemOp)
  /-- STD (R151). -/
  | std (dst : MemOp)
  /-- STX (R152). -/
  | stx (dst : MemOp)
  /-- STY (R153). -/
  | sty (dst : MemOp)
  /-- STU (R154). -/
  | stu (dst : MemOp)
  /-- STS (R155). -/
  | sts (dst : MemOp)
  -- 42_accumulator_memory_operate.md: register operate with operand
  /-- ADCA (R173). -/
  | adca (src : Src8)
  /-- ADCB (R174). -/
  | adcb (src : Src8)
  /-- ADDA (R175). -/
  | adda (src : Src8)
  /-- ADDB (R176). -/
  | addb (src : Src8)
  /-- ADDD (R177). -/
  | addd (src : Src16)
  /-- SUBA (R178). -/
  | suba (src : Src8)
  /-- SUBB (R179). -/
  | subb (src : Src8)
  /-- SBCA (R180). -/
  | sbca (src : Src8)
  /-- SBCB (R181). -/
  | sbcb (src : Src8)
  /-- SUBD (R182). -/
  | subd (src : Src16)
  /-- CMPA (R184). -/
  | cmpa (src : Src8)
  /-- CMPB (R185). -/
  | cmpb (src : Src8)
  /-- CMPD (R186). -/
  | cmpd (src : Src16)
  /-- CMPS (R187). -/
  | cmps (src : Src16)
  /-- CMPU (R188). -/
  | cmpu (src : Src16)
  /-- CMPX (R189). -/
  | cmpx (src : Src16)
  /-- CMPY (R190). -/
  | cmpy (src : Src16)
  /-- ANDA (R191). -/
  | anda (src : Src8)
  /-- ANDB (R192). -/
  | andb (src : Src8)
  /-- BITA (R193). -/
  | bita (src : Src8)
  /-- BITB (R194). -/
  | bitb (src : Src8)
  /-- EORA (R195). -/
  | eora (src : Src8)
  /-- EORB (R196). -/
  | eorb (src : Src8)
  /-- ORA (R198). -/
  | ora (src : Src8)
  /-- ORB (R199). -/
  | orb (src : Src8)
  -- 43_memory_and_register_operate.md: one-operand operate and DAA
  /-- ASL (R214). -/
  | asl (dst : MemOp)
  /-- ASLA (R215). -/
  | asla
  /-- ASLB (R216). -/
  | aslb
  /-- LSL (R217): a second name for ASL's words; the decoder never answers it. -/
  | lsl (dst : MemOp)
  /-- LSLA (R218): a second name for ASLA's words; the decoder never answers it. -/
  | lsla
  /-- LSLB (R219): a second name for ASLB's words; the decoder never answers it. -/
  | lslb
  /-- ASR (R220). -/
  | asr (dst : MemOp)
  /-- ASRA (R221). -/
  | asra
  /-- ASRB (R222). -/
  | asrb
  /-- LSR (R223). -/
  | lsr (dst : MemOp)
  /-- LSRA (R224). -/
  | lsra
  /-- LSRB (R225). -/
  | lsrb
  /-- ROL (R226). -/
  | rol (dst : MemOp)
  /-- ROLA (R227). -/
  | rola
  /-- ROLB (R228). -/
  | rolb
  /-- ROR (R229). -/
  | ror (dst : MemOp)
  /-- RORA (R230). -/
  | rora
  /-- RORB (R231). -/
  | rorb
  /-- NEG (R232). -/
  | neg (dst : MemOp)
  /-- NEGA (R233). -/
  | nega
  /-- NEGB (R234). -/
  | negb
  /-- COM (R235). -/
  | com (dst : MemOp)
  /-- COMA (R236). -/
  | coma
  /-- COMB (R237). -/
  | comb
  /-- CLR (R238). -/
  | clr (dst : MemOp)
  /-- CLRA (R239). -/
  | clra
  /-- CLRB (R240). -/
  | clrb
  /-- DEC (R241). -/
  | dec (dst : MemOp)
  /-- DECA (R242). -/
  | deca
  /-- DECB (R243). -/
  | decb
  /-- INC (R244). -/
  | inc (dst : MemOp)
  /-- INCA (R245). -/
  | inca
  /-- INCB (R246). -/
  | incb
  /-- TST (R247). -/
  | tst (dst : MemOp)
  /-- TSTA (R248). -/
  | tsta
  /-- TSTB (R249). -/
  | tstb
  /-- DAA (R250). -/
  | daa
  -- 44_jump_call_return.md: jump, call, return
  /-- BRA (R262). -/
  | bra (disp : Byte)
  /-- LBRA (R263). -/
  | lbra (disp : Word)
  /-- JMP (R264). -/
  | jmp (dst : MemOp)
  /-- BSR (R266). -/
  | bsr (disp : Byte)
  /-- LBSR (R267). -/
  | lbsr (disp : Word)
  /-- JSR (R268). -/
  | jsr (dst : MemOp)
  /-- RTS (R270). -/
  | rts
  -- 45_branch_on_condition.md: short branches on condition
  /-- BCC (R283). -/
  | bcc (disp : Byte)
  /-- BCS (R284). -/
  | bcs (disp : Byte)
  /-- BEQ (R285). -/
  | beq (disp : Byte)
  /-- BGE (R286). -/
  | bge (disp : Byte)
  /-- BGT (R287). -/
  | bgt (disp : Byte)
  /-- BHI (R288). -/
  | bhi (disp : Byte)
  /-- BHS (R289): a second name for BCC's words; the decoder never answers it. -/
  | bhs (disp : Byte)
  /-- BLE (R290). -/
  | ble (disp : Byte)
  /-- BLO (R291): a second name for BCS's words; the decoder never answers it. -/
  | blo (disp : Byte)
  /-- BLS (R292). -/
  | bls (disp : Byte)
  /-- BLT (R293). -/
  | blt (disp : Byte)
  /-- BMI (R294). -/
  | bmi (disp : Byte)
  /-- BNE (R295). -/
  | bne (disp : Byte)
  /-- BPL (R296). -/
  | bpl (disp : Byte)
  /-- BVC (R297). -/
  | bvc (disp : Byte)
  /-- BVS (R298). -/
  | bvs (disp : Byte)
  -- 45_branch_on_condition.md: long branches on condition
  /-- LBCC (R299). -/
  | lbcc (disp : Word)
  /-- LBCS (R300). -/
  | lbcs (disp : Word)
  /-- LBEQ (R301). -/
  | lbeq (disp : Word)
  /-- LBGE (R302). -/
  | lbge (disp : Word)
  /-- LBGT (R303). -/
  | lbgt (disp : Word)
  /-- LBHI (R304). -/
  | lbhi (disp : Word)
  /-- LBHS (R305): a second name for LBCC's words; the decoder never answers it. -/
  | lbhs (disp : Word)
  /-- LBLE (R306). -/
  | lble (disp : Word)
  /-- LBLO (R307): a second name for LBCS's words; the decoder never answers it. -/
  | lblo (disp : Word)
  /-- LBLS (R308). -/
  | lbls (disp : Word)
  /-- LBLT (R309). -/
  | lblt (disp : Word)
  /-- LBMI (R310). -/
  | lbmi (disp : Word)
  /-- LBNE (R311). -/
  | lbne (disp : Word)
  /-- LBPL (R312). -/
  | lbpl (disp : Word)
  /-- LBVC (R313). -/
  | lbvc (disp : Word)
  /-- LBVS (R314). -/
  | lbvs (disp : Word)
  -- 46_register_move_and_operate.md: register moves, register operate, LEA
  /-- EXG (R323). -/
  | exg (r1 : Reg) (r2 : Reg)
  /-- TFR (R324). -/
  | tfr (r1 : Reg) (r2 : Reg)
  /-- ABX (R325). -/
  | abx
  /-- MUL (R326). -/
  | mul
  /-- SEX (R327). -/
  | sex
  /-- LEAX (R329). -/
  | leax (form : Idx)
  /-- LEAY (R330). -/
  | leay (form : Idx)
  /-- LEAS (R331). -/
  | leas (form : Idx)
  /-- LEAU (R332). -/
  | leau (form : Idx)
  -- 47_stack.md: push and pull
  /-- PSHS (R341). -/
  | pshs (list : Byte)
  /-- PSHU (R342). -/
  | pshu (list : Byte)
  /-- PULS (R343). -/
  | puls (list : Byte)
  /-- PULU (R344). -/
  | pulu (list : Byte)
  -- 48_interrupt_and_status.md: interrupt and status
  /-- SWI (R352). -/
  | swi
  /-- SWI2 (R353). -/
  | swi2
  /-- SWI3 (R354). -/
  | swi3
  /-- RTI (R355). -/
  | rti
  /-- CWAI (R356). -/
  | cwai (data : Byte)
  /-- SYNC (R357). -/
  | sync
  /-- ANDCC (R358). -/
  | andcc (data : Byte)
  /-- ORCC (R359). -/
  | orcc (data : Byte)
  -- 49_no_operations.md: no operation
  /-- NOP (R371). -/
  | nop
  /-- BRN (R372). -/
  | brn (disp : Byte)
  /-- LBRN (R373). -/
  | lbrn (disp : Word)
  deriving DecidableEq, Repr

end Sys2Proof
end

