-- ==== Sys2Proof/WellFormed.lean ====
section
/-! DEFINITION. Which instructions are well formed. The operand types already rule out the forms R126 marks "Not
allowed"; what is left to check is the register pair of EXG and TFR
(spec/46_register_move_and_operate.md R322). -/

namespace Sys2Proof

/-- "R1, R2 Two registers, both 8-bit or both 16-bit" (R322). -/
def sameWidth : Reg → Reg → Bool
  | .wide _, .wide _ => true
  | .narrow _, .narrow _ => true
  | .wide _, .narrow _ => false
  | .narrow _, .wide _ => false

/-- An instruction the spec gives a meaning to: EXG and TFR name two registers of one width (R322). -/
def wellFormed : Instr → Bool
  | .exg r1 r2 => sameWidth r1 r2
  | .tfr r1 r2 => sameWidth r1 r2
  | _ => true

end Sys2Proof
end

