-- ==== Sys2Proof/Decode.lean ====
section
/-! DEFINITION. From bytes to instructions and back (spec/30_encoding.md R80 to R104; the post byte of the indexed forms is
40_addressing_modes.md R114, R126). The decoder reads the opcode grid of R88; the encoder is written from the
*Encoding* lines of the instruction rules. -/

namespace Sys2Proof

/-! ### Byte order and fields -/

/-- `h:l`, the 16-bit item whose high byte comes first (20_memory.md R51; 00_scope.md R9). -/
def wordOf (h l : Byte) : Word := h ++ l

/-- `hi(v) = v[15:8]` (R9). -/
def hiByte (v : Word) : Byte := v.extractLsb' 8 8

/-- `lo(v) = v[7:0]` (R9). -/
def loByte (v : Word) : Byte := v.extractLsb' 0 8

/-- Byte number `k` of the instruction, the opcode's first byte being number 0; past the end of the list it is 0. -/
def byteAt (bytes : List Byte) (k : Nat) : Byte := bytes.getD k 0x00#8

/-- The two bytes from number `k` on, high byte first (R83). -/
def wordAt (bytes : List Byte) (k : Nat) : Word := wordOf (byteAt bytes k) (byteAt bytes (k + 1))

/-- Why a byte sequence is no instruction (R15, R382). -/
inductive DecodeError where
  /-- An opcode byte absent from R88, a page byte after a page byte included (R97, R98). -/
  | undefinedOpcode
  /-- An indexed post byte absent from R126 (R99). -/
  | undefinedPostbyte
  /-- An EXG or TFR post byte with an unlisted code or with registers of unlike width (R322). -/
  | undefinedRegpair
  deriving DecidableEq, Repr

/-! ### The post byte of the indexed format -/

/-- Field `RR` (R114): "00 = X 01 = Y 10 = U 11 = S". -/
def ptrOf (rr : BitVec 2) : Ptr :=
  match rr.toNat with
  | 0 => .x
  | 1 => .y
  | 2 => .u
  | _ => .s

/-- The code of a base register in field `RR` (R114). -/
def ptrBits : Ptr → BitVec 2
  | .x => 0b00#2
  | .y => 0b01#2
  | .u => 0b10#2
  | .s => 0b11#2

/-- The form a post byte selects (R114, R126), `none` for the 36 undefined ones (R99). `rest` is what follows the
post byte. In the PC-relative forms and in extended indirect `pb[6:5]` is not looked at ("Don't Care", R101). -/
def decodeIdx (pb : Byte) (rest : List Byte) : Option Idx :=
  let r := ptrOf (pb.extractLsb' 5 2)
  let ind := pb.getLsbD 4
  if pb.getLsbD 7 then
    match (pb.extractLsb' 0 4).toNat with
    | 0x0 => if ind then none else some (.inc1 r)
    | 0x1 => some (.inc2 r ind)
    | 0x2 => if ind then none else some (.dec1 r)
    | 0x3 => some (.dec2 r ind)
    | 0x4 => some (.noOff r ind)
    | 0x5 => some (.accB r ind)
    | 0x6 => some (.accA r ind)
    | 0x8 => some (.off8 r ind (byteAt rest 0))
    | 0x9 => some (.off16 r ind (wordAt rest 0))
    | 0xB => some (.accD r ind)
    | 0xC => some (.pcr8 ind (byteAt rest 0))
    | 0xD => some (.pcr16 ind (wordAt rest 0))
    | 0xF => if ind then some (.extInd (wordAt rest 0)) else none
    | _ => none
  else some (.off5 r (pb.extractLsb' 0 5))

/-- A post byte with `pb[7] = 1` from its fields (R114). -/
def postByte (rr : BitVec 2) (ind : Bool) (m : BitVec 4) : Byte :=
  1#1 ++ rr ++ BitVec.ofBool ind ++ m

/-- The post byte and what follows it (R90, R126). The "Don't Care" bits are written 0 (log 15). -/
def encIdx : Idx → List Byte
  | .off5 r n => [0#1 ++ ptrBits r ++ n]
  | .noOff r ind => [postByte (ptrBits r) ind 0x4#4]
  | .off8 r ind n => [postByte (ptrBits r) ind 0x8#4, n]
  | .off16 r ind n => [postByte (ptrBits r) ind 0x9#4, hiByte n, loByte n]
  | .accA r ind => [postByte (ptrBits r) ind 0x6#4]
  | .accB r ind => [postByte (ptrBits r) ind 0x5#4]
  | .accD r ind => [postByte (ptrBits r) ind 0xB#4]
  | .inc1 r => [postByte (ptrBits r) false 0x0#4]
  | .inc2 r ind => [postByte (ptrBits r) ind 0x1#4]
  | .dec1 r => [postByte (ptrBits r) false 0x2#4]
  | .dec2 r ind => [postByte (ptrBits r) ind 0x3#4]
  | .pcr8 ind n => [postByte 0#2 ind 0xC#4, n]
  | .pcr16 ind n => [postByte 0#2 ind 0xD#4, hiByte n, loByte n]
  | .extInd addr => [postByte 0#2 true 0xF#4, hiByte addr, loByte addr]

/-! ### The post byte of EXG and TFR -/

/-- The register of a 4-bit code (R94), `none` for the six codes the table leaves undefined. -/
def regOfCode (k : BitVec 4) : Option Reg :=
  match k.toNat with
  | 0x0 => some (.wide .d)
  | 0x1 => some (.wide .x)
  | 0x2 => some (.wide .y)
  | 0x3 => some (.wide .u)
  | 0x4 => some (.wide .s)
  | 0x5 => some (.wide .pc)
  | 0x8 => some (.narrow .a)
  | 0x9 => some (.narrow .b)
  | 0xA => some (.narrow .cc)
  | 0xB => some (.narrow .dp)
  | _ => none

/-- The 4-bit code of a register (R94). -/
def regCode : Reg → BitVec 4
  | .wide .d => 0x0#4
  | .wide .x => 0x1#4
  | .wide .y => 0x2#4
  | .wide .u => 0x3#4
  | .wide .s => 0x4#4
  | .wide .pc => 0x5#4
  | .narrow .a => 0x8#4
  | .narrow .b => 0x9#4
  | .narrow .cc => 0xA#4
  | .narrow .dp => 0xB#4

/-! ### The opcode map -/

/-- One cell of the opcode map R88: the format (R82) and the instruction it makes of its operand bytes. -/
inductive Row where
  | undef
  | inh (i : Instr)
  | imm8 (f : Byte → Instr)
  | imm16 (f : Word → Instr)
  | dir (f : MemOp → Instr)
  | ext (f : MemOp → Instr)
  | idx (f : MemOp → Instr)
  | idxOnly (f : Idx → Instr)
  | rel8 (f : Byte → Instr)
  | rel16 (f : Word → Instr)
  | regpair (f : Reg → Reg → Instr)
  | reglist (f : Byte → Instr)

def imm8 (f : Src8 → Instr) : Row := .imm8 fun d => f (.imm d)
def dir8 (f : Src8 → Instr) : Row := .dir fun m => f (.mem m)
def idx8 (f : Src8 → Instr) : Row := .idx fun m => f (.mem m)
def ext8 (f : Src8 → Instr) : Row := .ext fun m => f (.mem m)
def imm16 (f : Src16 → Instr) : Row := .imm16 fun d => f (.imm d)
def dir16 (f : Src16 → Instr) : Row := .dir fun m => f (.mem m)
def idx16 (f : Src16 → Instr) : Row := .idx fun m => f (.mem m)
def ext16 (f : Src16 → Instr) : Row := .ext fun m => f (.mem m)
def idxOnly (f : Idx → Instr) : Row := .idxOnly f

/-- Page 1, opcodes 0x00 to 0x0F (R88). -/
def page1Row0 : List Row :=
  [.dir .neg, .undef, .undef, .dir .com,
   .dir .lsr, .undef, .dir .ror, .dir .asr,
   .dir .asl, .dir .rol, .dir .dec, .undef,
   .dir .inc, .dir .tst, .dir .jmp, .dir .clr]

/-- Page 1, opcodes 0x10 to 0x1F (R88). The two page bytes have no row of their own. -/
def page1Row1 : List Row :=
  [.undef, .undef, .inh .nop, .inh .sync,
   .undef, .undef, .rel16 .lbra, .rel16 .lbsr,
   .undef, .inh .daa, .imm8 .orcc, .undef,
   .imm8 .andcc, .inh .sex, .regpair .exg, .regpair .tfr]

/-- Page 1, opcodes 0x20 to 0x2F (R88). -/
def page1Row2 : List Row :=
  [.rel8 .bra, .rel8 .brn, .rel8 .bhi, .rel8 .bls,
   .rel8 .bcc, .rel8 .bcs, .rel8 .bne, .rel8 .beq,
   .rel8 .bvc, .rel8 .bvs, .rel8 .bpl, .rel8 .bmi,
   .rel8 .bge, .rel8 .blt, .rel8 .bgt, .rel8 .ble]

/-- Page 1, opcodes 0x30 to 0x3F (R88). -/
def page1Row3 : List Row :=
  [idxOnly .leax, idxOnly .leay, idxOnly .leas, idxOnly .leau,
   .reglist .pshs, .reglist .puls, .reglist .pshu, .reglist .pulu,
   .undef, .inh .rts, .inh .abx, .inh .rti,
   .imm8 .cwai, .inh .mul, .undef, .inh .swi]

/-- Page 1, opcodes 0x40 to 0x4F (R88). -/
def page1Row4 : List Row :=
  [.inh .nega, .undef, .undef, .inh .coma,
   .inh .lsra, .undef, .inh .rora, .inh .asra,
   .inh .asla, .inh .rola, .inh .deca, .undef,
   .inh .inca, .inh .tsta, .undef, .inh .clra]

/-- Page 1, opcodes 0x50 to 0x5F (R88). -/
def page1Row5 : List Row :=
  [.inh .negb, .undef, .undef, .inh .comb,
   .inh .lsrb, .undef, .inh .rorb, .inh .asrb,
   .inh .aslb, .inh .rolb, .inh .decb, .undef,
   .inh .incb, .inh .tstb, .undef, .inh .clrb]

/-- Page 1, opcodes 0x60 to 0x6F (R88). -/
def page1Row6 : List Row :=
  [.idx .neg, .undef, .undef, .idx .com,
   .idx .lsr, .undef, .idx .ror, .idx .asr,
   .idx .asl, .idx .rol, .idx .dec, .undef,
   .idx .inc, .idx .tst, .idx .jmp, .idx .clr]

/-- Page 1, opcodes 0x70 to 0x7F (R88). -/
def page1Row7 : List Row :=
  [.ext .neg, .undef, .undef, .ext .com,
   .ext .lsr, .undef, .ext .ror, .ext .asr,
   .ext .asl, .ext .rol, .ext .dec, .undef,
   .ext .inc, .ext .tst, .ext .jmp, .ext .clr]

/-- Page 1, opcodes 0x80 to 0x8F (R88). -/
def page1Row8 : List Row :=
  [imm8 .suba, imm8 .cmpa, imm8 .sbca, imm16 .subd,
   imm8 .anda, imm8 .bita, imm8 .lda, .undef,
   imm8 .eora, imm8 .adca, imm8 .ora, imm8 .adda,
   imm16 .cmpx, .rel8 .bsr, imm16 .ldx, .undef]

/-- Page 1, opcodes 0x90 to 0x9F (R88). -/
def page1Row9 : List Row :=
  [dir8 .suba, dir8 .cmpa, dir8 .sbca, dir16 .subd,
   dir8 .anda, dir8 .bita, dir8 .lda, .dir .sta,
   dir8 .eora, dir8 .adca, dir8 .ora, dir8 .adda,
   dir16 .cmpx, .dir .jsr, dir16 .ldx, .dir .stx]

/-- Page 1, opcodes 0xA0 to 0xAF (R88). -/
def page1RowA : List Row :=
  [idx8 .suba, idx8 .cmpa, idx8 .sbca, idx16 .subd,
   idx8 .anda, idx8 .bita, idx8 .lda, .idx .sta,
   idx8 .eora, idx8 .adca, idx8 .ora, idx8 .adda,
   idx16 .cmpx, .idx .jsr, idx16 .ldx, .idx .stx]

/-- Page 1, opcodes 0xB0 to 0xBF (R88). -/
def page1RowB : List Row :=
  [ext8 .suba, ext8 .cmpa, ext8 .sbca, ext16 .subd,
   ext8 .anda, ext8 .bita, ext8 .lda, .ext .sta,
   ext8 .eora, ext8 .adca, ext8 .ora, ext8 .adda,
   ext16 .cmpx, .ext .jsr, ext16 .ldx, .ext .stx]

/-- Page 1, opcodes 0xC0 to 0xCF (R88). -/
def page1RowC : List Row :=
  [imm8 .subb, imm8 .cmpb, imm8 .sbcb, imm16 .addd,
   imm8 .andb, imm8 .bitb, imm8 .ldb, .undef,
   imm8 .eorb, imm8 .adcb, imm8 .orb, imm8 .addb,
   imm16 .ldd, .undef, imm16 .ldu, .undef]

/-- Page 1, opcodes 0xD0 to 0xDF (R88). -/
def page1RowD : List Row :=
  [dir8 .subb, dir8 .cmpb, dir8 .sbcb, dir16 .addd,
   dir8 .andb, dir8 .bitb, dir8 .ldb, .dir .stb,
   dir8 .eorb, dir8 .adcb, dir8 .orb, dir8 .addb,
   dir16 .ldd, .dir .std, dir16 .ldu, .dir .stu]

/-- Page 1, opcodes 0xE0 to 0xEF (R88). -/
def page1RowE : List Row :=
  [idx8 .subb, idx8 .cmpb, idx8 .sbcb, idx16 .addd,
   idx8 .andb, idx8 .bitb, idx8 .ldb, .idx .stb,
   idx8 .eorb, idx8 .adcb, idx8 .orb, idx8 .addb,
   idx16 .ldd, .idx .std, idx16 .ldu, .idx .stu]

/-- Page 1, opcodes 0xF0 to 0xFF (R88). -/
def page1RowF : List Row :=
  [ext8 .subb, ext8 .cmpb, ext8 .sbcb, ext16 .addd,
   ext8 .andb, ext8 .bitb, ext8 .ldb, .ext .stb,
   ext8 .eorb, ext8 .adcb, ext8 .orb, ext8 .addb,
   ext16 .ldd, .ext .std, ext16 .ldu, .ext .stu]

/-- Page 1 of R88, row by row. -/
def page1Grid : List (List Row) :=
  [page1Row0, page1Row1, page1Row2, page1Row3, page1Row4, page1Row5, page1Row6, page1Row7,
   page1Row8, page1Row9, page1RowA, page1RowB, page1RowC, page1RowD, page1RowE, page1RowF]

/-- The page 1 cell of an opcode byte: row = high nibble, column = low nibble (R88). -/
def page1 (op : Byte) : Row :=
  (page1Grid.getD (op.toNat / 16) []).getD (op.toNat % 16) .undef

/-- Page 2, first byte 0x10 (R88): the 38 defined second bytes. -/
def page2Table : List (Nat × Row) :=
  [(0x21, .rel16 .lbrn), (0x22, .rel16 .lbhi), (0x23, .rel16 .lbls), (0x24, .rel16 .lbcc),
   (0x25, .rel16 .lbcs), (0x26, .rel16 .lbne), (0x27, .rel16 .lbeq), (0x28, .rel16 .lbvc),
   (0x29, .rel16 .lbvs), (0x2A, .rel16 .lbpl), (0x2B, .rel16 .lbmi), (0x2C, .rel16 .lbge),
   (0x2D, .rel16 .lblt), (0x2E, .rel16 .lbgt), (0x2F, .rel16 .lble), (0x3F, .inh .swi2),
   (0x83, imm16 .cmpd), (0x8C, imm16 .cmpy), (0x8E, imm16 .ldy), (0x93, dir16 .cmpd),
   (0x9C, dir16 .cmpy), (0x9E, dir16 .ldy), (0x9F, .dir .sty), (0xA3, idx16 .cmpd),
   (0xAC, idx16 .cmpy), (0xAE, idx16 .ldy), (0xAF, .idx .sty), (0xB3, ext16 .cmpd),
   (0xBC, ext16 .cmpy), (0xBE, ext16 .ldy), (0xBF, .ext .sty), (0xCE, imm16 .lds),
   (0xDE, dir16 .lds), (0xDF, .dir .sts), (0xEE, idx16 .lds), (0xEF, .idx .sts),
   (0xFE, ext16 .lds), (0xFF, .ext .sts)]

/-- Page 3, first byte 0x11 (R88): the 9 defined second bytes. -/
def page3Table : List (Nat × Row) :=
  [(0x3F, .inh .swi3), (0x83, imm16 .cmpu), (0x8C, imm16 .cmps), (0x93, dir16 .cmpu),
   (0x9C, dir16 .cmps), (0xA3, idx16 .cmpu), (0xAC, idx16 .cmps), (0xB3, ext16 .cmpu),
   (0xBC, ext16 .cmps)]

/-- The row a page 2 or page 3 table lists for an opcode; a byte it does not list is undefined (R97). -/
def lookupRow : List (Nat × Row) → Nat → Row
  | [], _ => .undef
  | (k, row) :: rest, op => if op = k then row else lookupRow rest op

def page2 (op : Byte) : Row := lookupRow page2Table op.toNat
def page3 (op : Byte) : Row := lookupRow page3Table op.toNat

/-! ### The decoder -/

/-- The operand bytes of a row's format (R82, R83); `rest` is what follows the opcode bytes. -/
def decodeRow (row : Row) (rest : List Byte) : Except DecodeError Instr :=
  match row with
  | .undef => .error .undefinedOpcode
  | .inh i => .ok i
  | .imm8 f => .ok (f (byteAt rest 0))
  | .imm16 f => .ok (f (wordAt rest 0))
  | .dir f => .ok (f (.dir (byteAt rest 0)))
  | .ext f => .ok (f (.ext (wordAt rest 0)))
  | .idx f =>
    match decodeIdx (byteAt rest 0) (rest.drop 1) with
    | some form => .ok (f (.idx form))
    | none => .error .undefinedPostbyte
  | .idxOnly f =>
    match decodeIdx (byteAt rest 0) (rest.drop 1) with
    | some form => .ok (f form)
    | none => .error .undefinedPostbyte
  | .rel8 f => .ok (f (byteAt rest 0))
  | .rel16 f => .ok (f (wordAt rest 0))
  | .regpair f =>
    match regOfCode ((byteAt rest 0).extractLsb' 4 4), regOfCode ((byteAt rest 0).extractLsb' 0 4) with
    | some r1, some r2 => if sameWidth r1 r2 then .ok (f r1 r2) else .error .undefinedRegpair
    | _, _ => .error .undefinedRegpair
  | .reglist f => .ok (f (byteAt rest 0))

/-- The instruction that the bytes begin with (R81, R91), or why there is none. Total: bytes past the end of the list
count as 0, and `step` always supplies five. -/
def decode (bytes : List Byte) : Except DecodeError Instr :=
  if byteAt bytes 0 = 0x10#8 then decodeRow (page2 (byteAt bytes 1)) (bytes.drop 2)
  else if byteAt bytes 0 = 0x11#8 then decodeRow (page3 (byteAt bytes 1)) (bytes.drop 2)
  else decodeRow (page1 (byteAt bytes 0)) (bytes.drop 1)

/-! ### The encoder -/

/-- Direct, indexed and extended forms after the opcode of each (R82). -/
def encMem (dir idx ext : Byte) : MemOp → List Byte
  | .dir adr8 => [dir, adr8]
  | .idx form => idx :: encIdx form
  | .ext adr16 => [ext, hiByte adr16, loByte adr16]

/-- 8-bit source forms after the opcode of each (R82). -/
def encSrc8 (imm dir idx ext : Byte) : Src8 → List Byte
  | .imm data => [imm, data]
  | .mem m => encMem dir idx ext m

/-- 16-bit source forms after the opcode of each (R82). -/
def encSrc16 (imm dir idx ext : Byte) : Src16 → List Byte
  | .imm data => [imm, hiByte data, loByte data]
  | .mem m => encMem dir idx ext m

/-- The bytes of an instruction, from the *Encoding* line of its rule. -/
def encode : Instr → List Byte
  | .lda src => encSrc8 0x86 0x96 0xA6 0xB6 src
  | .ldb src => encSrc8 0xC6 0xD6 0xE6 0xF6 src
  | .ldd src => encSrc16 0xCC 0xDC 0xEC 0xFC src
  | .ldx src => encSrc16 0x8E 0x9E 0xAE 0xBE src
  | .ldy src => 0x10 :: encSrc16 0x8E 0x9E 0xAE 0xBE src
  | .ldu src => encSrc16 0xCE 0xDE 0xEE 0xFE src
  | .lds src => 0x10 :: encSrc16 0xCE 0xDE 0xEE 0xFE src
  | .sta dst => encMem 0x97 0xA7 0xB7 dst
  | .stb dst => encMem 0xD7 0xE7 0xF7 dst
  | .std dst => encMem 0xDD 0xED 0xFD dst
  | .stx dst => encMem 0x9F 0xAF 0xBF dst
  | .sty dst => 0x10 :: encMem 0x9F 0xAF 0xBF dst
  | .stu dst => encMem 0xDF 0xEF 0xFF dst
  | .sts dst => 0x10 :: encMem 0xDF 0xEF 0xFF dst
  | .adca src => encSrc8 0x89 0x99 0xA9 0xB9 src
  | .adcb src => encSrc8 0xC9 0xD9 0xE9 0xF9 src
  | .adda src => encSrc8 0x8B 0x9B 0xAB 0xBB src
  | .addb src => encSrc8 0xCB 0xDB 0xEB 0xFB src
  | .addd src => encSrc16 0xC3 0xD3 0xE3 0xF3 src
  | .suba src => encSrc8 0x80 0x90 0xA0 0xB0 src
  | .subb src => encSrc8 0xC0 0xD0 0xE0 0xF0 src
  | .sbca src => encSrc8 0x82 0x92 0xA2 0xB2 src
  | .sbcb src => encSrc8 0xC2 0xD2 0xE2 0xF2 src
  | .subd src => encSrc16 0x83 0x93 0xA3 0xB3 src
  | .cmpa src => encSrc8 0x81 0x91 0xA1 0xB1 src
  | .cmpb src => encSrc8 0xC1 0xD1 0xE1 0xF1 src
  | .cmpd src => 0x10 :: encSrc16 0x83 0x93 0xA3 0xB3 src
  | .cmps src => 0x11 :: encSrc16 0x8C 0x9C 0xAC 0xBC src
  | .cmpu src => 0x11 :: encSrc16 0x83 0x93 0xA3 0xB3 src
  | .cmpx src => encSrc16 0x8C 0x9C 0xAC 0xBC src
  | .cmpy src => 0x10 :: encSrc16 0x8C 0x9C 0xAC 0xBC src
  | .anda src => encSrc8 0x84 0x94 0xA4 0xB4 src
  | .andb src => encSrc8 0xC4 0xD4 0xE4 0xF4 src
  | .bita src => encSrc8 0x85 0x95 0xA5 0xB5 src
  | .bitb src => encSrc8 0xC5 0xD5 0xE5 0xF5 src
  | .eora src => encSrc8 0x88 0x98 0xA8 0xB8 src
  | .eorb src => encSrc8 0xC8 0xD8 0xE8 0xF8 src
  | .ora src => encSrc8 0x8A 0x9A 0xAA 0xBA src
  | .orb src => encSrc8 0xCA 0xDA 0xEA 0xFA src
  | .asl dst => encMem 0x08 0x68 0x78 dst
  | .asla => [0x48]
  | .aslb => [0x58]
  | .lsl dst => encMem 0x08 0x68 0x78 dst
  | .lsla => [0x48]
  | .lslb => [0x58]
  | .asr dst => encMem 0x07 0x67 0x77 dst
  | .asra => [0x47]
  | .asrb => [0x57]
  | .lsr dst => encMem 0x04 0x64 0x74 dst
  | .lsra => [0x44]
  | .lsrb => [0x54]
  | .rol dst => encMem 0x09 0x69 0x79 dst
  | .rola => [0x49]
  | .rolb => [0x59]
  | .ror dst => encMem 0x06 0x66 0x76 dst
  | .rora => [0x46]
  | .rorb => [0x56]
  | .neg dst => encMem 0x00 0x60 0x70 dst
  | .nega => [0x40]
  | .negb => [0x50]
  | .com dst => encMem 0x03 0x63 0x73 dst
  | .coma => [0x43]
  | .comb => [0x53]
  | .clr dst => encMem 0x0F 0x6F 0x7F dst
  | .clra => [0x4F]
  | .clrb => [0x5F]
  | .dec dst => encMem 0x0A 0x6A 0x7A dst
  | .deca => [0x4A]
  | .decb => [0x5A]
  | .inc dst => encMem 0x0C 0x6C 0x7C dst
  | .inca => [0x4C]
  | .incb => [0x5C]
  | .tst dst => encMem 0x0D 0x6D 0x7D dst
  | .tsta => [0x4D]
  | .tstb => [0x5D]
  | .daa => [0x19]
  | .bra disp => [0x20, disp]
  | .lbra disp => [0x16, hiByte disp, loByte disp]
  | .jmp dst => encMem 0x0E 0x6E 0x7E dst
  | .bsr disp => [0x8D, disp]
  | .lbsr disp => [0x17, hiByte disp, loByte disp]
  | .jsr dst => encMem 0x9D 0xAD 0xBD dst
  | .rts => [0x39]
  | .bcc disp => [0x24, disp]
  | .bcs disp => [0x25, disp]
  | .beq disp => [0x27, disp]
  | .bge disp => [0x2C, disp]
  | .bgt disp => [0x2E, disp]
  | .bhi disp => [0x22, disp]
  | .bhs disp => [0x24, disp]
  | .ble disp => [0x2F, disp]
  | .blo disp => [0x25, disp]
  | .bls disp => [0x23, disp]
  | .blt disp => [0x2D, disp]
  | .bmi disp => [0x2B, disp]
  | .bne disp => [0x26, disp]
  | .bpl disp => [0x2A, disp]
  | .bvc disp => [0x28, disp]
  | .bvs disp => [0x29, disp]
  | .lbcc disp => 0x10 :: [0x24, hiByte disp, loByte disp]
  | .lbcs disp => 0x10 :: [0x25, hiByte disp, loByte disp]
  | .lbeq disp => 0x10 :: [0x27, hiByte disp, loByte disp]
  | .lbge disp => 0x10 :: [0x2C, hiByte disp, loByte disp]
  | .lbgt disp => 0x10 :: [0x2E, hiByte disp, loByte disp]
  | .lbhi disp => 0x10 :: [0x22, hiByte disp, loByte disp]
  | .lbhs disp => 0x10 :: [0x24, hiByte disp, loByte disp]
  | .lble disp => 0x10 :: [0x2F, hiByte disp, loByte disp]
  | .lblo disp => 0x10 :: [0x25, hiByte disp, loByte disp]
  | .lbls disp => 0x10 :: [0x23, hiByte disp, loByte disp]
  | .lblt disp => 0x10 :: [0x2D, hiByte disp, loByte disp]
  | .lbmi disp => 0x10 :: [0x2B, hiByte disp, loByte disp]
  | .lbne disp => 0x10 :: [0x26, hiByte disp, loByte disp]
  | .lbpl disp => 0x10 :: [0x2A, hiByte disp, loByte disp]
  | .lbvc disp => 0x10 :: [0x28, hiByte disp, loByte disp]
  | .lbvs disp => 0x10 :: [0x29, hiByte disp, loByte disp]
  | .exg r1 r2 => [0x1E, regCode r1 ++ regCode r2]
  | .tfr r1 r2 => [0x1F, regCode r1 ++ regCode r2]
  | .abx => [0x3A]
  | .mul => [0x3D]
  | .sex => [0x1D]
  | .leax form => 0x30 :: encIdx form
  | .leay form => 0x31 :: encIdx form
  | .leas form => 0x32 :: encIdx form
  | .leau form => 0x33 :: encIdx form
  | .pshs list => [0x34, list]
  | .pshu list => [0x36, list]
  | .puls list => [0x35, list]
  | .pulu list => [0x37, list]
  | .swi => [0x3F]
  | .swi2 => 0x10 :: [0x3F]
  | .swi3 => 0x11 :: [0x3F]
  | .rti => [0x3B]
  | .cwai data => [0x3C, data]
  | .sync => [0x13]
  | .andcc data => [0x1C, data]
  | .orcc data => [0x1A, data]
  | .nop => [0x12]
  | .brn disp => [0x21, disp]
  | .lbrn disp => 0x10 :: [0x21, hiByte disp, loByte disp]

/-- `len` of 00_scope.md R13: how many bytes the instruction has, opcode bytes, post byte and operand bytes together. -/
def instrLength (i : Instr) : Nat := (encode i).length

/-- The instruction whose mnemonic the decoder answers for a mnemonic that shares its words (R102): the seven second
names LSL, LSLA, LSLB, BHS, BLO, LBHS, LBLO stand for the first ones; every other instruction for itself. -/
def canonical : Instr → Instr
  | .lsl dst => .asl dst
  | .lsla => .asla
  | .lslb => .aslb
  | .bhs disp => .bcc disp
  | .blo disp => .bcs disp
  | .lbhs disp => .lbcc disp
  | .lblo disp => .lbcs disp
  | i => i

/-! ### The host's reading of the opcode table -/

/-- The five bytes in memory order of an instruction given as a number `w` of `nbits` bits. Byte `k` is bits
`8k+7 .. 8k`; but the table writes its two-byte patterns "over the opcode bytes as fetched, first byte most
significant" (R104), so in a 16-bit row the page byte 0x10 or 0x11 stands in bits 15 to 8 and comes first (log 14). -/
def tableBytes (nbits w : Nat) : List Byte :=
  let v := w % 2 ^ nbits
  let b0 := BitVec.ofNat 8 v
  let b1 := BitVec.ofNat 8 (v / 2 ^ 8)
  if nbits = 16 ∧ (b1 = 0x10#8 ∨ b1 = 0x11#8) then [b1, b0, 0x00#8, 0x00#8, 0x00#8]
  else [b0, b1, BitVec.ofNat 8 (v / 2 ^ 16), BitVec.ofNat 8 (v / 2 ^ 24), BitVec.ofNat 8 (v / 2 ^ 32)]

/-- The instruction the decoder reads from a word of spec/opcode_table.json, every bit above `nbits` being 0. -/
def decodeTableWord (nbits w : Nat) : Option Instr := (decode (tableBytes nbits w)).toOption

end Sys2Proof
end

