-- ==== Sys2Proof/Machine/State.lean ====
section
/-! DEFINITION. The state of the machine (spec/10_state.md R20 to R35), the ways a step can stop, and the state after
reset (spec/70_reset_and_hazards.md R420, R421). Plain data throughout. -/

namespace Sys2Proof.Machine

/-- The condition code register, bit by bit (10_state.md R26): all eight bits are ordinary storage, so the register is
its eight bits. The byte view, E in bit 7 down to C in bit 0, is `CC.toByte` and `CC.ofByte` of Flags.lean. -/
@[ext]
structure CC where
  /-- "Entire flag", bit 7. -/
  e : Bool
  /-- "Fast Interrupt Mask bit", bit 6. -/
  f : Bool
  /-- "Half-Carry flag", bit 5. -/
  h : Bool
  /-- "(Regular) Interrupt Mask bit", bit 4. -/
  i : Bool
  /-- "Sign (Negative) flag", bit 3. -/
  n : Bool
  /-- "Zero flag", bit 2. -/
  z : Bool
  /-- "Overflow flag", bit 1. -/
  v : Bool
  /-- "Carry (Borrow) flag", bit 0. -/
  c : Bool
  deriving DecidableEq, Repr

/-- Whether the processor executes or waits (10_state.md R33). -/
inductive Run where
  | running
  /-- Inside SYNC (60_exceptions.md R400). -/
  | syncWait
  /-- Inside CWAI, the entire frame already stacked (R401). -/
  | cwaiWait
  deriving DecidableEq, Repr

/-- What `MemMap` says an address is (20_memory.md R60). -/
inductive CellKind where
  /-- Reads return the last write. -/
  | ram
  /-- Reads return the fixed content (held in `mem`, log 6), writes are ignored. -/
  | rom
  /-- Reads and writes are events handed to `Env`. -/
  | device
  /-- The spec's `none`: nothing behind the address; writes are ignored, reads return a draw. -/
  | absent
  deriving DecidableEq, Repr

/-- One entry of `MemMap`: the addresses `first` to `last`, both included. -/
structure Region where
  first : Word
  last : Word
  kind : CellKind
  deriving DecidableEq, Repr

/-- What `Env` presents to one step (10_state.md R34): three levels and one event. -/
structure Inputs where
  reset : Bool
  firq : Bool
  irq : Bool
  nmiEdge : Bool
  deriving DecidableEq, Repr

/-- An access to a device cell, handed to `Env` (20_memory.md R60). -/
inductive BusEvent where
  | read (addr : Word) (answered : Byte)
  | write (addr : Word) (value : Byte)
  deriving DecidableEq, Repr

/-- The contents of RAM and ROM: address and byte, addresses strictly rising, no entry equal to what an unlisted address
reads as (`Config.unlisted`). -/
abbrev Memory := List Host.Cell

/-- The machine. The first thirteen fields are the state of 10_state.md R20; the next four carry the parameters of the
step relation that are data (R35); `draws` is the model's own. -/
@[ext]
structure State where
  /-- Accumulator A (R21). -/
  a : Byte
  /-- Accumulator B (R21). -/
  b : Byte
  /-- Index register X (R23). -/
  x : Word
  /-- Index register Y (R23). -/
  y : Word
  /-- User stack pointer (R24). -/
  u : Word
  /-- Hardware stack pointer (R24). -/
  s : Word
  /-- Program counter (R25): between steps `pc0` of the next instruction; while `exec` runs, `npc` (log 12). -/
  pc : Word
  /-- Direct page register (R29). -/
  dp : Byte
  /-- Condition code register (R26). -/
  cc : CC
  /-- Contents of RAM and ROM (R32). -/
  mem : Memory
  /-- Executing or waiting (R33). -/
  run : Run
  /-- NMI is honoured (R34; 60_exceptions.md R392). -/
  nmiArmed : Bool
  /-- An NMI edge waits to be taken (R34; 60_exceptions.md R390). -/
  nmiRequest : Bool
  /-- `Env`: the inputs of the coming steps, the next step's first; past the end nothing is asserted (log 5). -/
  inputs : List Inputs
  /-- `MemMap`: the first region that holds an address gives its kind, an address in none is `ram` (log 6). -/
  memMap : List Region
  /-- `Env`: the bytes it answers to the coming device reads; past the end a read returns a draw (log 7). -/
  devIn : List Byte
  /-- The device accesses handed to `Env` so far, the latest first (log 7). -/
  events : List BusEvent
  /-- The model's own: how many free values have been drawn (log 8). -/
  draws : Nat
  deriving DecidableEq, Repr

/-- Why the machine stops with a fault. It has no constructor: the 6809 of the spec "has no fault of any kind"
(00_scope.md R15; 60_exceptions.md R380), so no step of the model faults. -/
inductive Fault where
  deriving DecidableEq, Repr

/-- Why a step has no next state: `refuse(reason)` of 00_scope.md R15. Every one of them is safe: the silicon goes on
in some way no document describes (R98), the model stops. -/
inductive Refusal where
  /-- Raised by `exec` for an instruction that has no meaning yet. Safe. No arm of this model raises it. -/
  | notModelled (mnemonic : String)
  /-- Raised by the fetch: an opcode absent from the opcode map (R97, R98). Safe. -/
  | undefinedOpcode
  /-- Raised by the fetch: one of the 36 undefined indexed post bytes (R99). Safe. -/
  | undefinedPostbyte
  /-- Raised by the fetch, and by EXG and TFR on a pair of unlike width: an undefined register pair (R322). Safe. -/
  | undefinedRegpair
  deriving DecidableEq, Repr

/-- What a step or a meaning answers. -/
abbrev Result := Host.Outcome State Fault Refusal

/-- The machine right after reset (70_reset_and_hazards.md R421). DP, I, F, `run`, `nmi_armed` and `nmi_request` are the
spec's; PC is the word at the reset vector of the reset memory, which lists nothing (log 1, log 2); A, B, X, Y, U, S and
the flags E, H, N, Z, V, C are "unspecified" there and 0 here: DESIGN CHOICE, unsafe, log 2. -/
def State.reset : State where
  a := 0x00#8
  b := 0x00#8
  x := 0x0000#16
  y := 0x0000#16
  u := 0x0000#16
  s := 0x0000#16
  pc := wordOf Config.unlisted Config.unlisted
  dp := 0x00#8
  cc := { e := false, f := true, h := false, i := true, n := false, z := false, v := false, c := false }
  mem := []
  run := .running
  nmiArmed := false
  nmiRequest := false
  inputs := []
  memMap := []
  devIn := []
  events := []
  draws := 0

end Sys2Proof.Machine
end

