-- ==== Sys2Proof/Machine/Flags.lean ====
section
/-! DEFINITION. The condition codes as a byte, and every flag computation of the spec (00_scope.md R16, R17;
42_accumulator_memory_operate.md R172; 43_memory_and_register_operate.md R213, R250; 45_branch_on_condition.md R281).
Pure functions: an operation answers its result and the new condition codes. A flag an operation does not list it leaves
as it was (R17). A free bit (`any1()`) is an argument. -/

namespace Sys2Proof.Machine

/-! ### CC as a byte -/

/-- `CC = E:F:H:I:N:Z:V:C` from bit 7 down to bit 0 (10_state.md R26). -/
def CC.toByte (cc : CC) : Byte :=
  BitVec.ofBool cc.e ++ BitVec.ofBool cc.f ++ BitVec.ofBool cc.h ++ BitVec.ofBool cc.i ++
  BitVec.ofBool cc.n ++ BitVec.ofBool cc.z ++ BitVec.ofBool cc.v ++ BitVec.ofBool cc.c

/-- The eight bits of a byte written to CC (R26). -/
def CC.ofByte (v : Byte) : CC where
  e := v.getLsbD 7
  f := v.getLsbD 6
  h := v.getLsbD 5
  i := v.getLsbD 4
  n := v.getLsbD 3
  z := v.getLsbD 2
  v := v.getLsbD 1
  c := v.getLsbD 0

/-! ### The helper functions of R16 and R17 -/

/-- What `add_n` and `sub_n` answer (R16). -/
structure AluOut (n : Nat) where
  r : BitVec n
  hout : Bool
  cout : Bool
  vout : Bool
  deriving DecidableEq, Repr

/-- `add_n(a, b, cin)` (R16): the exact sum, then its low n bits and its carry. -/
def addN {n : Nat} (a b : BitVec n) (cin : Bool) : AluOut n :=
  let sum := a.toNat + b.toNat + cin.toNat
  let r := BitVec.ofNat n sum
  { r := r
    hout := decide (16 ≤ a.toNat % 16 + b.toNat % 16 + cin.toNat)
    cout := decide (2 ^ n ≤ sum)
    vout := a.msb == b.msb && r.msb != a.msb }

/-- `sub_n(a, b, bin)` (R16): the exact difference, then its low n bits and whether it is negative. `sub_n` defines no
half carry; `hout` is not used. -/
def subN {n : Nat} (a b : BitVec n) (bin : Bool) : AluOut n :=
  let d : Int := (a.toNat : Int) - b.toNat - bin.toNat
  let r := BitVec.ofInt n d
  { r := r
    hout := false
    cout := decide (d < 0)
    vout := a.msb != b.msb && r.msb != a.msb }

/-- `setNZ_n(r)` (R17). -/
def CC.nz {n : Nat} (cc : CC) (r : BitVec n) : CC :=
  { cc with n := r.msb, z := r == 0 }

/-- N and Z from the value moved or tested, V cleared (41_load_store.md R141; the logic line of R172; TST). -/
def CC.nzv0 {n : Nat} (cc : CC) (r : BitVec n) : CC :=
  { cc.nz r with v := false }

/-- N, Z, V, C of an addition or subtraction (R172). -/
def CC.nzvc {n : Nat} (cc : CC) (o : AluOut n) : CC :=
  { cc.nz o.r with v := o.vout, c := o.cout }

/-! ### Two-operand operations (42_accumulator_memory_operate.md): register, operand, old CC to result, new CC -/

/-- 8-bit addition with carry in `cin`: N, Z, V, C and H (R172). -/
def addFlags8 (a m : Byte) (cin : Bool) (cc : CC) : Byte × CC :=
  let o := addN a m cin
  (o.r, { cc.nzvc o with h := o.hout })

/-- 8-bit subtraction with borrow in `bin`: N, Z, V, C; H takes the free bit `any` (R172). -/
def subFlags8 (any : Bool) (a m : Byte) (bin : Bool) (cc : CC) : Byte × CC :=
  let o := subN a m bin
  (o.r, { cc.nzvc o with h := any })

/-- ADDA, ADDB (R175, R176). -/
def opAdd8 (a m : Byte) (cc : CC) : Byte × CC := addFlags8 a m false cc

/-- ADCA, ADCB (R173, R174). -/
def opAdc8 (a m : Byte) (cc : CC) : Byte × CC := addFlags8 a m cc.c cc

/-- SUBA, SUBB, CMPA, CMPB (R178, R179, R184, R185). -/
def opSub8 (any : Bool) (a m : Byte) (cc : CC) : Byte × CC := subFlags8 any a m false cc

/-- SBCA, SBCB (R180, R181). -/
def opSbc8 (any : Bool) (a m : Byte) (cc : CC) : Byte × CC := subFlags8 any a m cc.c cc

/-- ANDA, ANDB, BITA, BITB (R191 to R194). -/
def opAnd8 (a m : Byte) (cc : CC) : Byte × CC := (a &&& m, cc.nzv0 (a &&& m))

/-- EORA, EORB (R195, R196). -/
def opEor8 (a m : Byte) (cc : CC) : Byte × CC := (a ^^^ m, cc.nzv0 (a ^^^ m))

/-- ORA, ORB (R198, R199). -/
def opOr8 (a m : Byte) (cc : CC) : Byte × CC := (a ||| m, cc.nzv0 (a ||| m))

/-- ADDD (R177): H unchanged. -/
def opAdd16 (a m : Word) (cc : CC) : Word × CC :=
  let o := addN a m false
  (o.r, cc.nzvc o)

/-- SUBD, CMPD, CMPX, CMPY, CMPU, CMPS (R182, R186 to R190): H unchanged. -/
def opSub16 (a m : Word) (cc : CC) : Word × CC :=
  let o := subN a m false
  (o.r, cc.nzvc o)

/-! ### One-operand operations: the table of 43_memory_and_register_operate.md R213 -/

/-- `f_asl(v)`; H takes the free bit `any`. -/
def opAsl (any : Bool) (v : Byte) (cc : CC) : Byte × CC :=
  let r := BitVec.ofNat 8 (v.toNat * 2)
  (r, { cc.nz r with c := v.getLsbD 7, v := v.getLsbD 7 ^^ v.getLsbD 6, h := any })

/-- `f_asr(v)`; H takes the free bit `any`, V is not written. -/
def opAsr (any : Bool) (v : Byte) (cc : CC) : Byte × CC :=
  let r := BitVec.ofNat 8 (v.toNat / 2 + 128 * (v.getLsbD 7).toNat)
  (r, { cc.nz r with c := v.getLsbD 0, h := any })

/-- `f_lsr(v)`; N is cleared, V and H are not written. -/
def opLsr (v : Byte) (cc : CC) : Byte × CC :=
  let r := BitVec.ofNat 8 (v.toNat / 2)
  (r, { cc with n := false, z := r == 0, c := v.getLsbD 0 })

/-- `f_rol(v, c)`; H is not written. -/
def opRol (v : Byte) (cc : CC) : Byte × CC :=
  let r := BitVec.ofNat 8 (v.toNat * 2 + cc.c.toNat)
  (r, { cc.nz r with c := v.getLsbD 7, v := v.getLsbD 7 ^^ v.getLsbD 6 })

/-- `f_ror(v, c)`; V and H are not written. -/
def opRor (v : Byte) (cc : CC) : Byte × CC :=
  let r := BitVec.ofNat 8 (v.toNat / 2 + 128 * cc.c.toNat)
  (r, { cc.nz r with c := v.getLsbD 0 })

/-- `f_neg(v)`; C is the borrow of `0 - v` (R232, 90_conflicts.md C10); H takes the free bit `any`. -/
def opNeg (any : Bool) (v : Byte) (cc : CC) : Byte × CC :=
  let r := BitVec.ofNat 8 (256 - v.toNat)
  (r, { cc.nz r with c := r != 0, v := r == 0x80#8, h := any })

/-- `f_com(v)`. -/
def opCom (v : Byte) (cc : CC) : Byte × CC :=
  let r := BitVec.ofNat 8 (255 - v.toNat)
  (r, { cc.nz r with c := true, v := false })

/-- `f_clr()`. -/
def opClr (_v : Byte) (cc : CC) : Byte × CC :=
  (0x00#8, { cc with n := false, z := true, v := false, c := false })

/-- `f_dec(v)`; C is not written. -/
def opDec (v : Byte) (cc : CC) : Byte × CC :=
  let r := v - 1#8
  (r, { cc.nz r with v := r == 0x7F#8 })

/-- `f_inc(v)`; C is not written. -/
def opInc (v : Byte) (cc : CC) : Byte × CC :=
  let r := v + 1#8
  (r, { cc.nz r with v := r == 0x80#8 })

/-- The decimal adjustment of A (R250); V takes the free bit `any`, H is not written. -/
def opDaa (any : Bool) (v : Byte) (cc : CC) : Byte × CC :=
  let lo := v.toNat % 16
  let hi := v.toNat / 16
  let cf1 := if cc.h = true ∨ 9 < lo then 0x06 else 0x00
  let cf2 := if cc.c = true ∨ 9 < hi ∨ (8 < hi ∧ 9 < lo) then 0x60 else 0x00
  let sum := v.toNat + cf1 + cf2
  let r := BitVec.ofNat 8 sum
  (r, { cc.nz r with c := cc.c || decide (256 ≤ sum), v := any })

/-! ### Branch conditions (45_branch_on_condition.md R281) -/

/-- The condition numbers 2 to F of R281. -/
inductive Cond where
  | hi
  | ls
  | cc
  | cs
  | ne
  | eq
  | vc
  | vs
  | pl
  | mi
  | ge
  | lt
  | gt
  | le
  deriving DecidableEq, Repr

/-- `cond(c)`, the last column of R281. -/
def condHolds (k : Cond) (cc : CC) : Bool :=
  match k with
  | .hi => !cc.c && !cc.z
  | .ls => cc.c || cc.z
  | .cc => !cc.c
  | .cs => cc.c
  | .ne => !cc.z
  | .eq => cc.z
  | .vc => !cc.v
  | .vs => cc.v
  | .pl => !cc.n
  | .mi => cc.n
  | .ge => cc.n == cc.v
  | .lt => cc.n != cc.v
  | .gt => !cc.z && cc.n == cc.v
  | .le => cc.z || cc.n != cc.v

end Sys2Proof.Machine
end

