-- ==== Sys2Proof/Machine/Ops.lean ====
section
/-! DEFINITION. The named operations over registers, memory and the stacks, taking an event through a vector, and the
return from one (spec/00_scope.md R11 to R14; 20_memory.md; 47_stack.md; 48_interrupt_and_status.md R351, R355;
60_exceptions.md R381 to R401; 70_reset_and_hazards.md R420). Every read and write of a register or of memory by an
instruction goes through them. -/

namespace Sys2Proof.Machine

/-! ### Registers -/

/-- `get(k)` of an 8-bit register (46_register_move_and_operate.md R321). -/
def State.get8 (s : State) : Reg8 → Byte
  | .a => s.a
  | .b => s.b
  | .cc => s.cc.toByte
  | .dp => s.dp

/-- `set(k, v)` of an 8-bit register; CC takes all eight bits (R321). -/
def State.set8 (s : State) (r : Reg8) (v : Byte) : State :=
  match r with
  | .a => { s with a := v }
  | .b => { s with b := v }
  | .cc => { s with cc := CC.ofByte v }
  | .dp => { s with dp := v }

/-- `get(k)` of a 16-bit register (R321). D is `A:B` (10_state.md R22); PC reads as `npc`, which is what `pc` holds while
an instruction executes (log 12). -/
def State.get16 (s : State) : Reg16 → Word
  | .d => wordOf s.a s.b
  | .x => s.x
  | .y => s.y
  | .u => s.u
  | .s => s.s
  | .pc => s.pc

/-- `set(k, v)` of a 16-bit register (R321): `D <- v` does `A <- v[15:8]; B <- v[7:0]` (00_scope.md R11). Arming NMI is
not part of it (60_exceptions.md R392); the instructions that arm do that themselves. -/
def State.set16 (s : State) (r : Reg16) (v : Word) : State :=
  match r with
  | .d => { s with a := hiByte v, b := loByte v }
  | .x => { s with x := v }
  | .y => { s with y := v }
  | .u => { s with u := v }
  | .s => { s with s := v }
  | .pc => { s with pc := v }

/-- A base register as a register of the general list (40_addressing_modes.md R114). -/
def ptrReg : Ptr → Reg16
  | .x => .x
  | .y => .y
  | .u => .u
  | .s => .s

/-- A stack pointer as a register of the general list (00_scope.md R14). -/
def stkReg : Stk → Reg16
  | .s => .s
  | .u => .u

/-- The other stack pointer, the one bit 6 of a register list names (47_stack.md R340). -/
def otherStk : Stk → Reg16
  | .s => .u
  | .u => .s

/-- `nmi_armed <- 1` when `arms` holds; it never goes back to 0 here (60_exceptions.md R392). -/
def State.armNmi (s : State) (arms : Bool) : State :=
  { s with nmiArmed := s.nmiArmed || arms }

/-- `count` free values have been used (log 8). -/
def State.drew (s : State) (count : Nat) : State :=
  { s with draws := s.draws + count }

/-! ### Memory contents -/

/-- The byte an address holds: its entry, or `Config.unlisted` where there is none (log 1). -/
def Memory.get : Memory → Nat → Byte
  | [], _ => Config.unlisted
  | (k, v) :: rest, addr => if k = addr then v else Memory.get rest addr

/-- The memory with `v` at `addr`, in the canonical form: in address order, and no entry that an unlisted address
would read as. -/
def Memory.set : Memory → Nat → Byte → Memory
  | [], addr, v => if v = Config.unlisted then [] else [(addr, v)]
  | (k, w) :: rest, addr, v =>
    if k < addr then (k, w) :: Memory.set rest addr v
    else
      let tail := if k = addr then rest else (k, w) :: rest
      if v = Config.unlisted then tail else (addr, v) :: tail

/-- From address `low` on: addresses strictly rising and below 2^16, no entry equal to `Config.unlisted`. -/
def Memory.wfFrom (low : Nat) : Memory → Bool
  | [] => true
  | (k, v) :: rest =>
    decide (low ≤ k) && decide (k < 2 ^ 16) && v != Config.unlisted && Memory.wfFrom (k + 1) rest

/-- The canonical form of a memory. -/
def Memory.wf (m : Memory) : Bool := Memory.wfFrom 0 m

/-! ### Memory accesses (00_scope.md R12) -/

/-- What `MemMap` says an address is (20_memory.md R60): the first region that holds it decides; outside all of them an
address is `ram` (log 6). -/
def kindAt : List Region → Word → CellKind
  | [], _ => .ram
  | region :: rest, addr =>
    if region.first.toNat ≤ addr.toNat ∧ addr.toNat ≤ region.last.toNat then region.kind else kindAt rest addr

/-- `MemRead(addr, 1)` (R12): the byte, and the state after the read. RAM and ROM reads have no side effect (R58); a read
of a `none` cell is a draw; a read of a device cell is an event, answered by `Env` or else by a draw (R60). -/
def State.read8 (s : State) (addr : Word) : Byte × State :=
  match kindAt s.memMap addr with
  | .ram => (Memory.get s.mem addr.toNat, s)
  | .rom => (Memory.get s.mem addr.toNat, s)
  | .absent => (Config.anyByte s.draws, s.drew 1)
  | .device =>
    match s.devIn with
    | v :: rest => (v, { s with devIn := rest, events := .read addr v :: s.events })
    | [] =>
      (Config.anyByte s.draws,
        { s with events := .read addr (Config.anyByte s.draws) :: s.events, draws := s.draws + 1 })

/-- `MemWrite(addr, 1, v)` (R12): writes to ROM and to `none` cells change nothing (R58, R60), a write to a device cell
is an event. -/
def State.write8 (s : State) (addr : Word) (v : Byte) : State :=
  match kindAt s.memMap addr with
  | .ram => { s with mem := Memory.set s.mem addr.toNat v }
  | .rom => s
  | .absent => s
  | .device => { s with events := .write addr v :: s.events }

/-- `MemRead(addr, 2)` (R12): the byte at `addr` is the high one and is read first; the address wraps at 0xFFFF. -/
def State.read16 (s : State) (addr : Word) : Word × State :=
  let h := s.read8 addr
  let l := h.2.read8 (addr + 1#16)
  (wordOf h.1 l.1, l.2)

/-- `MemWrite(addr, 2, v)` (R12): high byte at `addr`, written first. -/
def State.write16 (s : State) (addr : Word) (v : Word) : State :=
  (s.write8 addr (hiByte v)).write8 (addr + 1#16) (loByte v)

/-! ### The stacks (00_scope.md R14; 20_memory.md R67) -/

/-- `Push8(SP, v)`: decrement, then store. -/
def State.push8 (s : State) (p : Stk) (v : Byte) : State :=
  let sp := s.get16 (stkReg p) - 1#16
  (s.set16 (stkReg p) sp).write8 sp v

/-- `Push16(SP, v)`: low byte first, so that the high byte ends at the lower address. -/
def State.push16 (s : State) (p : Stk) (v : Word) : State :=
  (s.push8 p (loByte v)).push8 p (hiByte v)

/-- `Pull8(SP)`: load, then increment. -/
def State.pull8 (s : State) (p : Stk) : Byte × State :=
  let sp := s.get16 (stkReg p)
  let t := s.read8 sp
  (t.1, t.2.set16 (stkReg p) (sp + 1#16))

/-- `Pull16(SP)`: high byte first. -/
def State.pull16 (s : State) (p : Stk) : Word × State :=
  let h := s.pull8 p
  let l := h.2.pull8 p
  (wordOf h.1 l.1, l.2)

/-- Pull a byte into a register (47_stack.md R343). -/
def State.pullTo8 (s : State) (p : Stk) (r : Reg8) : State :=
  let t := s.pull8 p
  t.2.set8 r t.1

/-- Pull a 16-bit item into a register, high byte first (R343). -/
def State.pullTo16 (s : State) (p : Stk) (r : Reg16) : State :=
  let t := s.pull16 p
  t.2.set16 r t.1

/-- `PushAll(pcv)` with the program counter value in `pc` (48_interrupt_and_status.md R351): the entire frame of
60_exceptions.md R396. -/
def State.pushAll (s : State) : State :=
  let s := s.push16 .s s.pc
  let s := s.push16 .s s.u
  let s := s.push16 .s s.y
  let s := s.push16 .s s.x
  let s := s.push8 .s s.dp
  let s := s.push8 .s s.b
  let s := s.push8 .s s.a
  s.push8 .s s.cc.toByte

/-! ### Events: taking one, and the return (60_exceptions.md) -/

/-- The events that stack a frame and go through a vector (R381). RESET stacks nothing and is `resetEvent`. -/
inductive Event where
  | swi
  | swi2
  | swi3
  | nmi
  | firq
  | irq
  deriving DecidableEq, Repr

/-- The address of the event's vector (R381; 20_memory.md R59). -/
def eventVector : Event → Word
  | .swi3 => 0xFFF2#16
  | .swi2 => 0xFFF4#16
  | .firq => 0xFFF6#16
  | .irq => 0xFFF8#16
  | .swi => 0xFFFA#16
  | .nmi => 0xFFFC#16

/-- Whether the event stacks the entire frame, with E = 1, or the short one, with E = 0 (R381). -/
def eventEntire : Event → Bool
  | .firq => false
  | .swi => true
  | .swi2 => true
  | .swi3 => true
  | .nmi => true
  | .irq => true

/-- The mask bits the event sets after stacking (R381). -/
def eventMasks (ev : Event) (cc : CC) : CC :=
  match ev with
  | .swi => { cc with i := true, f := true }
  | .nmi => { cc with i := true, f := true }
  | .firq => { cc with i := true, f := true }
  | .irq => { cc with i := true }
  | .swi2 => cc
  | .swi3 => cc

/-- The frame of an event (R396): the entire frame with E = 1, or CC and PC with E = 0. -/
def State.stackFrame (s : State) (entire : Bool) : State :=
  if entire then { s with cc := { s.cc with e := true } }.pushAll
  else
    let s := { s with cc := { s.cc with e := false } }
    let s := s.push16 .s s.pc
    s.push8 .s s.cc.toByte

/-- PC from the vector at `vec`, high byte first (R391). -/
def State.loadVector (s : State) (vec : Word) : State :=
  let t := s.read16 vec
  { t.2 with pc := t.1 }

/-- The part of an event after stacking: the masks, the consumed NMI edge (R390), the vector. A wake from CWAI is this
part alone (R401). -/
def State.enterHandler (s : State) (ev : Event) : State :=
  { s with cc := eventMasks ev s.cc, nmiRequest := s.nmiRequest && ev != Event.nmi }.loadVector (eventVector ev)

/-- Taking an event (R388 to R391; 48_interrupt_and_status.md R352 to R354): E and the frame, then the masks, then PC
from the vector. The PC stacked is the one in `pc`. -/
def State.takeEvent (s : State) (ev : Event) : State :=
  (s.stackFrame (eventEntire ev)).enterHandler ev

/-- The return from every event but reset (48_interrupt_and_status.md R355; 60_exceptions.md R397): the E of the CC just
pulled tells which frame lies under it. -/
def State.returnFromEvent (s : State) : State :=
  let s := s.pullTo8 .s .cc
  let s :=
    if s.cc.e then
      (((((s.pullTo8 .s .a).pullTo8 .s .b).pullTo8 .s .dp).pullTo16 .s .x).pullTo16 .s .y).pullTo16 .s .u
    else s
  s.pullTo16 .s .pc

/-- RESET as an event (70_reset_and_hazards.md R420, R402). What R421 leaves unspecified after a reset and "not
preserved" is a free value (log 4). -/
def State.resetEvent (s : State) : State :=
  let k := s.draws
  { s with
    a := Config.anyByte k
    b := Config.anyByte (k + 1)
    x := Config.anyWord (k + 2)
    y := Config.anyWord (k + 3)
    u := Config.anyWord (k + 4)
    s := Config.anyWord (k + 5)
    dp := 0x00#8
    cc :=
      { e := Config.anyBit (k + 6), f := true, h := Config.anyBit (k + 7), i := true
        n := Config.anyBit (k + 8), z := Config.anyBit (k + 9), v := Config.anyBit (k + 10)
        c := Config.anyBit (k + 11) }
    run := .running
    nmiArmed := false
    nmiRequest := false
    draws := k + 12 }.loadVector 0xFFFE#16

end Sys2Proof.Machine
end

