-- ==== Sys2Proof/Machine/Operands.lean ====
section
/-! DEFINITION. The operand forms (spec/40_addressing_modes.md R110 to R128), and the shapes of operation the instruction
families share. An effective address or an operand comes with the state after it was formed, so that an instruction's
own operation sees the base register already modified (R125). PC holds `npc` here (log 12). -/

namespace Sys2Proof.Machine

/-! ### Sign and zero extension (00_scope.md R10) -/

/-- `sext_16` of a 5-bit or 8-bit pattern. -/
def sext16 {n : Nat} (v : BitVec n) : Word := v.signExtend 16

/-- `zext_16` of an 8-bit pattern. -/
def zext16 (v : Byte) : Word := v.setWidth 16

/-! ### Effective addresses -/

/-- `EA = MemRead(EA0, 2)` for an indirect form, `EA = EA0` otherwise (R124). `located` is EA0 with the state after any
auto modification. -/
def throughPointer (ind : Bool) (located : Word × State) : Word × State :=
  if ind then located.2.read16 located.1 else located

/-- The effective address of an indexed form and the state after forming it (R115 to R124). -/
def idxEa (form : Idx) (s : State) : Word × State :=
  match form with
  | .off5 r n => (s.get16 (ptrReg r) + sext16 n, s)
  | .noOff r ind => throughPointer ind (s.get16 (ptrReg r), s)
  | .off8 r ind n => throughPointer ind (s.get16 (ptrReg r) + sext16 n, s)
  | .off16 r ind n => throughPointer ind (s.get16 (ptrReg r) + n, s)
  | .accA r ind => throughPointer ind (s.get16 (ptrReg r) + sext16 s.a, s)
  | .accB r ind => throughPointer ind (s.get16 (ptrReg r) + sext16 s.b, s)
  | .accD r ind => throughPointer ind (s.get16 (ptrReg r) + s.get16 .d, s)
  | .inc1 r => (s.get16 (ptrReg r), s.set16 (ptrReg r) (s.get16 (ptrReg r) + 1#16))
  | .inc2 r ind =>
    throughPointer ind (s.get16 (ptrReg r), s.set16 (ptrReg r) (s.get16 (ptrReg r) + 2#16))
  | .dec1 r => (s.get16 (ptrReg r) - 1#16, s.set16 (ptrReg r) (s.get16 (ptrReg r) - 1#16))
  | .dec2 r ind =>
    throughPointer ind (s.get16 (ptrReg r) - 2#16, s.set16 (ptrReg r) (s.get16 (ptrReg r) - 2#16))
  | .pcr8 ind n => throughPointer ind (s.pc + sext16 n, s)
  | .pcr16 ind n => throughPointer ind (s.pc + n, s)
  | .extInd addr => throughPointer true (addr, s)

/-- The effective address of a memory operand (R111, R112, R114) and the state after forming it. -/
def memEa (m : MemOp) (s : State) : Word × State :=
  match m with
  | .dir adr8 => (wordOf s.dp adr8, s)
  | .ext adr16 => (adr16, s)
  | .idx form => idxEa form s

/-! ### Operands -/

/-- An 8-bit operand (R110, R113) and the state after it was read. -/
def readSrc8 (src : Src8) (s : State) : Byte × State :=
  match src with
  | .imm data => (data, s)
  | .mem m => (memEa m s).2.read8 (memEa m s).1

/-- A 16-bit operand (R110, R113) and the state after it was read. -/
def readSrc16 (src : Src16) (s : State) : Word × State :=
  match src with
  | .imm data => (data, s)
  | .mem m => (memEa m s).2.read16 (memEa m s).1

/-! ### Shapes of operation -/

/-- Load an 8-bit register: value, N, Z, V cleared (41_load_store.md R141). -/
def load8 (r : Reg8) (src : Src8) (s : State) : State :=
  let m := readSrc8 src s
  { m.2.set8 r m.1 with cc := m.2.cc.nzv0 m.1 }

/-- Load a 16-bit register (R141). -/
def load16 (r : Reg16) (src : Src16) (s : State) : State :=
  let m := readSrc16 src s
  { m.2.set16 r m.1 with cc := m.2.cc.nzv0 m.1 }

/-- Store an 8-bit register at EA; the register is read after EA is formed (R125, R141). -/
def store8 (r : Reg8) (dst : MemOp) (s : State) : State :=
  let ea := memEa dst s
  let v := ea.2.get8 r
  { ea.2.write8 ea.1 v with cc := ea.2.cc.nzv0 v }

/-- Store a 16-bit register at EA (R125, R141). -/
def store16 (r : Reg16) (dst : MemOp) (s : State) : State :=
  let ea := memEa dst s
  let v := ea.2.get16 r
  { ea.2.write16 ea.1 v with cc := ea.2.cc.nzv0 v }

/-- `r <- f(r, m)` with the flags of `f`, 8 bits; the register is read after the operand (42 R197). -/
def alu8 (f : Byte → Byte → CC → Byte × CC) (r : Reg8) (src : Src8) (s : State) : State :=
  let m := readSrc8 src s
  let o := f (m.2.get8 r) m.1 m.2.cc
  { m.2.set8 r o.1 with cc := o.2 }

/-- `alu8` of an operation that leaves a free bit in H (R172, log 9): one draw. -/
def alu8Any (f : Bool → Byte → Byte → CC → Byte × CC) (r : Reg8) (src : Src8) (s : State) : State :=
  let m := readSrc8 src s
  let o := f (Config.anyBit m.2.draws) (m.2.get8 r) m.1 m.2.cc
  { m.2.set8 r o.1 with cc := o.2, draws := m.2.draws + 1 }

/-- The flags of `f(r, m)` alone, nothing written (BITA, BITB). -/
def test8 (f : Byte → Byte → CC → Byte × CC) (r : Reg8) (src : Src8) (s : State) : State :=
  let m := readSrc8 src s
  { m.2 with cc := (f (m.2.get8 r) m.1 m.2.cc).2 }

/-- `test8` of an operation that leaves a free bit in H (CMPA, CMPB; R172, R183). -/
def test8Any (f : Bool → Byte → Byte → CC → Byte × CC) (r : Reg8) (src : Src8) (s : State) : State :=
  let m := readSrc8 src s
  { m.2 with cc := (f (Config.anyBit m.2.draws) (m.2.get8 r) m.1 m.2.cc).2, draws := m.2.draws + 1 }

/-- `r <- f(r, m)` with the flags of `f`, 16 bits (R197). -/
def alu16 (f : Word → Word → CC → Word × CC) (r : Reg16) (src : Src16) (s : State) : State :=
  let m := readSrc16 src s
  let o := f (m.2.get16 r) m.1 m.2.cc
  { m.2.set16 r o.1 with cc := o.2 }

/-- The flags of `f(r, m)` alone, 16 bits (R183). -/
def test16 (f : Word → Word → CC → Word × CC) (r : Reg16) (src : Src16) (s : State) : State :=
  let m := readSrc16 src s
  { m.2 with cc := (f (m.2.get16 r) m.1 m.2.cc).2 }

/-- Read-modify-write of the byte at EA: one read, then one write to the same address (43 R211). -/
def rmw8 (f : Byte → CC → Byte × CC) (dst : MemOp) (s : State) : State :=
  let ea := memEa dst s
  let v := ea.2.read8 ea.1
  let o := f v.1 v.2.cc
  { v.2 with cc := o.2 }.write8 ea.1 o.1

/-- `rmw8` of an operation that leaves a free bit in H (R213): the draw comes after the read. -/
def rmw8Any (f : Bool → Byte → CC → Byte × CC) (dst : MemOp) (s : State) : State :=
  let ea := memEa dst s
  let v := ea.2.read8 ea.1
  let o := f (Config.anyBit v.2.draws) v.1 v.2.cc
  { v.2 with cc := o.2, draws := v.2.draws + 1 }.write8 ea.1 o.1

/-- `r <- f(r)` on an accumulator (43 R211). -/
def acc8 (f : Byte → CC → Byte × CC) (r : Reg8) (s : State) : State :=
  let o := f (s.get8 r) s.cc
  { s.set8 r o.1 with cc := o.2 }

/-- `acc8` of an operation with one free bit in its flags (R213; DAA, R250): one draw. -/
def acc8Any (f : Bool → Byte → CC → Byte × CC) (r : Reg8) (s : State) : State :=
  let o := f (Config.anyBit s.draws) (s.get8 r) s.cc
  { s.set8 r o.1 with cc := o.2, draws := s.draws + 1 }

/-- N, Z from the byte read, V cleared, nothing written (TST; R213, R247). -/
def tstMem (dst : MemOp) (s : State) : State :=
  let v := (memEa dst s).2.read8 (memEa dst s).1
  { v.2 with cc := v.2.cc.nzv0 v.1 }

/-- The read that CLR makes before it writes, if `clr_reads` says so (20_memory.md R57; log 11). A RAM or ROM read has no
side effect (R58), so there is nothing to ask the parameter there. -/
def clrRead (addr : Word) (s : State) : State :=
  match kindAt s.memMap addr with
  | .ram => s
  | .rom => s
  | .device => if Config.clrReads then (s.read8 addr).2 else s
  | .absent => if Config.clrReads then (s.read8 addr).2 else s

/-- `PC <- npc + disp` (40_addressing_modes.md R128). -/
def branchTo (disp : Word) (s : State) : State := { s with pc := s.pc + disp }

/-- A branch on condition: taken, or on to `npc` (45_branch_on_condition.md R280). -/
def branchIf (k : Cond) (disp : Word) (s : State) : State :=
  if condHolds k s.cc then branchTo disp s else s

/-- Push `npc` on S and go to `target` (44_jump_call_return.md R266 to R268, R272). -/
def callTo (target : Word) (s : State) : State := { s.push16 .s s.pc with pc := target }

end Sys2Proof.Machine
end

