-- ==== Sys2Proof/Machine/Arith.lean ====
section
/-! DEFINITION. Accumulator and register operations with an operand (spec/42_accumulator_memory_operate.md R170 to R200). -/

namespace Sys2Proof.Machine

/-- ADCA (R173). -/
def execAdca (src : Src8) (s : State) : Result :=
  .next (alu8 opAdc8 .a src s)

/-- ADCB (R174). -/
def execAdcb (src : Src8) (s : State) : Result :=
  .next (alu8 opAdc8 .b src s)

/-- ADDA (R175). -/
def execAdda (src : Src8) (s : State) : Result :=
  .next (alu8 opAdd8 .a src s)

/-- ADDB (R176). -/
def execAddb (src : Src8) (s : State) : Result :=
  .next (alu8 opAdd8 .b src s)

/-- ADDD (R177). -/
def execAddd (src : Src16) (s : State) : Result :=
  .next (alu16 opAdd16 .d src s)

/-- SUBA (R178); H takes a free bit (log 9). -/
def execSuba (src : Src8) (s : State) : Result :=
  .next (alu8Any opSub8 .a src s)

/-- SUBB (R179); H takes a free bit (log 9). -/
def execSubb (src : Src8) (s : State) : Result :=
  .next (alu8Any opSub8 .b src s)

/-- SBCA (R180); H takes a free bit (log 9). -/
def execSbca (src : Src8) (s : State) : Result :=
  .next (alu8Any opSbc8 .a src s)

/-- SBCB (R181); H takes a free bit (log 9). -/
def execSbcb (src : Src8) (s : State) : Result :=
  .next (alu8Any opSbc8 .b src s)

/-- SUBD (R182). -/
def execSubd (src : Src16) (s : State) : Result :=
  .next (alu16 opSub16 .d src s)

/-- CMPA (R184): the register keeps its value; H takes a free bit (log 9). -/
def execCmpa (src : Src8) (s : State) : Result :=
  .next (test8Any opSub8 .a src s)

/-- CMPB (R185): the register keeps its value; H takes a free bit (log 9). -/
def execCmpb (src : Src8) (s : State) : Result :=
  .next (test8Any opSub8 .b src s)

/-- CMPD (R186): the register keeps its value. -/
def execCmpd (src : Src16) (s : State) : Result :=
  .next (test16 opSub16 .d src s)

/-- CMPS (R187): the register keeps its value. -/
def execCmps (src : Src16) (s : State) : Result :=
  .next (test16 opSub16 .s src s)

/-- CMPU (R188): the register keeps its value. -/
def execCmpu (src : Src16) (s : State) : Result :=
  .next (test16 opSub16 .u src s)

/-- CMPX (R189): the register keeps its value. -/
def execCmpx (src : Src16) (s : State) : Result :=
  .next (test16 opSub16 .x src s)

/-- CMPY (R190): the register keeps its value. -/
def execCmpy (src : Src16) (s : State) : Result :=
  .next (test16 opSub16 .y src s)

/-- ANDA (R191). -/
def execAnda (src : Src8) (s : State) : Result :=
  .next (alu8 opAnd8 .a src s)

/-- ANDB (R192). -/
def execAndb (src : Src8) (s : State) : Result :=
  .next (alu8 opAnd8 .b src s)

/-- BITA (R193): the register keeps its value. -/
def execBita (src : Src8) (s : State) : Result :=
  .next (test8 opAnd8 .a src s)

/-- BITB (R194): the register keeps its value. -/
def execBitb (src : Src8) (s : State) : Result :=
  .next (test8 opAnd8 .b src s)

/-- EORA (R195). -/
def execEora (src : Src8) (s : State) : Result :=
  .next (alu8 opEor8 .a src s)

/-- EORB (R196). -/
def execEorb (src : Src8) (s : State) : Result :=
  .next (alu8 opEor8 .b src s)

/-- ORA (R198). -/
def execOra (src : Src8) (s : State) : Result :=
  .next (alu8 opOr8 .a src s)

/-- ORB (R199). -/
def execOrb (src : Src8) (s : State) : Result :=
  .next (alu8 opOr8 .b src s)

end Sys2Proof.Machine
end

