-- ==== Sys2Proof/Machine/Branch.lean ====
section
/-! DEFINITION. Branches on condition, short and long (spec/45_branch_on_condition.md R280 to R315). -/

namespace Sys2Proof.Machine

/-- BCC (R283). -/
def execBcc (disp : Byte) (s : State) : Result :=
  .next (branchIf .cc (sext16 disp) s)

/-- BCS (R284). -/
def execBcs (disp : Byte) (s : State) : Result :=
  .next (branchIf .cs (sext16 disp) s)

/-- BEQ (R285). -/
def execBeq (disp : Byte) (s : State) : Result :=
  .next (branchIf .eq (sext16 disp) s)

/-- BGE (R286). -/
def execBge (disp : Byte) (s : State) : Result :=
  .next (branchIf .ge (sext16 disp) s)

/-- BGT (R287). -/
def execBgt (disp : Byte) (s : State) : Result :=
  .next (branchIf .gt (sext16 disp) s)

/-- BHI (R288). -/
def execBhi (disp : Byte) (s : State) : Result :=
  .next (branchIf .hi (sext16 disp) s)

/-- BHS (R289). -/
def execBhs (disp : Byte) (s : State) : Result :=
  .next (branchIf .cc (sext16 disp) s)

/-- BLE (R290). -/
def execBle (disp : Byte) (s : State) : Result :=
  .next (branchIf .le (sext16 disp) s)

/-- BLO (R291). -/
def execBlo (disp : Byte) (s : State) : Result :=
  .next (branchIf .cs (sext16 disp) s)

/-- BLS (R292). -/
def execBls (disp : Byte) (s : State) : Result :=
  .next (branchIf .ls (sext16 disp) s)

/-- BLT (R293). -/
def execBlt (disp : Byte) (s : State) : Result :=
  .next (branchIf .lt (sext16 disp) s)

/-- BMI (R294). -/
def execBmi (disp : Byte) (s : State) : Result :=
  .next (branchIf .mi (sext16 disp) s)

/-- BNE (R295). -/
def execBne (disp : Byte) (s : State) : Result :=
  .next (branchIf .ne (sext16 disp) s)

/-- BPL (R296). -/
def execBpl (disp : Byte) (s : State) : Result :=
  .next (branchIf .pl (sext16 disp) s)

/-- BVC (R297). -/
def execBvc (disp : Byte) (s : State) : Result :=
  .next (branchIf .vc (sext16 disp) s)

/-- BVS (R298). -/
def execBvs (disp : Byte) (s : State) : Result :=
  .next (branchIf .vs (sext16 disp) s)

/-- LBCC (R299). -/
def execLbcc (disp : Word) (s : State) : Result :=
  .next (branchIf .cc disp s)

/-- LBCS (R300). -/
def execLbcs (disp : Word) (s : State) : Result :=
  .next (branchIf .cs disp s)

/-- LBEQ (R301). -/
def execLbeq (disp : Word) (s : State) : Result :=
  .next (branchIf .eq disp s)

/-- LBGE (R302). -/
def execLbge (disp : Word) (s : State) : Result :=
  .next (branchIf .ge disp s)

/-- LBGT (R303). -/
def execLbgt (disp : Word) (s : State) : Result :=
  .next (branchIf .gt disp s)

/-- LBHI (R304). -/
def execLbhi (disp : Word) (s : State) : Result :=
  .next (branchIf .hi disp s)

/-- LBHS (R305). -/
def execLbhs (disp : Word) (s : State) : Result :=
  .next (branchIf .cc disp s)

/-- LBLE (R306). -/
def execLble (disp : Word) (s : State) : Result :=
  .next (branchIf .le disp s)

/-- LBLO (R307). -/
def execLblo (disp : Word) (s : State) : Result :=
  .next (branchIf .cs disp s)

/-- LBLS (R308). -/
def execLbls (disp : Word) (s : State) : Result :=
  .next (branchIf .ls disp s)

/-- LBLT (R309). -/
def execLblt (disp : Word) (s : State) : Result :=
  .next (branchIf .lt disp s)

/-- LBMI (R310). -/
def execLbmi (disp : Word) (s : State) : Result :=
  .next (branchIf .mi disp s)

/-- LBNE (R311). -/
def execLbne (disp : Word) (s : State) : Result :=
  .next (branchIf .ne disp s)

/-- LBPL (R312). -/
def execLbpl (disp : Word) (s : State) : Result :=
  .next (branchIf .pl disp s)

/-- LBVC (R313). -/
def execLbvc (disp : Word) (s : State) : Result :=
  .next (branchIf .vc disp s)

/-- LBVS (R314). -/
def execLbvs (disp : Word) (s : State) : Result :=
  .next (branchIf .vs disp s)

end Sys2Proof.Machine
end

