-- ==== Sys2Proof/Machine/IntStatus.lean ====
section
/-! DEFINITION. Interrupt and status instructions (spec/48_interrupt_and_status.md R350 to R360). -/

namespace Sys2Proof.Machine

/-- SWI (R352): not maskable. -/
def execSwi (s : State) : Result :=
  .next (s.takeEvent .swi)

/-- SWI2 (R353): I and F keep their values. -/
def execSwi2 (s : State) : Result :=
  .next (s.takeEvent .swi2)

/-- SWI3 (R354): I and F keep their values. -/
def execSwi3 (s : State) : Result :=
  .next (s.takeEvent .swi3)

/-- RTI (R355). -/
def execRti (s : State) : Result :=
  .next s.returnFromEvent

/-- CWAI (R356): CC is ANDed, E is set, the entire frame is stacked with PC = `npc`, and the wait begins. What ends it is
60_exceptions.md R401 (Interrupts.lean). -/
def execCwai (data : Byte) (s : State) : Result :=
  let masked := { s with cc := CC.ofByte (s.cc.toByte &&& data) }
  .next { masked.stackFrame true with run := .cwaiWait }

/-- SYNC (R357): nothing is stacked. What ends the wait is 60_exceptions.md R400 (Interrupts.lean). -/
def execSync (s : State) : Result :=
  .next { s with run := .syncWait }

/-- ANDCC (R358): all eight bits are reachable. -/
def execAndcc (data : Byte) (s : State) : Result :=
  .next { s with cc := CC.ofByte (s.cc.toByte &&& data) }

/-- ORCC (R359). -/
def execOrcc (data : Byte) (s : State) : Result :=
  .next { s with cc := CC.ofByte (s.cc.toByte ||| data) }

end Sys2Proof.Machine
end

