-- ==== Sys2Proof/Machine/Jump.lean ====
section
/-! DEFINITION. Jumps, calls and returns (spec/44_jump_call_return.md R260 to R274). PC holds `npc` when a meaning begins (log 12). -/

namespace Sys2Proof.Machine

/-- BRA (R262). -/
def execBra (disp : Byte) (s : State) : Result :=
  .next (branchTo (sext16 disp) s)

/-- LBRA (R263). -/
def execLbra (disp : Word) (s : State) : Result :=
  .next (branchTo disp s)

/-- JMP (R264): `PC <- EA`, no access at EA. -/
def execJmp (dst : MemOp) (s : State) : Result :=
  let ea := memEa dst s
  .next { ea.2 with pc := ea.1 }

/-- BSR (R266). -/
def execBsr (disp : Byte) (s : State) : Result :=
  .next (callTo (s.pc + sext16 disp) s)

/-- LBSR (R267). -/
def execLbsr (disp : Word) (s : State) : Result :=
  .next (callTo (s.pc + disp) s)

/-- JSR (R268): EA first, then the push. -/
def execJsr (dst : MemOp) (s : State) : Result :=
  let ea := memEa dst s
  .next (callTo ea.1 ea.2)

/-- RTS (R270). -/
def execRts (s : State) : Result :=
  .next (s.pullTo16 .s .pc)

end Sys2Proof.Machine
end

