-- ==== Sys2Proof/Machine/LoadStore.lean ====
section
/-! DEFINITION. Loads and stores (spec/41_load_store.md R140 to R156). -/

namespace Sys2Proof.Machine

/-- LDA (R142). -/
def execLda (src : Src8) (s : State) : Result :=
  .next (load8 .a src s)

/-- LDB (R143). -/
def execLdb (src : Src8) (s : State) : Result :=
  .next (load8 .b src s)

/-- LDD (R144). -/
def execLdd (src : Src16) (s : State) : Result :=
  .next (load16 .d src s)

/-- LDX (R145). -/
def execLdx (src : Src16) (s : State) : Result :=
  .next (load16 .x src s)

/-- LDY (R146). -/
def execLdy (src : Src16) (s : State) : Result :=
  .next (load16 .y src s)

/-- LDU (R147). -/
def execLdu (src : Src16) (s : State) : Result :=
  .next (load16 .u src s)

/-- LDS (R148): loading S arms NMI (60_exceptions.md R392). -/
def execLds (src : Src16) (s : State) : Result :=
  .next ((load16 .s src s).armNmi true)

/-- STA (R149). -/
def execSta (dst : MemOp) (s : State) : Result :=
  .next (store8 .a dst s)

/-- STB (R150). -/
def execStb (dst : MemOp) (s : State) : Result :=
  .next (store8 .b dst s)

/-- STD (R151). -/
def execStd (dst : MemOp) (s : State) : Result :=
  .next (store16 .d dst s)

/-- STX (R152). -/
def execStx (dst : MemOp) (s : State) : Result :=
  .next (store16 .x dst s)

/-- STY (R153). -/
def execSty (dst : MemOp) (s : State) : Result :=
  .next (store16 .y dst s)

/-- STU (R154). -/
def execStu (dst : MemOp) (s : State) : Result :=
  .next (store16 .u dst s)

/-- STS (R155). -/
def execSts (dst : MemOp) (s : State) : Result :=
  .next (store16 .s dst s)

end Sys2Proof.Machine
end

