-- ==== Sys2Proof/Machine/NoOp.lean ====
section
/-! DEFINITION. No operations (spec/49_no_operations.md R370 to R374). -/

namespace Sys2Proof.Machine

/-- NOP (R371): only PC changes, and it is at `npc` already. -/
def execNop (s : State) : Result :=
  .next s

/-- BRN (R372): the displacement is fetched and ignored. -/
def execBrn (_disp : Byte) (s : State) : Result :=
  .next s

/-- LBRN (R373): the displacement is fetched and ignored. -/
def execLbrn (_disp : Word) (s : State) : Result :=
  .next s

end Sys2Proof.Machine
end

