-- ==== Sys2Proof/Machine/RegMove.lean ====
section
/-! DEFINITION. EXG, TFR, ABX, MUL, SEX and load effective address (spec/46_register_move_and_operate.md R320 to R333). -/

namespace Sys2Proof.Machine

/-- EXG (R323): both reads before both writes. A pair of unlike width is refused (R322). Whether an exchange with S arms
NMI is the parameter `nmi_arm_rule` (60_exceptions.md R392, log 10). -/
def execExg (r1 r2 : Reg) (s : State) : Result :=
  match r1, r2 with
  | .wide p, .wide q =>
    .next (((s.set16 p (s.get16 q)).set16 q (s.get16 p)).armNmi
      ((p == Reg16.s || q == Reg16.s) && Config.nmiArmRule.exg))
  | .narrow p, .narrow q => .next ((s.set8 p (s.get8 q)).set8 q (s.get8 p))
  | .wide _, .narrow _ => .refused .undefinedRegpair
  | .narrow _, .wide _ => .refused .undefinedRegpair

/-- TFR (R324), `r1` the source, `r2` the destination. A pair of unlike width is refused (R322). Whether a transfer to S
arms NMI is the parameter `nmi_arm_rule` (R392, log 10). -/
def execTfr (r1 r2 : Reg) (s : State) : Result :=
  match r1, r2 with
  | .wide p, .wide q =>
    .next ((s.set16 q (s.get16 p)).armNmi (q == Reg16.s && Config.nmiArmRule.tfr))
  | .narrow p, .narrow q => .next (s.set8 q (s.get8 p))
  | .wide _, .narrow _ => .refused .undefinedRegpair
  | .narrow _, .wide _ => .refused .undefinedRegpair

/-- ABX (R325): B is unsigned, no flag changes. -/
def execAbx (s : State) : Result :=
  .next { s with x := s.x + zext16 s.b }

/-- MUL (R326). -/
def execMul (s : State) : Result :=
  let p := BitVec.ofNat 16 (s.a.toNat * s.b.toNat)
  .next { s.set16 .d p with cc := { s.cc with z := p == 0, c := p.getLsbD 7 } }

/-- SEX (R327). -/
def execSex (s : State) : Result :=
  .next { s with
    a := if s.b.getLsbD 7 then 0xFF#8 else 0x00#8
    cc := { s.cc with n := s.b.getLsbD 7, z := s.b == 0 } }

/-- LEAX (R329, R328): Z alone is written. -/
def execLeax (form : Idx) (s : State) : Result :=
  let ea := idxEa form s
  .next { ea.2 with x := ea.1, cc := { ea.2.cc with z := ea.1 == 0 } }

/-- LEAY (R330, R328): Z alone is written. -/
def execLeay (form : Idx) (s : State) : Result :=
  let ea := idxEa form s
  .next { ea.2 with y := ea.1, cc := { ea.2.cc with z := ea.1 == 0 } }

/-- LEAS (R331, R328): no flag. Whether it arms NMI is the parameter `nmi_arm_rule` (60_exceptions.md R392, log 10). -/
def execLeas (form : Idx) (s : State) : Result :=
  let ea := idxEa form s
  .next ({ ea.2 with s := ea.1 }.armNmi Config.nmiArmRule.leas)

/-- LEAU (R332, R328): no flag. -/
def execLeau (form : Idx) (s : State) : Result :=
  let ea := idxEa form s
  .next { ea.2 with u := ea.1 }

end Sys2Proof.Machine
end

