-- ==== Sys2Proof/Machine/Stack.lean ====
section
/-! DEFINITION. Push and pull (spec/47_stack.md R340 to R346). -/

namespace Sys2Proof.Machine

/-- Push the registers of a post byte, tested from b7 down to b0 (R341, R342): bit 6 names the other stack pointer. -/
def pushList (p : Stk) (list : Byte) (s : State) : State :=
  let s := if list.getLsbD 7 then s.push16 p s.pc else s
  let s := if list.getLsbD 6 then s.push16 p (s.get16 (otherStk p)) else s
  let s := if list.getLsbD 5 then s.push16 p s.y else s
  let s := if list.getLsbD 4 then s.push16 p s.x else s
  let s := if list.getLsbD 3 then s.push8 p s.dp else s
  let s := if list.getLsbD 2 then s.push8 p s.b else s
  let s := if list.getLsbD 1 then s.push8 p s.a else s
  if list.getLsbD 0 then s.push8 p s.cc.toByte else s

/-- Pull the registers of a post byte, tested from b0 up to b7 (R343, R344). -/
def pullList (p : Stk) (list : Byte) (s : State) : State :=
  let s := if list.getLsbD 0 then s.pullTo8 p .cc else s
  let s := if list.getLsbD 1 then s.pullTo8 p .a else s
  let s := if list.getLsbD 2 then s.pullTo8 p .b else s
  let s := if list.getLsbD 3 then s.pullTo8 p .dp else s
  let s := if list.getLsbD 4 then s.pullTo16 p .x else s
  let s := if list.getLsbD 5 then s.pullTo16 p .y else s
  let s := if list.getLsbD 6 then s.pullTo16 p (otherStk p) else s
  if list.getLsbD 7 then s.pullTo16 p .pc else s

/-- PSHS (R341). -/
def execPshs (list : Byte) (s : State) : Result :=
  .next (pushList .s list s)

/-- PSHU (R342). -/
def execPshu (list : Byte) (s : State) : Result :=
  .next (pushList .u list s)

/-- PULS (R343): S moves but is not loaded, NMI is not armed (60_exceptions.md R392). -/
def execPuls (list : Byte) (s : State) : Result :=
  .next (pullList .s list s)

/-- PULU (R344). Whether pulling S arms NMI is the parameter `nmi_arm_rule` (60_exceptions.md R392, log 10). -/
def execPulu (list : Byte) (s : State) : Result :=
  .next ((pullList .u list s).armNmi (list.getLsbD 6 && Config.nmiArmRule.pulu))

end Sys2Proof.Machine
end

