-- ==== Sys2Proof/Machine/Unary.lean ====
section
/-! DEFINITION. One-operand operations on memory and on accumulators, and DAA (spec/43_memory_and_register_operate.md R210 to R251). -/

namespace Sys2Proof.Machine

/-- ASL on memory (R214); H takes a free bit (log 9). -/
def execAsl (dst : MemOp) (s : State) : Result :=
  .next (rmw8Any opAsl dst s)

/-- ASLA (R215); H takes a free bit (log 9). -/
def execAsla (s : State) : Result :=
  .next (acc8Any opAsl .a s)

/-- ASLB (R216); H takes a free bit (log 9). -/
def execAslb (s : State) : Result :=
  .next (acc8Any opAsl .b s)

/-- LSL on memory (R217), a second name for ASL; H takes a free bit (log 9). -/
def execLsl (dst : MemOp) (s : State) : Result :=
  .next (rmw8Any opAsl dst s)

/-- LSLA (R218), a second name for ASLA; H takes a free bit (log 9). -/
def execLsla (s : State) : Result :=
  .next (acc8Any opAsl .a s)

/-- LSLB (R219), a second name for ASLB; H takes a free bit (log 9). -/
def execLslb (s : State) : Result :=
  .next (acc8Any opAsl .b s)

/-- ASR on memory (R220); H takes a free bit (log 9). -/
def execAsr (dst : MemOp) (s : State) : Result :=
  .next (rmw8Any opAsr dst s)

/-- ASRA (R221); H takes a free bit (log 9). -/
def execAsra (s : State) : Result :=
  .next (acc8Any opAsr .a s)

/-- ASRB (R222); H takes a free bit (log 9). -/
def execAsrb (s : State) : Result :=
  .next (acc8Any opAsr .b s)

/-- LSR on memory (R223). -/
def execLsr (dst : MemOp) (s : State) : Result :=
  .next (rmw8 opLsr dst s)

/-- LSRA (R224). -/
def execLsra (s : State) : Result :=
  .next (acc8 opLsr .a s)

/-- LSRB (R225). -/
def execLsrb (s : State) : Result :=
  .next (acc8 opLsr .b s)

/-- ROL on memory (R226). -/
def execRol (dst : MemOp) (s : State) : Result :=
  .next (rmw8 opRol dst s)

/-- ROLA (R227). -/
def execRola (s : State) : Result :=
  .next (acc8 opRol .a s)

/-- ROLB (R228). -/
def execRolb (s : State) : Result :=
  .next (acc8 opRol .b s)

/-- ROR on memory (R229). -/
def execRor (dst : MemOp) (s : State) : Result :=
  .next (rmw8 opRor dst s)

/-- RORA (R230). -/
def execRora (s : State) : Result :=
  .next (acc8 opRor .a s)

/-- RORB (R231). -/
def execRorb (s : State) : Result :=
  .next (acc8 opRor .b s)

/-- NEG on memory (R232); H takes a free bit (log 9). -/
def execNeg (dst : MemOp) (s : State) : Result :=
  .next (rmw8Any opNeg dst s)

/-- NEGA (R233); H takes a free bit (log 9). -/
def execNega (s : State) : Result :=
  .next (acc8Any opNeg .a s)

/-- NEGB (R234); H takes a free bit (log 9). -/
def execNegb (s : State) : Result :=
  .next (acc8Any opNeg .b s)

/-- COM on memory (R235). -/
def execCom (dst : MemOp) (s : State) : Result :=
  .next (rmw8 opCom dst s)

/-- COMA (R236). -/
def execComa (s : State) : Result :=
  .next (acc8 opCom .a s)

/-- COMB (R237). -/
def execComb (s : State) : Result :=
  .next (acc8 opCom .b s)

/-- CLR on memory (R238): a write, preceded by a read if `clr_reads` says so (R57, log 11). -/
def execClr (dst : MemOp) (s : State) : Result :=
  let ea := memEa dst s
  let t := clrRead ea.1 ea.2
  let o := opClr 0x00#8 t.cc
  .next ({ t with cc := o.2 }.write8 ea.1 o.1)

/-- CLRA (R239). -/
def execClra (s : State) : Result :=
  .next (acc8 opClr .a s)

/-- CLRB (R240). -/
def execClrb (s : State) : Result :=
  .next (acc8 opClr .b s)

/-- DEC on memory (R241). -/
def execDec (dst : MemOp) (s : State) : Result :=
  .next (rmw8 opDec dst s)

/-- DECA (R242). -/
def execDeca (s : State) : Result :=
  .next (acc8 opDec .a s)

/-- DECB (R243). -/
def execDecb (s : State) : Result :=
  .next (acc8 opDec .b s)

/-- INC on memory (R244). -/
def execInc (dst : MemOp) (s : State) : Result :=
  .next (rmw8 opInc dst s)

/-- INCA (R245). -/
def execInca (s : State) : Result :=
  .next (acc8 opInc .a s)

/-- INCB (R246). -/
def execIncb (s : State) : Result :=
  .next (acc8 opInc .b s)

/-- TST on memory (R247): one read, no write. -/
def execTst (dst : MemOp) (s : State) : Result :=
  .next (tstMem dst s)

/-- TSTA (R248): the accumulator keeps its value. -/
def execTsta (s : State) : Result :=
  .next { s with cc := s.cc.nzv0 (s.get8 .a) }

/-- TSTB (R249): the accumulator keeps its value. -/
def execTstb (s : State) : Result :=
  .next { s with cc := s.cc.nzv0 (s.get8 .b) }

/-- DAA (R250); V takes a free bit (log 9). -/
def execDaa (s : State) : Result :=
  .next (acc8Any opDaa .a s)

end Sys2Proof.Machine
end

