-- ==== Sys2Proof/Machine/Dispatch.lean ====
section
/-! DEFINITION. One arm per instruction, each one direct call of its meaning. `exec i s` runs `i` in the state whose PC has
already moved to `npc` (00_scope.md R13; log 12). -/

namespace Sys2Proof.Machine

def exec (i : Instr) (s : State) : Host.Outcome State Fault Refusal :=
  match i with
  -- 41_load_store.md: load and store
  | .lda src => Sys2Proof.Machine.execLda src s
  | .ldb src => Sys2Proof.Machine.execLdb src s
  | .ldd src => Sys2Proof.Machine.execLdd src s
  | .ldx src => Sys2Proof.Machine.execLdx src s
  | .ldy src => Sys2Proof.Machine.execLdy src s
  | .ldu src => Sys2Proof.Machine.execLdu src s
  | .lds src => Sys2Proof.Machine.execLds src s
  | .sta dst => Sys2Proof.Machine.execSta dst s
  | .stb dst => Sys2Proof.Machine.execStb dst s
  | .std dst => Sys2Proof.Machine.execStd dst s
  | .stx dst => Sys2Proof.Machine.execStx dst s
  | .sty dst => Sys2Proof.Machine.execSty dst s
  | .stu dst => Sys2Proof.Machine.execStu dst s
  | .sts dst => Sys2Proof.Machine.execSts dst s
  -- 42_accumulator_memory_operate.md: register operate with operand
  | .adca src => Sys2Proof.Machine.execAdca src s
  | .adcb src => Sys2Proof.Machine.execAdcb src s
  | .adda src => Sys2Proof.Machine.execAdda src s
  | .addb src => Sys2Proof.Machine.execAddb src s
  | .addd src => Sys2Proof.Machine.execAddd src s
  | .suba src => Sys2Proof.Machine.execSuba src s
  | .subb src => Sys2Proof.Machine.execSubb src s
  | .sbca src => Sys2Proof.Machine.execSbca src s
  | .sbcb src => Sys2Proof.Machine.execSbcb src s
  | .subd src => Sys2Proof.Machine.execSubd src s
  | .cmpa src => Sys2Proof.Machine.execCmpa src s
  | .cmpb src => Sys2Proof.Machine.execCmpb src s
  | .cmpd src => Sys2Proof.Machine.execCmpd src s
  | .cmps src => Sys2Proof.Machine.execCmps src s
  | .cmpu src => Sys2Proof.Machine.execCmpu src s
  | .cmpx src => Sys2Proof.Machine.execCmpx src s
  | .cmpy src => Sys2Proof.Machine.execCmpy src s
  | .anda src => Sys2Proof.Machine.execAnda src s
  | .andb src => Sys2Proof.Machine.execAndb src s
  | .bita src => Sys2Proof.Machine.execBita src s
  | .bitb src => Sys2Proof.Machine.execBitb src s
  | .eora src => Sys2Proof.Machine.execEora src s
  | .eorb src => Sys2Proof.Machine.execEorb src s
  | .ora src => Sys2Proof.Machine.execOra src s
  | .orb src => Sys2Proof.Machine.execOrb src s
  -- 43_memory_and_register_operate.md: one-operand operate and DAA
  | .asl dst => Sys2Proof.Machine.execAsl dst s
  | .asla => Sys2Proof.Machine.execAsla s
  | .aslb => Sys2Proof.Machine.execAslb s
  | .lsl dst => Sys2Proof.Machine.execLsl dst s
  | .lsla => Sys2Proof.Machine.execLsla s
  | .lslb => Sys2Proof.Machine.execLslb s
  | .asr dst => Sys2Proof.Machine.execAsr dst s
  | .asra => Sys2Proof.Machine.execAsra s
  | .asrb => Sys2Proof.Machine.execAsrb s
  | .lsr dst => Sys2Proof.Machine.execLsr dst s
  | .lsra => Sys2Proof.Machine.execLsra s
  | .lsrb => Sys2Proof.Machine.execLsrb s
  | .rol dst => Sys2Proof.Machine.execRol dst s
  | .rola => Sys2Proof.Machine.execRola s
  | .rolb => Sys2Proof.Machine.execRolb s
  | .ror dst => Sys2Proof.Machine.execRor dst s
  | .rora => Sys2Proof.Machine.execRora s
  | .rorb => Sys2Proof.Machine.execRorb s
  | .neg dst => Sys2Proof.Machine.execNeg dst s
  | .nega => Sys2Proof.Machine.execNega s
  | .negb => Sys2Proof.Machine.execNegb s
  | .com dst => Sys2Proof.Machine.execCom dst s
  | .coma => Sys2Proof.Machine.execComa s
  | .comb => Sys2Proof.Machine.execComb s
  | .clr dst => Sys2Proof.Machine.execClr dst s
  | .clra => Sys2Proof.Machine.execClra s
  | .clrb => Sys2Proof.Machine.execClrb s
  | .dec dst => Sys2Proof.Machine.execDec dst s
  | .deca => Sys2Proof.Machine.execDeca s
  | .decb => Sys2Proof.Machine.execDecb s
  | .inc dst => Sys2Proof.Machine.execInc dst s
  | .inca => Sys2Proof.Machine.execInca s
  | .incb => Sys2Proof.Machine.execIncb s
  | .tst dst => Sys2Proof.Machine.execTst dst s
  | .tsta => Sys2Proof.Machine.execTsta s
  | .tstb => Sys2Proof.Machine.execTstb s
  | .daa => Sys2Proof.Machine.execDaa s
  -- 44_jump_call_return.md: jump, call, return
  | .bra disp => Sys2Proof.Machine.execBra disp s
  | .lbra disp => Sys2Proof.Machine.execLbra disp s
  | .jmp dst => Sys2Proof.Machine.execJmp dst s
  | .bsr disp => Sys2Proof.Machine.execBsr disp s
  | .lbsr disp => Sys2Proof.Machine.execLbsr disp s
  | .jsr dst => Sys2Proof.Machine.execJsr dst s
  | .rts => Sys2Proof.Machine.execRts s
  -- 45_branch_on_condition.md: short branches on condition
  | .bcc disp => Sys2Proof.Machine.execBcc disp s
  | .bcs disp => Sys2Proof.Machine.execBcs disp s
  | .beq disp => Sys2Proof.Machine.execBeq disp s
  | .bge disp => Sys2Proof.Machine.execBge disp s
  | .bgt disp => Sys2Proof.Machine.execBgt disp s
  | .bhi disp => Sys2Proof.Machine.execBhi disp s
  | .bhs disp => Sys2Proof.Machine.execBhs disp s
  | .ble disp => Sys2Proof.Machine.execBle disp s
  | .blo disp => Sys2Proof.Machine.execBlo disp s
  | .bls disp => Sys2Proof.Machine.execBls disp s
  | .blt disp => Sys2Proof.Machine.execBlt disp s
  | .bmi disp => Sys2Proof.Machine.execBmi disp s
  | .bne disp => Sys2Proof.Machine.execBne disp s
  | .bpl disp => Sys2Proof.Machine.execBpl disp s
  | .bvc disp => Sys2Proof.Machine.execBvc disp s
  | .bvs disp => Sys2Proof.Machine.execBvs disp s
  -- 45_branch_on_condition.md: long branches on condition
  | .lbcc disp => Sys2Proof.Machine.execLbcc disp s
  | .lbcs disp => Sys2Proof.Machine.execLbcs disp s
  | .lbeq disp => Sys2Proof.Machine.execLbeq disp s
  | .lbge disp => Sys2Proof.Machine.execLbge disp s
  | .lbgt disp => Sys2Proof.Machine.execLbgt disp s
  | .lbhi disp => Sys2Proof.Machine.execLbhi disp s
  | .lbhs disp => Sys2Proof.Machine.execLbhs disp s
  | .lble disp => Sys2Proof.Machine.execLble disp s
  | .lblo disp => Sys2Proof.Machine.execLblo disp s
  | .lbls disp => Sys2Proof.Machine.execLbls disp s
  | .lblt disp => Sys2Proof.Machine.execLblt disp s
  | .lbmi disp => Sys2Proof.Machine.execLbmi disp s
  | .lbne disp => Sys2Proof.Machine.execLbne disp s
  | .lbpl disp => Sys2Proof.Machine.execLbpl disp s
  | .lbvc disp => Sys2Proof.Machine.execLbvc disp s
  | .lbvs disp => Sys2Proof.Machine.execLbvs disp s
  -- 46_register_move_and_operate.md: register moves, register operate, LEA
  | .exg r1 r2 => Sys2Proof.Machine.execExg r1 r2 s
  | .tfr r1 r2 => Sys2Proof.Machine.execTfr r1 r2 s
  | .abx => Sys2Proof.Machine.execAbx s
  | .mul => Sys2Proof.Machine.execMul s
  | .sex => Sys2Proof.Machine.execSex s
  | .leax form => Sys2Proof.Machine.execLeax form s
  | .leay form => Sys2Proof.Machine.execLeay form s
  | .leas form => Sys2Proof.Machine.execLeas form s
  | .leau form => Sys2Proof.Machine.execLeau form s
  -- 47_stack.md: push and pull
  | .pshs list => Sys2Proof.Machine.execPshs list s
  | .pshu list => Sys2Proof.Machine.execPshu list s
  | .puls list => Sys2Proof.Machine.execPuls list s
  | .pulu list => Sys2Proof.Machine.execPulu list s
  -- 48_interrupt_and_status.md: interrupt and status
  | .swi => Sys2Proof.Machine.execSwi s
  | .swi2 => Sys2Proof.Machine.execSwi2 s
  | .swi3 => Sys2Proof.Machine.execSwi3 s
  | .rti => Sys2Proof.Machine.execRti s
  | .cwai data => Sys2Proof.Machine.execCwai data s
  | .sync => Sys2Proof.Machine.execSync s
  | .andcc data => Sys2Proof.Machine.execAndcc data s
  | .orcc data => Sys2Proof.Machine.execOrcc data s
  -- 49_no_operations.md: no operation
  | .nop => Sys2Proof.Machine.execNop s
  | .brn disp => Sys2Proof.Machine.execBrn disp s
  | .lbrn disp => Sys2Proof.Machine.execLbrn disp s

end Sys2Proof.Machine
end

