-- ==== Sys2Proof/Machine/Interrupts.lean ====
section
/-! DEFINITION. What happens between instructions: the inputs of the step, RESET, the wait states and the acceptance of a
hardware interrupt (spec/60_exceptions.md R385 to R403). -/

namespace Sys2Proof.Machine

/-- No input asserted. -/
def quiet : Inputs := { reset := false, firq := false, irq := false, nmiEdge := false }

/-- What `Env` presents to this step (R403); past the end of the list nothing (log 5). -/
def State.nextInputs (s : State) : Inputs := s.inputs.headD quiet

/-- `Env` is consulted once per step (R403). -/
def State.consumeInputs (s : State) : State := { s with inputs := s.inputs.tail }

/-- An NMI edge is latched while NMI is armed; an edge while disarmed is dropped (R392, R403). -/
def State.latchNmi (s : State) (inp : Inputs) : State :=
  { s with nmiRequest := s.nmiRequest || (inp.nmiEdge && s.nmiArmed) }

/-- An NMI request the machine honours: R386, R400 and R401 ask for the request and for `nmi_armed` (log 20). -/
def State.nmiPending (s : State) : Bool := s.nmiRequest && s.nmiArmed

/-- The hardware interrupt accepted with these inputs and masks, in the order NMI, FIRQ, IRQ (R386, R387). -/
def accepted (inp : Inputs) (s : State) : Option Event :=
  if s.nmiPending then some .nmi
  else if inp.firq && !s.cc.f then some .firq
  else if inp.irq && !s.cc.i then some .irq
  else none

/-- How a step goes on after the boundary. -/
inductive Boundary where
  /-- The step is over: a reset, an interrupt entry, a wake from CWAI, or a wait that goes on. -/
  | settled (t : State)
  /-- An instruction is fetched and executed in this state. -/
  | execute (t : State)
  deriving DecidableEq, Repr

/-- The acceptance test with `run = Running` (R386). -/
def boundaryRunning (inp : Inputs) (s : State) : Boundary :=
  match accepted inp s with
  | some ev => .settled (s.takeEvent ev)
  | none => .execute s

/-- In SYNC (R400): any request, masked or not, ends the wait and the acceptance test follows at once. -/
def boundarySync (inp : Inputs) (s : State) : Boundary :=
  if s.nmiPending || inp.firq || inp.irq then boundaryRunning inp { s with run := .running }
  else .settled s

/-- In CWAI (R401): only an accepted interrupt ends the wait, and nothing more is stacked. -/
def boundaryCwai (inp : Inputs) (s : State) : Boundary :=
  match accepted inp s with
  | some ev => .settled { s.enterHandler ev with run := .running }
  | none => .settled s

/-- The step up to the instruction (R403). -/
def boundary (s : State) : Boundary :=
  let inp := s.nextInputs
  let t := s.consumeInputs
  if inp.reset then .settled t.resetEvent
  else
    let t := t.latchNmi inp
    match t.run with
    | .running => boundaryRunning inp t
    | .syncWait => boundarySync inp t
    | .cwaiWait => boundaryCwai inp t

end Sys2Proof.Machine
end

