-- ==== Sys2Proof/Machine/Fetch.lean ====
section
/-! DEFINITION. Fetching an instruction (spec/20_memory.md R53, R66; 30_encoding.md R91), and placing one in memory where the
fetch will find it. -/

namespace Sys2Proof.Machine

/-- `count` byte reads from `addr` on, in ascending address order, the address wrapping at 0xFFFF (R53; 10_state.md
R37): the bytes, and the state after the reads. -/
def State.readBytes (s : State) (addr : Word) : Nat → List Byte × State
  | 0 => ([], s)
  | count + 1 =>
    let first := s.read8 addr
    let rest := first.2.readBytes (addr + 1#16) count
    (first.1 :: rest.1, rest.2)

/-- The refusal of a byte sequence that is no instruction (R382). -/
def refusalOf : DecodeError → Refusal
  | .undefinedOpcode => .undefinedOpcode
  | .undefinedPostbyte => .undefinedPostbyte
  | .undefinedRegpair => .undefinedRegpair

/-- The five bytes an instruction at PC could have (R80), as the reads of the fetch would answer them. -/
def State.window (s : State) : List Byte := (s.readBytes s.pc 5).1

/-- The state after the fetch of an instruction of `len` bytes: exactly its `len` bytes have been read, and PC is at
`npc = (pc0 + len) mod 2^16` (00_scope.md R13; log 12). -/
def State.afterFetch (s : State) (len : Nat) : State :=
  { (s.readBytes s.pc len).2 with pc := s.pc + BitVec.ofNat 16 len }

/-- The instruction at PC and the state after its fetch, or why there is none. -/
def fetch (s : State) : Except Refusal (Instr × State) :=
  match decode s.window with
  | .ok i => .ok (i, s.afterFetch (instrLength i))
  | .error e => .error (refusalOf e)

/-- Bytes placed in memory from `addr` on by a loader outside the machine: ROM takes them too (log 3). -/
def placeBytes : Memory → Word → List Byte → Memory
  | m, _, [] => m
  | m, addr, v :: rest => placeBytes (Memory.set m addr.toNat v) (addr + 1#16) rest

/-- Whether the `count` cells from `addr` on are RAM or ROM, so that a fetch reads what memory holds. -/
def readable (map : List Region) (addr : Word) : Nat → Bool
  | 0 => true
  | count + 1 =>
    (kindAt map addr == CellKind.ram || kindAt map addr == CellKind.rom) && readable map (addr + 1#16) count

/-- Regions that make the `count` cells from `addr` on RAM. -/
def ramCells (addr : Word) : Nat → List Region
  | 0 => []
  | count + 1 => { first := addr, last := addr, kind := .ram } :: ramCells (addr + 1#16) count

/-- The first input of the list made quiet, the others kept. -/
def quietFirst : List Inputs → List Inputs
  | [] => []
  | _ :: rest => quiet :: rest

/-- `bytes` placed at PC, and everything else the very next step needs to fetch there: no input, no NMI request, not
waiting, and cells that hold what is placed in them. -/
def State.placeAtPc (s : State) (bytes : List Byte) : State :=
  { s with
    mem := placeBytes s.mem s.pc bytes
    memMap := if readable s.memMap s.pc 5 then s.memMap else ramCells s.pc 5 ++ s.memMap
    inputs := quietFirst s.inputs
    nmiRequest := false
    run := .running }

end Sys2Proof.Machine
end

