-- ==== Sys2Proof/Machine/Step.lean ====
section
/-! DEFINITION. One step of the machine (spec/60_exceptions.md R403). -/

namespace Sys2Proof.Machine

/-- One step (R403): the boundary, then, unless it settled the step, one instruction fetched at PC and executed. -/
def step (s : State) : Host.Outcome State Fault Refusal :=
  match boundary s with
  | .settled t => .next t
  | .execute t =>
    match fetch t with
    | .ok (i, u) => exec i u
    | .error r => .refused r

/-- `s` with the instruction `w` of spec/opcode_table.json's numbering placed where the next step fetches (log 3, log 14). -/
def State.withFetchWord (s : State) (nbits w : Nat) : State := s.placeAtPc (tableBytes nbits w)

end Sys2Proof.Machine
end

