-- ==== Sys2Proof/Safety.lean ====
section
/-! DEFINITION. The terms that claims about the machine use: what memory holds, what an operand form changes, how two
states may differ, the invariant of the machine, and its runs. -/

namespace Sys2Proof.Machine

/-! ### What memory holds -/

/-- The byte held by the RAM or ROM cell at `addr` (10_state.md R32). A `device` or `none` cell has no content of its own;
there the value is `Config.unlisted` in every state whose memory lists nothing at `addr`. -/
def State.cell (s : State) (addr : Word) : Byte := Memory.get s.mem addr.toNat

/-- The byte at `addr` is `v` now, if `addr` is RAM, and every other byte is the old one (20_memory.md R58, R60). -/
def WroteByte (s : State) (addr : Word) (v : Byte) (t : State) : Prop :=
  ∀ k : Word, t.cell k = if k = addr ∧ kindAt s.memMap addr = .ram then v else s.cell k

/-- The word at `addr` is `v` now, high byte at `addr` and low byte at `addr + 1`, where these are RAM, and every other
byte is the old one (00_scope.md R12; 20_memory.md R51). -/
def WroteWord (s : State) (addr : Word) (v : Word) (t : State) : Prop :=
  ∀ k : Word, t.cell k =
    if k = addr ∧ kindAt s.memMap addr = .ram then hiByte v
    else if k = addr + 1#16 ∧ kindAt s.memMap (addr + 1#16) = .ram then loByte v
    else s.cell k

/-- Every byte is the old one. -/
def SameMemory (s t : State) : Prop := ∀ k : Word, t.cell k = s.cell k

/-- The bytes at `addr` and on, the address wrapping, are RAM or ROM and hold `bytes` (20_memory.md R53). -/
def State.holds (s : State) (addr : Word) : List Byte → Prop
  | [] => True
  | v :: rest =>
    readable s.memMap addr 1 = true ∧ s.cell addr = v ∧ s.holds (addr + 1#16) rest

/-- Whether the `count` bytes that lie just below `top` are RAM: the bytes a push of `count` bytes writes, the address
wrapping (20_memory.md R67). -/
def ramBelow (map : List Region) (top : Word) : Nat → Bool
  | 0 => true
  | count + 1 => kindAt map (top - BitVec.ofNat 16 (count + 1)) == CellKind.ram && ramBelow map top count

/-- Whether an address is one of the `count` bytes that lie just below `top`. -/
def isBelow (top k : Word) (count : Nat) : Bool := decide ((top - 1#16 - k).toNat < count)

/-! ### What forming an operand changes -/

/-- The base register that an operand form moves, and by how much (40_addressing_modes.md R119, R120). -/
def movedBase : MemOp → Option (Ptr × Word)
  | .dir _ => none
  | .ext _ => none
  | .idx form =>
    match form with
    | .inc1 r => some (r, 1#16)
    | .inc2 r _ => some (r, 2#16)
    | .dec1 r => some (r, -1#16)
    | .dec2 r _ => some (r, -2#16)
    | .off5 _ _ => none
    | .noOff _ _ => none
    | .off8 _ _ _ => none
    | .off16 _ _ _ => none
    | .accA _ _ => none
    | .accB _ _ => none
    | .accD _ _ => none
    | .pcr8 _ _ => none
    | .pcr16 _ _ => none
    | .extInd _ => none

/-- The state with the base register of an auto increment or decrement form moved, and nothing else changed. -/
def State.baseMoved (s : State) (m : MemOp) : State :=
  match movedBase m with
  | some (r, by16) => s.set16 (ptrReg r) (s.get16 (ptrReg r) + by16)
  | none => s

/-- `baseMoved` of an 8-bit source operand. -/
def State.baseMoved8 (s : State) : Src8 → State
  | .imm _ => s
  | .mem m => s.baseMoved m

/-- `baseMoved` of a 16-bit source operand. -/
def State.baseMoved16 (s : State) : Src16 → State
  | .imm _ => s
  | .mem m => s.baseMoved m

/-! ### Traffic with devices -/

/-- The address of an access. -/
def accessAddr : BusEvent → Word
  | .read addr _ => addr
  | .write addr _ => addr

/-- Whether an access is a read. -/
def isRead : BusEvent → Bool
  | .read _ _ => true
  | .write _ _ => false

/-- Of some byte accesses those to device cells, which alone are events (20_memory.md R60). -/
def onDevices (map : List Region) (accesses : List BusEvent) : List BusEvent :=
  accesses.filter fun access => kindAt map (accessAddr access) == CellKind.device

/-- From `s` to `t` exactly these byte accesses were made, the latest first: those to device cells are the new events, and each
read among these has taken an answer of `Env` (log 7). -/
def Accessed (accesses : List BusEvent) (s t : State) : Prop :=
  t.events = onDevices s.memMap accesses ++ s.events ∧
  t.devIn = s.devIn.drop ((onDevices s.memMap accesses).filter isRead).length

/-- The two byte accesses of a 16-bit read at `addr` that answers `v`, the latest first (20_memory.md R55). -/
def wordRead (addr v : Word) : List BusEvent := [.read (addr + 1#16) (loByte v), .read addr (hiByte v)]

/-- The two byte accesses of a 16-bit write at `addr`, the latest first (20_memory.md R55). -/
def wordWrite (addr v : Word) : List BusEvent := [.write (addr + 1#16) (loByte v), .write addr (hiByte v)]

/-- Whether forming the effective address reads a pointer: the indirect forms do (40_addressing_modes.md R127). -/
def readsPointer : MemOp → Bool
  | .dir _ => false
  | .ext _ => false
  | .idx form =>
    match form with
    | .inc1 _ => false
    | .dec1 _ => false
    | .off5 _ _ => false
    | .inc2 _ ind => ind
    | .dec2 _ ind => ind
    | .noOff _ ind => ind
    | .off8 _ ind _ => ind
    | .off16 _ ind _ => ind
    | .accA _ ind => ind
    | .accB _ ind => ind
    | .accD _ ind => ind
    | .pcr8 ind _ => ind
    | .pcr16 ind _ => ind
    | .extInd _ => true

/-- Once the effective address of `m` is formed, an instruction that goes from `s` to `t` makes exactly these accesses
(20_memory.md R56); where no pointer is read they are all it makes, so that none is an event if they go to RAM and ROM. -/
def AccessesAtEa (m : MemOp) (accesses : List BusEvent) (s t : State) : Prop :=
  Accessed accesses (memEa m s).2 t ∧ (readsPointer m = false → Accessed accesses s t)

/-- The one access of an 8-bit source operand: a read at the effective address, and none for an immediate (R56). -/
def ReadsOperand8 (src : Src8) (s t : State) : Prop :=
  match src with
  | .imm _ => Accessed [] s t
  | .mem m => AccessesAtEa m [.read (memEa m s).1 (readSrc8 src s).1] s t

/-- The two byte reads of a 16-bit source operand, and none for an immediate (R56). -/
def ReadsOperand16 (src : Src16) (s t : State) : Prop :=
  match src with
  | .imm _ => Accessed [] s t
  | .mem m => AccessesAtEa m (wordRead (memEa m s).1 (readSrc16 src s).1) s t

/-! ### How two states may differ -/

/-- `t` is `s` but for the traffic with devices and the count of draws (20_memory.md R60). -/
def SameButDevices (s t : State) : Prop :=
  t = { s with devIn := t.devIn, events := t.events, draws := t.draws }

/-- `t` is `s` but for what memory holds, the traffic with devices and the count of draws. -/
def SameButMemory (s t : State) : Prop :=
  t = { s with mem := t.mem, devIn := t.devIn, events := t.events, draws := t.draws }

/-! ### Operands and results in whole numbers -/

/-- The byte that a memory operand names, as it is read. -/
def memByte (m : MemOp) (s : State) : Byte := ((memEa m s).2.read8 (memEa m s).1).1

/-- E, F and I keep their values (00_scope.md R17: a flag an instruction does not name is unchanged). -/
def KeepsMasks (old new : CC) : Prop := new.e = old.e ∧ new.f = old.f ∧ new.i = old.i

/-- N and Z are those of the result. -/
def SignAndZeroOf {n : Nat} (r : BitVec n) (cc : CC) : Prop :=
  cc.n = decide (r.toInt < 0) ∧ cc.z = decide (r.toNat = 0)

/-- A whole number that n bits hold as a two's complement number. -/
def FitsSigned (n : Nat) (k : Int) : Prop := -(2 ^ (n - 1) : Int) ≤ k ∧ k < (2 ^ (n - 1) : Int)

/-- `r` is `a + m + carry` and N, Z, V, C are those of the addition (00_scope.md R16): C the carry out, V the signed
overflow. E, F and I are kept. -/
def IsSum {n : Nat} (a m : BitVec n) (carry : Bool) (old : CC) (r : BitVec n) (new : CC) : Prop :=
  r.toNat = (a.toNat + m.toNat + carry.toNat) % 2 ^ n ∧
  new.c = decide (2 ^ n ≤ a.toNat + m.toNat + carry.toNat) ∧
  (new.v = false ↔ FitsSigned n (a.toInt + m.toInt + carry.toNat)) ∧
  SignAndZeroOf r new ∧ KeepsMasks old new

/-- `r` is `a - m - borrow` and N, Z, V, C are those of the subtraction (R16): C the borrow, V the signed overflow. E, F and
I are kept. -/
def IsDifference {n : Nat} (a m : BitVec n) (borrow : Bool) (old : CC) (r : BitVec n) (new : CC) : Prop :=
  (r.toNat : Int) = ((a.toNat : Int) - m.toNat - borrow.toNat) % 2 ^ n ∧
  new.c = decide (a.toNat < m.toNat + borrow.toNat) ∧
  (new.v = false ↔ FitsSigned n (a.toInt - m.toInt - borrow.toNat)) ∧
  SignAndZeroOf r new ∧ KeepsMasks old new

/-! The one-operand operations of 43_memory_and_register_operate.md R213: operand, old CC, result, new CC. H is not
mentioned where the spec leaves it open. -/

/-- ASL and LSL: V when doubling the signed value overflows, which is `v[7] XOR v[6]`. -/
def IsAsl (v : Byte) (old : CC) (r : Byte) (new : CC) : Prop :=
  r.toNat = 2 * v.toNat % 256 ∧ new.c = decide (128 ≤ v.toNat) ∧ (new.v = false ↔ FitsSigned 8 (2 * v.toInt)) ∧
  SignAndZeroOf r new ∧ KeepsMasks old new

/-- ASR: the signed value is halved, rounding down; V is kept. -/
def IsAsr (v : Byte) (old : CC) (r : Byte) (new : CC) : Prop :=
  r.toInt = v.toInt / 2 ∧ new.c = decide (v.toNat % 2 = 1) ∧ new.v = old.v ∧ SignAndZeroOf r new ∧ KeepsMasks old new

/-- LSR: the unsigned value is halved; N is 0; V and H are kept. -/
def IsLsr (v : Byte) (old : CC) (r : Byte) (new : CC) : Prop :=
  r.toNat = v.toNat / 2 ∧ new.c = decide (v.toNat % 2 = 1) ∧ new.n = false ∧ new.z = decide (r.toNat = 0) ∧
  new.v = old.v ∧ new.h = old.h ∧ KeepsMasks old new

/-- ROL: nine bits, the carry among them, turn left; H is kept. -/
def IsRol (v : Byte) (old : CC) (r : Byte) (new : CC) : Prop :=
  256 * new.c.toNat + r.toNat = 2 * v.toNat + old.c.toNat ∧ (new.v = false ↔ FitsSigned 8 (2 * v.toInt)) ∧
  SignAndZeroOf r new ∧ new.h = old.h ∧ KeepsMasks old new

/-- ROR: nine bits, the carry among them, turn right; V and H are kept. -/
def IsRor (v : Byte) (old : CC) (r : Byte) (new : CC) : Prop :=
  2 * r.toNat + new.c.toNat = 256 * old.c.toNat + v.toNat ∧ SignAndZeroOf r new ∧ new.v = old.v ∧ new.h = old.h ∧
  KeepsMasks old new

/-- NEG: C unless the operand is 0, V when the operand is 0x80. -/
def IsNeg (v : Byte) (old : CC) (r : Byte) (new : CC) : Prop :=
  r.toNat = (256 - v.toNat) % 256 ∧ new.c = decide (v.toNat ≠ 0) ∧ (new.v = false ↔ FitsSigned 8 (-v.toInt)) ∧
  SignAndZeroOf r new ∧ KeepsMasks old new

/-- COM: every bit inverted; V is 0, C is 1; H is kept. -/
def IsCom (v : Byte) (old : CC) (r : Byte) (new : CC) : Prop :=
  r.toNat = 255 - v.toNat ∧ new.c = true ∧ new.v = false ∧ SignAndZeroOf r new ∧ new.h = old.h ∧ KeepsMasks old new

/-- DEC: V when the operand is 0x80; C and H are kept. -/
def IsDec (v : Byte) (old : CC) (r : Byte) (new : CC) : Prop :=
  r.toNat = (v.toNat + 255) % 256 ∧ (new.v = false ↔ FitsSigned 8 (v.toInt - 1)) ∧ new.c = old.c ∧
  SignAndZeroOf r new ∧ new.h = old.h ∧ KeepsMasks old new

/-- INC: V when the operand is 0x7F; C and H are kept. -/
def IsInc (v : Byte) (old : CC) (r : Byte) (new : CC) : Prop :=
  r.toNat = (v.toNat + 1) % 256 ∧ (new.v = false ↔ FitsSigned 8 (v.toInt + 1)) ∧ new.c = old.c ∧
  SignAndZeroOf r new ∧ new.h = old.h ∧ KeepsMasks old new

/-- CLR: N, V, C are 0, Z is 1; H is kept. -/
def IsClr (_v : Byte) (old : CC) (r : Byte) (new : CC) : Prop :=
  r.toNat = 0 ∧ new = { old with n := false, z := true, v := false, c := false }

/-! ### Where an operation of one operand is done -/

/-- `i` completes for every memory operand: it replaces the byte at the effective address by a result of the operation,
writes CC, moves the base register of an auto form, and changes nothing else (43_memory_and_register_operate.md R211). At the
effective address it makes one write, after one read if `reads` holds (20_memory.md R56, R57). -/
def OnMemory (reads : Bool) (i : MemOp → Instr) (op : Byte → CC → Byte → CC → Prop) : Prop :=
  ∀ (dst : MemOp) (s : State), Memory.wf s.mem = true →
    ∃ (t : State) (r : Byte), exec (i dst) s = .next t ∧
      SameButMemory { s.baseMoved dst with cc := t.cc } t ∧
      WroteByte s (memEa dst s).1 r t ∧ op (memByte dst s) s.cc r t.cc ∧
      AccessesAtEa dst (.write (memEa dst s).1 r :: if reads then [.read (memEa dst s).1 (memByte dst s)] else []) s t

/-- `i` completes: it replaces A by a result of the operation, writes CC, and changes nothing else. -/
def OnA (i : Instr) (op : Byte → CC → Byte → CC → Prop) : Prop :=
  ∀ s : State, ∃ t : State, exec i s = .next t ∧
    t = { s with a := t.a, cc := t.cc, draws := t.draws } ∧ op s.a s.cc t.a t.cc

/-- `i` completes: it replaces B by a result of the operation, writes CC, and changes nothing else. -/
def OnB (i : Instr) (op : Byte → CC → Byte → CC → Prop) : Prop :=
  ∀ s : State, ∃ t : State, exec i s = .next t ∧
    t = { s with b := t.b, cc := t.cc, draws := t.draws } ∧ op s.b s.cc t.b t.cc

/-! ### Stack contents -/

/-- The bytes that a register list stands for, from the lowest address up: CC, A, B, DP, X, Y, the other stack pointer, PC,
each 16-bit register with its high byte first (47_stack.md R341, R342; 30_encoding.md R92). -/
def listBytes (p : Stk) (list : Byte) (v : State) : List Byte :=
  (if list.getLsbD 0 then [v.cc.toByte] else []) ++
  ((if list.getLsbD 1 then [v.a] else []) ++
  ((if list.getLsbD 2 then [v.b] else []) ++
  ((if list.getLsbD 3 then [v.dp] else []) ++
  ((if list.getLsbD 4 then [hiByte v.x, loByte v.x] else []) ++
  ((if list.getLsbD 5 then [hiByte v.y, loByte v.y] else []) ++
  ((if list.getLsbD 6 then
      [hiByte (v.get16 (otherStk p)), loByte (v.get16 (otherStk p))] else []) ++
  (if list.getLsbD 7 then [hiByte v.pc, loByte v.pc] else [])))))))

/-- How many bytes a register list moves: one for each of b0 to b3, two for each of b4 to b7 (30_encoding.md R92). -/
def listCount (list : Byte) : Nat :=
  (list.getLsbD 0).toNat + (list.getLsbD 1).toNat + (list.getLsbD 2).toNat + (list.getLsbD 3).toNat +
  2 * (list.getLsbD 4).toNat + 2 * (list.getLsbD 5).toNat + 2 * (list.getLsbD 6).toNat + 2 * (list.getLsbD 7).toNat

/-- The frame of an event, from the lowest address up (60_exceptions.md R396): the entire frame, or CC and PC. -/
def frameBytes (entire : Bool) (v : State) : List Byte :=
  if entire then
    [v.cc.toByte, v.a, v.b, v.dp, hiByte v.x, loByte v.x, hiByte v.y, loByte v.y, hiByte v.u, loByte v.u,
      hiByte v.pc, loByte v.pc]
  else [v.cc.toByte, hiByte v.pc, loByte v.pc]

/-! ### Branches and events -/

/-- `i` completes: it goes to PC plus its sign-extended displacement when the condition holds, on to the next instruction
when it does not, and changes nothing else (45_branch_on_condition.md R280). PC holds `npc` when `exec` begins. -/
def BranchesWhen {n : Nat} (i : BitVec n → Instr) (cond : CC → Prop) : Prop :=
  ∀ (disp : BitVec n) (s : State), ∃ t : State, exec (i disp) s = .next t ∧ t = { s with pc := t.pc } ∧
    (cond s.cc → t.pc = s.pc + disp.signExtend 16) ∧ (¬ cond s.cc → t.pc = s.pc)

/-- `t` is `s` after an event took control through the vector at `vector` (60_exceptions.md R381, R391, R396): E tells the
frame, the frame lies on S where S points at RAM, I and F are set as said, PC is the word of the vector cells where these are
RAM or ROM; no other register, flag or byte has changed, an NMI request apart. -/
def Entered (vector : Word) (entire setI setF : Bool) (s t : State) : Prop :=
  SameButMemory { s with
      s := s.s - (if entire then 12#16 else 3#16)
      cc := { s.cc with e := entire, i := s.cc.i || setI, f := s.cc.f || setF }
      pc := t.pc, nmiRequest := t.nmiRequest } t ∧
  (∀ k : Word, isBelow s.s k (if entire then 12 else 3) = false → t.cell k = s.cell k) ∧
  (Memory.wf s.mem = true → ramBelow s.memMap s.s (if entire then 12 else 3) = true →
    t.holds t.s (frameBytes entire { s with cc := { s.cc with e := entire } })) ∧
  (readable s.memMap vector 2 = true → t.pc = wordOf (t.cell vector) (t.cell (vector + 1#16)))

/-! ### Invariant and runs -/

/-- What every state of a machine satisfies: memory is in its canonical form, and an NMI request is latched only while NMI
is armed (60_exceptions.md R392). -/
def State.Inv (s : State) : Prop :=
  Memory.wf s.mem = true ∧ (s.nmiRequest = true → s.nmiArmed = true)

/-- The states a machine can be in when it was in `s`. -/
inductive Reachable (s : State) : State → Prop where
  | refl : Reachable s s
  | step {t u : State} : Reachable s t → Sys2Proof.Machine.step t = .next u → Reachable s u

/-- The step takes an instruction at PC: the machine executes, and `Env` asserts no reset and no interrupt that is
accepted (60_exceptions.md R386, R403). -/
def State.executes (s : State) : Prop :=
  s.run = .running ∧ s.nextInputs.reset = false ∧
    accepted s.nextInputs (s.consumeInputs.latchNmi s.nextInputs) = none

end Sys2Proof.Machine
end

