-- ==== Sys2Proof/Certificates/Slice0/Obligations.lean ====
section
/-! DEFINITION. The statements for the provers, from the numbered rules of spec/. `exec` is applied to a state whose PC is
`npc`, the address after the instruction (00_scope.md R13; log 12); `StepRunsTheInstructionAtPc` ties it to `step`. The flag formulas
of R16, DAA's algorithm, the order of accesses and the hardware interrupt entries are what the spec itself supplies from general
knowledge or decided (logs 16, 19, 21, 22, 24): the statements that rest on them have basis 'derived'. Traffic with devices is
said by `Accessed`: how `State` records it is the model's choice (log 7), which accesses there are is R55, R56 and R127. -/

open Sys2Proof Sys2Proof.Machine

/-! ### Encoding (30_encoding.md, 40_addressing_modes.md) -/

/-- R82, R88, R90, R92, R94, R102: the encoding of a well-formed instruction, whatever follows it, decodes to the instruction; a
second name decodes to the first name of its words (log 13). The encoder writes 0 in don't-care bits: the model's choice, log 15. -/
def Obligations.DecodeEncode : Prop :=
  ∀ (i : Instr) (rest : List Byte), wellFormed i = true → decode (encode i ++ rest) = .ok (canonical i)

/-- R80, R322: what the decoder answers is well formed and has one to five bytes. The clause `canonical i = i` is the model's
choice (log 13): of two names for the same words, which R102 gives, the decoder answers the first and never the second. -/
def Obligations.DecodedIsWellFormed : Prop :=
  ∀ (bytes : List Byte) (i : Instr), decode bytes = .ok i →
    wellFormed i = true ∧ canonical i = i ∧ 1 ≤ instrLength i ∧ instrLength i ≤ 5

/-- Words written out from the *Encoding* lines of R142, R146, R178, R223, R268, R299, R323, R329, R341, R352, R354. -/
def Obligations.DecodesSpecWords : Prop :=
  decode [0x86#8, 0x80#8] = .ok (.lda (.imm 0x80#8)) ∧
  decode [0x10#8, 0xAE#8, 0x89#8, 0x12#8, 0x34#8] = .ok (.ldy (.mem (.idx (.off16 .x false 0x1234#16)))) ∧
  decode [0xB0#8, 0x56#8, 0x78#8] = .ok (.suba (.mem (.ext 0x5678#16))) ∧
  decode [0x04#8, 0x34#8] = .ok (.lsr (.dir 0x34#8)) ∧
  decode [0xAD#8, 0x9F#8, 0xFF#8, 0xFE#8] = .ok (.jsr (.idx (.extInd 0xFFFE#16))) ∧
  decode [0x10#8, 0x24#8, 0x10#8, 0x00#8] = .ok (.lbcc 0x1000#16) ∧
  decode [0x1E#8, 0x89#8] = .ok (.exg (.narrow .a) (.narrow .b)) ∧
  decode [0x30#8, 0x1F#8] = .ok (.leax (.off5 .x 0x1F#5)) ∧
  decode [0x34#8, 0x16#8] = .ok (.pshs 0x16#8) ∧
  decode [0x3F#8] = .ok .swi ∧
  decode [0x11#8, 0x3F#8] = .ok .swi3

/-- R97, R98, R88: the bytes with no instruction: 33 first bytes, and after a page byte every second byte but 38 of page 2 and 9 of
page 3, a second page byte among them. -/
def Obligations.UndefinedOpcodes : Prop :=
  (∀ (op : Byte) (rest : List Byte), op ≠ 0x10#8 → op ≠ 0x11#8 →
    (decode (op :: rest) = .error .undefinedOpcode ↔
      op ∈ ([0x01, 0x02, 0x05, 0x0B, 0x14, 0x15, 0x18, 0x1B, 0x38, 0x3E, 0x41, 0x42, 0x45, 0x4B, 0x4E, 0x51, 0x52, 0x55,
        0x5B, 0x5E, 0x61, 0x62, 0x65, 0x6B, 0x71, 0x72, 0x75, 0x7B, 0x87, 0x8F, 0xC7, 0xCD, 0xCF] : List Byte))) ∧
  (∀ (op : Byte) (rest : List Byte), decode (0x10#8 :: op :: rest) = .error .undefinedOpcode ↔
    op ∉ ([0x21, 0x22, 0x23, 0x24, 0x25, 0x26, 0x27, 0x28, 0x29, 0x2A, 0x2B, 0x2C, 0x2D, 0x2E, 0x2F, 0x3F, 0x83, 0x8C,
      0x8E, 0x93, 0x9C, 0x9E, 0x9F, 0xA3, 0xAC, 0xAE, 0xAF, 0xB3, 0xBC, 0xBE, 0xBF, 0xCE, 0xDE, 0xDF, 0xEE, 0xEF, 0xFE, 0xFF] : List Byte)) ∧
  (∀ (op : Byte) (rest : List Byte), decode (0x11#8 :: op :: rest) = .error .undefinedOpcode ↔
    op ∉ ([0x3F, 0x83, 0x8C, 0x93, 0x9C, 0xA3, 0xAC, 0xB3, 0xBC] : List Byte))

/-- R99, R126: 36 post bytes select no form, those with bit 7 set and one of nine patterns below; the other 220 select one. -/
def Obligations.UndefinedPostBytes : Prop :=
  ∀ (pb : Byte) (rest : List Byte), decodeIdx pb rest = none ↔
    pb.getLsbD 7 = true ∧
      pb.toNat % 32 ∈ [0x07, 0x0A, 0x0E, 0x0F, 0x10, 0x12, 0x17, 0x1A, 0x1E]

/-- R123: the four post bytes `1XX11111` take the two bytes that follow, high byte first, as the address of a pointer, and the
effective address is the word read there; `1XX01111` is undefined. -/
def Obligations.ExtendedIndirect : Prop :=
  (∀ pb ∈ ([0x9F, 0xBF, 0xDF, 0xFF] : List Byte), ∀ (hi lo : Byte) (rest : List Byte),
    decodeIdx pb (hi :: lo :: rest) = some (.extInd (wordOf hi lo))) ∧
  (∀ (addr : Word) (s : State), idxEa (.extInd addr) s = s.read16 addr) ∧
  (∀ pb ∈ ([0x8F, 0xAF, 0xCF, 0xEF] : List Byte), ∀ rest : List Byte, decodeIdx pb rest = none)

/-! ### Effective addresses and memory -/

/-- R111, R112, R115, R116, R119 to R121: the effective address of each form that makes no pointer read, and the base register
after it. -/
def Obligations.EffectiveAddresses : Prop :=
  ∀ (s : State) (p : Ptr), let r := ptrReg p; let v := s.get16 r
    (∀ adr8 : Byte, (memEa (.dir adr8) s).1.toNat = 256 * s.dp.toNat + adr8.toNat ∧ (memEa (.dir adr8) s).2 = s) ∧
    (∀ adr16 : Word, memEa (.ext adr16) s = (adr16, s)) ∧
    (∀ n : BitVec 5, memEa (.idx (.off5 p n)) s = (v + n.signExtend 16, s)) ∧
    memEa (.idx (.noOff p false)) s = (v, s) ∧
    (∀ n : Byte, memEa (.idx (.off8 p false n)) s = (v + n.signExtend 16, s)) ∧
    (∀ n : Word, memEa (.idx (.off16 p false n)) s = (v + n, s)) ∧
    memEa (.idx (.accA p false)) s = (v + s.a.signExtend 16, s) ∧
    memEa (.idx (.accB p false)) s = (v + s.b.signExtend 16, s) ∧
    memEa (.idx (.accD p false)) s = (v + wordOf s.a s.b, s) ∧
    memEa (.idx (.inc1 p)) s = (v, s.set16 r (v + 1#16)) ∧
    memEa (.idx (.inc2 p false)) s = (v, s.set16 r (v + 2#16)) ∧
    memEa (.idx (.dec1 p)) s = (v - 1#16, s.set16 r (v - 1#16)) ∧
    memEa (.idx (.dec2 p false)) s = (v - 2#16, s.set16 r (v - 2#16)) ∧
    (∀ n : Byte, memEa (.idx (.pcr8 false n)) s = (s.pc + n.signExtend 16, s)) ∧
    (∀ n : Word, memEa (.idx (.pcr16 false n)) s = (s.pc + n, s))

/-- R124: when bits 7 and 4 of the post byte are 1, the address that the post byte with bit 4 clear stands for, with the same auto
modification done first, is the address of a 16-bit pointer, and the effective address is the word read there. -/
def Obligations.IndirectForms : Prop :=
  ∀ (pb : Byte) (rest : List Byte) (direct indirect : Idx) (s : State),
    pb.getLsbD 7 = true → pb.getLsbD 4 = true →
    decodeIdx (pb - 0x10#8) rest = some direct → decodeIdx pb rest = some indirect →
    idxEa indirect s = (idxEa direct s).2.read16 (idxEa direct s).1

/-- R12, R51, R52: a word stored in RAM has its high byte at the lower address, wraps at 0xFFFF, and reads back whole; no other
byte of memory changes. -/
def Obligations.WordsAreBigEndian : Prop :=
  ∀ (s : State) (addr v : Word), Memory.wf s.mem = true → kindAt s.memMap addr = .ram →
    kindAt s.memMap (addr + 1#16) = .ram →
    (s.write16 addr v).cell addr = hiByte v ∧ (s.write16 addr v).cell (addr + 1#16) = loByte v ∧
    ((s.write16 addr v).read16 addr).1 = v ∧
    ∀ k : Word, k ≠ addr → k ≠ addr + 1#16 → (s.write16 addr v).cell k = s.cell k

/-- R58, R60: RAM and ROM are read without side effect; writes to ROM and to `none` cells change nothing, a read of a `none` cell
is a draw and changes nothing else (log 8: `Config.anyByte` of the count of draws); an access to a device cell is an event and
leaves memory alone. R55: a 16-bit access is two byte accesses, at `addr` and then at `addr + 1` (log 24). The model's choices: ROM
content lies in `mem` (log 6), `devIn` answers device reads and `events` records device accesses, the latest first (log 7). -/
def Obligations.RomAndDeviceAccesses : Prop :=
  ∀ (s : State) (addr : Word) (v : Byte),
    (kindAt s.memMap addr = .ram ∨ kindAt s.memMap addr = .rom → s.read8 addr = (s.cell addr, s)) ∧
    (kindAt s.memMap addr = .rom ∨ kindAt s.memMap addr = .absent → s.write8 addr v = s) ∧
    (kindAt s.memMap addr = .absent →
      s.read8 addr = (Config.anyByte s.draws, { s with draws := s.draws + 1 })) ∧
    (kindAt s.memMap addr = .device →
      s.write8 addr v = { s with events := .write addr v :: s.events } ∧
      SameButDevices s (s.read8 addr).2 ∧ Accessed [.read addr (s.read8 addr).1] s (s.read8 addr).2 ∧
      (∀ w rest, s.devIn = w :: rest → (s.read8 addr).1 = w ∧ (s.read8 addr).2.devIn = rest)) ∧
    (let high := s.read8 addr
     let low := high.2.read8 (addr + 1#16)
     s.read16 addr = (wordOf high.1 low.1, low.2)) ∧
    ∀ w : Word, s.write16 addr w = (s.write8 addr (hiByte w)).write8 (addr + 1#16) (loByte w)

/-! ### Loads and stores (41_load_store.md) -/

/-- R110, R113: an immediate operand is the instruction's own byte and reading it touches nothing; a memory operand is the byte
read at the effective address, the content of the cell where that is RAM or ROM. R142, R143, R141, R56, R127: LDA and LDB take the
operand, N and Z from it, V cleared; nothing else changes but the base register of an auto form; the operand's one read is their
only access at the effective address. (How `State` records accesses: log 7.) -/
def Obligations.LoadsOfEightBits : Prop :=
  (∀ (data : Byte) (s : State), readSrc8 (.imm data) s = (data, s)) ∧
  (∀ (m : MemOp) (s : State), (readSrc8 (.mem m) s).1 = memByte m s ∧
    (readable s.memMap (memEa m s).1 1 = true → memByte m s = s.cell (memEa m s).1)) ∧
  ∀ (src : Src8) (s : State), let v := (readSrc8 src s).1
    let cc : CC := { s.cc with n := decide (v.toInt < 0), z := decide (v.toNat = 0), v := false }
    let loads := fun (i : Instr) (loaded : State) => ∃ t, exec i s = .next t ∧ SameButDevices loaded t ∧
      ReadsOperand8 src s t
    loads (.lda src) { s.baseMoved8 src with a := v, cc := cc } ∧
    loads (.ldb src) { s.baseMoved8 src with b := v, cc := cc }

/-- R110, R113: an immediate operand is the instruction's own word and reading it touches nothing; a memory operand is the word
read at the effective address, high byte there and low byte next to it, the content of these cells where they are RAM or ROM. R144
to R148, R141, R56, R127: LDD, LDX, LDY, LDU, LDS take the operand, N and Z from all 16 bits, V cleared; LDS arms NMI as well;
nothing else changes but the base register of an auto form, which a load of that register overwrites (log 16); the operand's two
byte reads are their only accesses at the effective address. (How `State` records accesses: log 7; high byte first: log 24.) -/
def Obligations.LoadsOfSixteenBits : Prop :=
  (∀ (data : Word) (s : State), readSrc16 (.imm data) s = (data, s)) ∧
  (∀ (m : MemOp) (s : State), (readSrc16 (.mem m) s).1 = ((memEa m s).2.read16 (memEa m s).1).1 ∧
    (readable s.memMap (memEa m s).1 2 = true →
      (readSrc16 (.mem m) s).1 = wordOf (s.cell (memEa m s).1) (s.cell ((memEa m s).1 + 1#16)))) ∧
  ∀ (src : Src16) (s : State), let v := (readSrc16 src s).1
    let cc : CC := { s.cc with n := decide (v.toInt < 0), z := decide (v.toNat = 0), v := false }
    let loads := fun (i : Instr) (loaded : State) => ∃ t, exec i s = .next t ∧ SameButDevices loaded t ∧
      ReadsOperand16 src s t
    loads (.ldd src) { s.baseMoved16 src with a := hiByte v, b := loByte v, cc := cc } ∧
    loads (.ldx src) { s.baseMoved16 src with x := v, cc := cc } ∧
    loads (.ldy src) { s.baseMoved16 src with y := v, cc := cc } ∧
    loads (.ldu src) { s.baseMoved16 src with u := v, cc := cc } ∧
    loads (.lds src) { s.baseMoved16 src with s := v, cc := cc, nmiArmed := true }

/-- R149, R150, R141, R56: STA and STB store the register at the effective address, N and Z from it, V cleared; every other byte
and every register but the base register of an auto form keeps its value; the write of the register is their only access at the
effective address. (How `State` records accesses: log 7.) -/
def Obligations.StoresOfEightBits : Prop :=
  ∀ (dst : MemOp) (s : State), Memory.wf s.mem = true →
    let stores := fun (i : Instr) (v : Byte) => ∃ t, exec i s = .next t ∧ WroteByte s (memEa dst s).1 v t ∧
      SameButMemory { s.baseMoved dst with
        cc := { s.cc with n := decide (v.toInt < 0), z := decide (v.toNat = 0), v := false } } t ∧
      AccessesAtEa dst [.write (memEa dst s).1 v] s t
    stores (.sta dst) s.a ∧ stores (.stb dst) s.b

/-- R151 to R155, R141, R125, R56: STD, STX, STY, STU, STS store the register, as an auto form has left it (log 16), at the
effective address, high byte first; N and Z from it, V cleared; every other byte and register keeps its value; the two byte writes
are their only accesses at the effective address. (How `State` records accesses: log 7; high byte first: log 24.) -/
def Obligations.StoresOfSixteenBits : Prop :=
  ∀ (dst : MemOp) (s : State), Memory.wf s.mem = true →
    let stores := fun (i : Instr) (v : Word) => ∃ t, exec i s = .next t ∧ WroteWord s (memEa dst s).1 v t ∧
      SameButMemory { s.baseMoved dst with
        cc := { s.cc with n := decide (v.toInt < 0), z := decide (v.toNat = 0), v := false } } t ∧
      AccessesAtEa dst (wordWrite (memEa dst s).1 v) s t
    stores (.std dst) (wordOf s.a s.b) ∧ stores (.stx dst) (s.baseMoved dst).x ∧
    stores (.sty dst) (s.baseMoved dst).y ∧ stores (.stu dst) (s.baseMoved dst).u ∧
    stores (.sts dst) (s.baseMoved dst).s

/-! ### Register operate (42_accumulator_memory_operate.md) -/

/-- R173 to R176, R172, R16, R56: ADDA, ADDB, ADCA, ADCB add exactly, H the carry out of bit 3; nothing else changes but the base
register of an auto form; the operand's read is the only access at the effective address. (How `State` records accesses: log 7.) -/
def Obligations.AdditionsOfEightBits : Prop :=
  ∀ (src : Src8) (s : State), let m := (readSrc8 src s).1
    (∃ t, exec (.adda src) s = .next t ∧ SameButDevices { s.baseMoved8 src with a := t.a, cc := t.cc } t ∧
      ReadsOperand8 src s t ∧ IsSum s.a m false s.cc t.a t.cc ∧ t.cc.h = decide (16 ≤ s.a.toNat % 16 + m.toNat % 16)) ∧
    (∃ t, exec (.addb src) s = .next t ∧ SameButDevices { s.baseMoved8 src with b := t.b, cc := t.cc } t ∧
      ReadsOperand8 src s t ∧ IsSum s.b m false s.cc t.b t.cc ∧ t.cc.h = decide (16 ≤ s.b.toNat % 16 + m.toNat % 16)) ∧
    (∃ t, exec (.adca src) s = .next t ∧ SameButDevices { s.baseMoved8 src with a := t.a, cc := t.cc } t ∧
      ReadsOperand8 src s t ∧ IsSum s.a m s.cc.c s.cc t.a t.cc ∧
      t.cc.h = decide (16 ≤ s.a.toNat % 16 + m.toNat % 16 + s.cc.c.toNat)) ∧
    (∃ t, exec (.adcb src) s = .next t ∧ SameButDevices { s.baseMoved8 src with b := t.b, cc := t.cc } t ∧
      ReadsOperand8 src s t ∧ IsSum s.b m s.cc.c s.cc t.b t.cc ∧
      t.cc.h = decide (16 ≤ s.b.toNat % 16 + m.toNat % 16 + s.cc.c.toNat))

/-- R178 to R181, R184, R185, R183, R172, R16, R56: SUBA, SUBB, SBCA, SBCB subtract exactly, C the borrow; CMPA and CMPB set the
same flags and write no register; H is left open (log 9); nothing else changes but the base register of an auto form; the operand's
read is the only access at the effective address. (How `State` records accesses: log 7.) -/
def Obligations.SubtractionsOfEightBits : Prop :=
  ∀ (src : Src8) (s : State), let m := (readSrc8 src s).1
    (∃ t, exec (.suba src) s = .next t ∧ SameButDevices { s.baseMoved8 src with a := t.a, cc := t.cc } t ∧
      ReadsOperand8 src s t ∧ IsDifference s.a m false s.cc t.a t.cc) ∧
    (∃ t, exec (.subb src) s = .next t ∧ SameButDevices { s.baseMoved8 src with b := t.b, cc := t.cc } t ∧
      ReadsOperand8 src s t ∧ IsDifference s.b m false s.cc t.b t.cc) ∧
    (∃ t, exec (.sbca src) s = .next t ∧ SameButDevices { s.baseMoved8 src with a := t.a, cc := t.cc } t ∧
      ReadsOperand8 src s t ∧ IsDifference s.a m s.cc.c s.cc t.a t.cc) ∧
    (∃ t, exec (.sbcb src) s = .next t ∧ SameButDevices { s.baseMoved8 src with b := t.b, cc := t.cc } t ∧
      ReadsOperand8 src s t ∧ IsDifference s.b m s.cc.c s.cc t.b t.cc) ∧
    (∃ t r, exec (.cmpa src) s = .next t ∧ SameButDevices { s.baseMoved8 src with cc := t.cc } t ∧
      ReadsOperand8 src s t ∧ IsDifference s.a m false s.cc r t.cc) ∧
    (∃ t r, exec (.cmpb src) s = .next t ∧ SameButDevices { s.baseMoved8 src with cc := t.cc } t ∧
      ReadsOperand8 src s t ∧ IsDifference s.b m false s.cc r t.cc)

/-- R177, R182, R186 to R190, R172, R16, R197, R56: ADDD and SUBD on A:B; CMPD, CMPX, CMPY, CMPU, CMPS set the flags of the
subtraction from the register, as an auto form has left it (log 16), and write no register; H is kept; nothing else changes but the
base register of an auto form; the operand's two byte reads are the only accesses at the effective address. (How `State` records
accesses: log 7; high byte first: log 24.) -/
def Obligations.ArithmeticOfSixteenBits : Prop :=
  ∀ (src : Src16) (s : State), let m := (readSrc16 src s).1
    let compares := fun (i : Instr) (v : Word) => ∃ t r, exec i s = .next t ∧
      SameButDevices { s.baseMoved16 src with cc := t.cc } t ∧ ReadsOperand16 src s t ∧
      IsDifference v m false s.cc r t.cc ∧ t.cc.h = s.cc.h
    (∃ t, exec (.addd src) s = .next t ∧
      SameButDevices { s.baseMoved16 src with a := t.a, b := t.b, cc := t.cc } t ∧ ReadsOperand16 src s t ∧
      IsSum (wordOf s.a s.b) m false s.cc (wordOf t.a t.b) t.cc ∧ t.cc.h = s.cc.h) ∧
    (∃ t, exec (.subd src) s = .next t ∧
      SameButDevices { s.baseMoved16 src with a := t.a, b := t.b, cc := t.cc } t ∧ ReadsOperand16 src s t ∧
      IsDifference (wordOf s.a s.b) m false s.cc (wordOf t.a t.b) t.cc ∧ t.cc.h = s.cc.h) ∧
    compares (.cmpd src) (wordOf s.a s.b) ∧ compares (.cmpx src) (s.baseMoved16 src).x ∧
    compares (.cmpy src) (s.baseMoved16 src).y ∧ compares (.cmpu src) (s.baseMoved16 src).u ∧
    compares (.cmps src) (s.baseMoved16 src).s

/-- R191 to R196, R198, R199, R172, R56: ANDA, ANDB, EORA, EORB, ORA, ORB, and BITA, BITB which write no register: N and Z from the
result, V cleared, C and H kept; nothing else changes but the base register of an auto form; the operand's read is the only access
at the effective address. (How `State` records accesses: log 7.) -/
def Obligations.LogicOperations : Prop :=
  ∀ (src : Src8) (s : State), let m := (readSrc8 src s).1
    let cc := fun r : Byte =>
      ({ s.cc with n := decide (r.toInt < 0), z := decide (r.toNat = 0), v := false } : CC)
    let ontoA := fun (i : Instr) (r : Byte) => ∃ t, exec i s = .next t ∧
      SameButDevices { s.baseMoved8 src with a := r, cc := cc r } t ∧ ReadsOperand8 src s t
    let ontoB := fun (i : Instr) (r : Byte) => ∃ t, exec i s = .next t ∧
      SameButDevices { s.baseMoved8 src with b := r, cc := cc r } t ∧ ReadsOperand8 src s t
    let tests := fun (i : Instr) (r : Byte) => ∃ t, exec i s = .next t ∧
      SameButDevices { s.baseMoved8 src with cc := cc r } t ∧ ReadsOperand8 src s t
    ontoA (.anda src) (s.a &&& m) ∧ ontoB (.andb src) (s.b &&& m) ∧
    ontoA (.eora src) (s.a ^^^ m) ∧ ontoB (.eorb src) (s.b ^^^ m) ∧
    ontoA (.ora src) (s.a ||| m) ∧ ontoB (.orb src) (s.b ||| m) ∧
    tests (.bita src) (s.a &&& m) ∧ tests (.bitb src) (s.b &&& m)

/-- R183: a compare writes no register, and after it the branches read as "register (relation) operand". Which short and long
branch reads as which relation, unsigned and signed, is the table of R282, which the spec derives from the flag formulas of R16
(log 22). The register compared is the one an auto form has left (R197, R189; the spec's decision D20, log 16). -/
def Obligations.ComparesReadAsRelations : Prop :=
  ∀ (src8 : Src8) (src16 : Src16) (s : State) (mm : Byte) (mmnn : Word),
    let goes := fun (t : State) (short long : Instr) (taken : Prop) => ∃ u w,
      exec short t = .next u ∧ exec long t = .next w ∧
      (taken → u.pc = t.pc + mm.signExtend 16 ∧ w.pc = t.pc + mmnn) ∧ (¬ taken → u.pc = t.pc ∧ w.pc = t.pc)
    let relations := fun (t : State) (unsignedOrder signedOrder : Ordering) =>
      goes t (.beq mm) (.lbeq mmnn) (unsignedOrder = .eq) ∧ goes t (.bne mm) (.lbne mmnn) (unsignedOrder ≠ .eq) ∧
      goes t (.bhi mm) (.lbhi mmnn) (unsignedOrder = .gt) ∧ goes t (.bhs mm) (.lbhs mmnn) (unsignedOrder ≠ .lt) ∧
      goes t (.blo mm) (.lblo mmnn) (unsignedOrder = .lt) ∧ goes t (.bls mm) (.lbls mmnn) (unsignedOrder ≠ .gt) ∧
      goes t (.bgt mm) (.lbgt mmnn) (signedOrder = .gt) ∧ goes t (.bge mm) (.lbge mmnn) (signedOrder ≠ .lt) ∧
      goes t (.blt mm) (.lblt mmnn) (signedOrder = .lt) ∧ goes t (.ble mm) (.lble mmnn) (signedOrder ≠ .gt)
    let byte := fun (i : Instr) (v : Byte) => ∃ t, exec i s = .next t ∧
      SameButDevices { s.baseMoved8 src8 with cc := t.cc } t ∧
      relations t (compare v.toNat (readSrc8 src8 s).1.toNat) (compare v.toInt (readSrc8 src8 s).1.toInt)
    let word := fun (i : Instr) (v : Word) => ∃ t, exec i s = .next t ∧
      SameButDevices { s.baseMoved16 src16 with cc := t.cc } t ∧
      relations t (compare v.toNat (readSrc16 src16 s).1.toNat) (compare v.toInt (readSrc16 src16 s).1.toInt)
    byte (.cmpa src8) s.a ∧ byte (.cmpb src8) s.b ∧ word (.cmpd src16) (wordOf s.a s.b) ∧
    word (.cmpx src16) (s.baseMoved16 src16).x ∧ word (.cmpy src16) (s.baseMoved16 src16).y ∧
    word (.cmpu src16) (s.baseMoved16 src16).u ∧ word (.cmps src16) (s.baseMoved16 src16).s

/-! ### One-operand operations (43_memory_and_register_operate.md) -/

/-- R213, R214, R217, R220, R223, R226, R229, R211, R56: the shifts and rotates on memory, one read and then one write at the
effective address. (How `State` records accesses: log 7.) -/
def Obligations.ShiftsOnMemory : Prop :=
  OnMemory true .asl IsAsl ∧ OnMemory true .lsl IsAsl ∧ OnMemory true .asr IsAsr ∧ OnMemory true .lsr IsLsr ∧
  OnMemory true .rol IsRol ∧ OnMemory true .ror IsRor

/-- R213, R215, R216, R218, R219, R221, R222, R224, R225, R227, R228, R230, R231: the shifts and rotates on A and B. -/
def Obligations.ShiftsOnAccumulators : Prop :=
  OnA .asla IsAsl ∧ OnB .aslb IsAsl ∧ OnA .lsla IsAsl ∧ OnB .lslb IsAsl ∧ OnA .asra IsAsr ∧ OnB .asrb IsAsr ∧
  OnA .lsra IsLsr ∧ OnB .lsrb IsLsr ∧ OnA .rola IsRol ∧ OnB .rolb IsRol ∧ OnA .rora IsRor ∧ OnB .rorb IsRor

/-- R213, R232, R235, R238, R241, R244, R211, R56: NEG, COM, CLR, DEC, INC on memory, one read and then one write at the effective
address; whether CLR reads before it writes is the parameter `clr_reads` (R57, log 11). (How `State` records accesses: log 7.) -/
def Obligations.UnaryArithmeticOnMemory : Prop :=
  OnMemory true .neg IsNeg ∧ OnMemory true .com IsCom ∧ OnMemory Config.clrReads .clr IsClr ∧ OnMemory true .dec IsDec ∧ OnMemory true .inc IsInc

/-- R213, R233, R234, R236, R237, R239, R240, R242, R243, R245, R246: NEG, COM, CLR, DEC, INC on A and B. -/
def Obligations.UnaryArithmeticOnAccumulators : Prop :=
  OnA .nega IsNeg ∧ OnB .negb IsNeg ∧ OnA .coma IsCom ∧ OnB .comb IsCom ∧ OnA .clra IsClr ∧ OnB .clrb IsClr ∧
  OnA .deca IsDec ∧ OnB .decb IsDec ∧ OnA .inca IsInc ∧ OnB .incb IsInc

/-- R247 to R249, R213, R56: TST, TSTA, TSTB set N and Z from the byte, clear V, write nothing else; TST makes one read at the
effective address and no write. (How `State` records accesses: log 7.) -/
def Obligations.Tests : Prop :=
  ∀ (dst : MemOp) (s : State),
    let cc := fun v : Byte =>
      ({ s.cc with n := decide (v.toInt < 0), z := decide (v.toNat = 0), v := false } : CC)
    (∃ t, exec (.tst dst) s = .next t ∧
      SameButDevices { s.baseMoved dst with cc := cc (memByte dst s) } t ∧
      AccessesAtEa dst [.read (memEa dst s).1 (memByte dst s)] s t) ∧
    (∃ t, exec .tsta s = .next t ∧ t = { s with cc := cc s.a }) ∧
    (∃ t, exec .tstb s = .next t ∧ t = { s with cc := cc s.b })

/-- R250: DAA corrects each decimal digit by the rule of C, H and the digits, sets C when it was set or the correction carries, N and Z
from the result, leaves V open (log 9) and changes nothing else. The algorithm is one the spec supplies itself (log 21). -/
def Obligations.DecimalAdjust : Prop :=
  OnA .daa fun v old r new =>
    let corrected := v.toNat + (if old.h = true ∨ 9 < v.toNat % 16 then 6 else 0) +
      (if old.c = true ∨ 9 < v.toNat / 16 ∨ (8 < v.toNat / 16 ∧ 9 < v.toNat % 16) then 96 else 0)
    r.toNat = corrected % 256 ∧ (new.c = true ↔ old.c = true ∨ 256 ≤ corrected) ∧ SignAndZeroOf r new ∧
      new.h = old.h ∧ KeepsMasks old new

/-- R250, R173, R175: ADDA, or ADCA with its carry, of two packed decimal bytes and then DAA give the packed decimal sum, and in C the
decimal carry (log 21). -/
def Obligations.DecimalAddition : Prop :=
  ∀ (s : State) (x1 x0 y1 y0 : Nat), x1 < 10 → x0 < 10 → y1 < 10 → y0 < 10 →
    s.a = BitVec.ofNat 8 (16 * x1 + x0) →
    let adds := fun (i : Instr) (sum : Nat) => ∃ t u, exec i s = .next t ∧ exec .daa t = .next u ∧
      u.a.toNat = 16 * (sum / 10 % 10) + sum % 10 ∧ u.cc.c = decide (100 ≤ sum)
    let m := Src8.imm (BitVec.ofNat 8 (16 * y1 + y0))
    adds (.adda m) ((10 * x1 + x0) + (10 * y1 + y0)) ∧
    adds (.adca m) ((10 * x1 + x0) + (10 * y1 + y0) + s.cc.c.toNat)

/-! ### Jumps, calls, returns, branches (44, 45, 49) -/

/-- R262 to R264, R260, R56: BRA, LBRA and JMP change PC alone, but for the base register of an auto form; JMP makes no access at
the effective address. (How `State` records accesses: log 7.) -/
def Obligations.Jumps : Prop :=
  (∀ (disp : Byte) (s : State), ∃ t, exec (.bra disp) s = .next t ∧
    t = { s with pc := s.pc + disp.signExtend 16 }) ∧
  (∀ (disp : Word) (s : State), ∃ t, exec (.lbra disp) s = .next t ∧ t = { s with pc := s.pc + disp }) ∧
  (∀ (dst : MemOp) (s : State), ∃ t, exec (.jmp dst) s = .next t ∧
    SameButDevices { s.baseMoved dst with pc := (memEa dst s).1 } t ∧ AccessesAtEa dst [] s t)

/-- R266 to R268, R272, R56, R14: BSR, LBSR and JSR store the address of the next instruction on the S stack, high byte at the
lower address, lower S by 2 and go to the target, which JSR forms before the push; nothing else changes; the two byte writes of the
push, low byte first, are their only accesses, JSR's pointer read apart. (How `State` records accesses: log 7.) -/
def Obligations.Calls : Prop :=
  ∀ s : State, Memory.wf s.mem = true →
    let pushed := fun u : State =>
      [BusEvent.write (u.s - 2#16) (hiByte s.pc), BusEvent.write (u.s - 1#16) (loByte s.pc)]
    (∀ disp : Byte, ∃ t, exec (.bsr disp) s = .next t ∧ WroteWord s (s.s - 2#16) s.pc t ∧
      SameButMemory { s with s := s.s - 2#16, pc := s.pc + disp.signExtend 16 } t ∧ Accessed (pushed s) s t) ∧
    (∀ disp : Word, ∃ t, exec (.lbsr disp) s = .next t ∧ WroteWord s (s.s - 2#16) s.pc t ∧
      SameButMemory { s with s := s.s - 2#16, pc := s.pc + disp } t ∧ Accessed (pushed s) s t) ∧
    (∀ dst : MemOp, ∃ t, exec (.jsr dst) s = .next t ∧ WroteWord s ((s.baseMoved dst).s - 2#16) s.pc t ∧
      SameButMemory { s.baseMoved dst with s := (s.baseMoved dst).s - 2#16, pc := (memEa dst s).1 } t ∧
      AccessesAtEa dst (pushed (s.baseMoved dst)) s t)

/-- R270, R14: RTS takes PC from the S stack by two byte reads, high byte first, and raises S by 2; nothing else changes. (How
`State` records accesses: log 7.) -/
def Obligations.Return : Prop :=
  ∀ s : State, ∃ t, exec .rts s = .next t ∧ SameButDevices { s with s := s.s + 2#16, pc := t.pc } t ∧
    Accessed (wordRead s.s t.pc) s t ∧
    (readable s.memMap s.s 2 = true → t = { s with
      s := s.s + 2#16, pc := wordOf (s.cell s.s) (s.cell (s.s + 1#16)) })

/-- R270, R272: an RTS with the stack a JSR left, where the stack is RAM, comes back to the instruction after the JSR and to the S
before the push. -/
def Obligations.ReturnUndoesCall : Prop :=
  ∀ (dst : MemOp) (s t u : State), Memory.wf s.mem = true → exec (.jsr dst) s = .next t →
    ramBelow s.memMap (s.baseMoved dst).s 2 = true → u.s = t.s → u.mem = t.mem → u.memMap = t.memMap →
    ∃ v, exec .rts u = .next v ∧ v = { u with s := (s.baseMoved dst).s, pc := s.pc }

/-- R281, R280: the sixteen condition numbers: each short opcode `2c` and long opcode `10 2c` is the branch on the condition of the
table, tested on CC as it stands before the instruction; an odd number is the negation of the even one below it. -/
def Obligations.ConditionNumbers : Prop :=
  let row := fun (c : Nat) (short : Byte → Instr) (long : Word → Instr) (longOp : List Byte) (cond : CC → Prop) =>
    (∀ mm rest, decode (BitVec.ofNat 8 (0x20 + c) :: mm :: rest) = .ok (short mm)) ∧
    (∀ mm nn rest, decode (longOp ++ mm :: nn :: rest) = .ok (long (wordOf mm nn))) ∧
    BranchesWhen short cond ∧ BranchesWhen long cond
  row 0x0 .bra .lbra [0x16] (fun _ => True) ∧ row 0x1 .brn .lbrn [0x10, 0x21] (fun _ => ¬ True) ∧
  row 0x2 .bhi .lbhi [0x10, 0x22] (fun cc => cc.c = false ∧ cc.z = false) ∧
  row 0x3 .bls .lbls [0x10, 0x23] (fun cc => ¬ (cc.c = false ∧ cc.z = false)) ∧
  row 0x4 .bcc .lbcc [0x10, 0x24] (fun cc => cc.c = false) ∧
  row 0x5 .bcs .lbcs [0x10, 0x25] (fun cc => ¬ cc.c = false) ∧
  row 0x6 .bne .lbne [0x10, 0x26] (fun cc => cc.z = false) ∧
  row 0x7 .beq .lbeq [0x10, 0x27] (fun cc => ¬ cc.z = false) ∧
  row 0x8 .bvc .lbvc [0x10, 0x28] (fun cc => cc.v = false) ∧
  row 0x9 .bvs .lbvs [0x10, 0x29] (fun cc => ¬ cc.v = false) ∧
  row 0xA .bpl .lbpl [0x10, 0x2A] (fun cc => cc.n = false) ∧
  row 0xB .bmi .lbmi [0x10, 0x2B] (fun cc => ¬ cc.n = false) ∧
  row 0xC .bge .lbge [0x10, 0x2C] (fun cc => cc.n = cc.v) ∧
  row 0xD .blt .lblt [0x10, 0x2D] (fun cc => ¬ cc.n = cc.v) ∧
  row 0xE .bgt .lbgt [0x10, 0x2E] (fun cc => cc.z = false ∧ cc.n = cc.v) ∧
  row 0xF .ble .lble [0x10, 0x2F] (fun cc => ¬ (cc.z = false ∧ cc.n = cc.v)) ∧
  BranchesWhen .bhs (fun cc => cc.c = false) ∧ BranchesWhen .blo (fun cc => ¬ cc.c = false) ∧
  BranchesWhen .lbhs (fun cc => cc.c = false) ∧ BranchesWhen .lblo (fun cc => ¬ cc.c = false)

/-- R370 to R373: NOP, BRN and LBRN change nothing; PC is at the next instruction already. -/
def Obligations.NoOperations : Prop :=
  ∀ s : State, (∃ t, exec .nop s = .next t ∧ t = s) ∧ (∀ disp, ∃ t, exec (.brn disp) s = .next t ∧ t = s) ∧
    (∀ disp, ∃ t, exec (.lbrn disp) s = .next t ∧ t = s)

/-! ### Register moves and operations (46_register_move_and_operate.md) -/

/-- R323, R321: EXG of two 16-bit registers and of two 8-bit registers swaps them and changes no other register, flag or byte;
D, A and B apart from each other. Arming NMI is `nmi_arm_rule` (R392, log 10). -/
def Obligations.Exchanges : Prop :=
  (∀ (p q : Reg16) (s : State), ∃ t, exec (.exg (.wide p) (.wide q)) s = .next t ∧
    t.get16 p = s.get16 q ∧ t.get16 q = s.get16 p ∧ (∀ r, r ≠ p → r ≠ q → t.get16 r = s.get16 r) ∧
    t = { s with a := t.a, b := t.b, x := t.x, y := t.y, u := t.u, s := t.s, pc := t.pc, nmiArmed := t.nmiArmed } ∧
    (p ≠ .s → q ≠ .s → t.nmiArmed = s.nmiArmed)) ∧
  (∀ (p q : Reg8) (s : State), ∃ t, exec (.exg (.narrow p) (.narrow q)) s = .next t ∧
    t.get8 p = s.get8 q ∧ t.get8 q = s.get8 p ∧ (∀ r, r ≠ p → r ≠ q → t.get8 r = s.get8 r) ∧
    t = { s with a := t.a, b := t.b, cc := t.cc, dp := t.dp })

/-- R324, R321: TFR copies and changes nothing else. Arming NMI is `nmi_arm_rule` (R392, log 10). -/
def Obligations.Transfers : Prop :=
  (∀ (p q : Reg16) (s : State), ∃ t, exec (.tfr (.wide p) (.wide q)) s = .next t ∧
    t.get16 q = s.get16 p ∧ (∀ r, r ≠ q → t.get16 r = s.get16 r) ∧
    t = { s with a := t.a, b := t.b, x := t.x, y := t.y, u := t.u, s := t.s, pc := t.pc, nmiArmed := t.nmiArmed } ∧
    (q ≠ .s → t.nmiArmed = s.nmiArmed)) ∧
  (∀ (p q : Reg8) (s : State), ∃ t, exec (.tfr (.narrow p) (.narrow q)) s = .next t ∧
    t.get8 q = s.get8 p ∧ (∀ r, r ≠ q → t.get8 r = s.get8 r) ∧
    t = { s with a := t.a, b := t.b, cc := t.cc, dp := t.dp })

/-- R322: of the 256 register pairs, 52 are defined, those of two listed registers of one width; the others are no instruction. The
codes are those the spec supplies from general knowledge (log 17). -/
def Obligations.RegisterPairs : Prop :=
  (∀ op ∈ ([0x1E, 0x1F] : List Byte), ∀ (pb : Byte) (rest : List Byte),
    decode (op :: pb :: rest) = .error .undefinedRegpair ↔
      ¬ (pb.toNat / 16 < 6 ∧ pb.toNat % 16 < 6 ∨
        8 ≤ pb.toNat / 16 ∧ pb.toNat / 16 < 12 ∧ 8 ≤ pb.toNat % 16 ∧ pb.toNat % 16 < 12)) ∧
  (∀ (p : Reg16) (q : Reg8) (s : State),
    exec (.exg (.wide p) (.narrow q)) s = .refused .undefinedRegpair ∧
    exec (.exg (.narrow q) (.wide p)) s = .refused .undefinedRegpair ∧
    exec (.tfr (.wide p) (.narrow q)) s = .refused .undefinedRegpair ∧
    exec (.tfr (.narrow q) (.wide p)) s = .refused .undefinedRegpair)

/-- R325 to R327: ABX adds B unsigned to X and writes no flag; MUL is the unsigned product, Z from all of it, C its bit 7; SEX makes
D the signed value of B, N and Z from it. -/
def Obligations.AbxMulSex : Prop :=
  ∀ s : State,
    (∃ t, exec .abx s = .next t ∧ t = { s with x := t.x } ∧ t.x.toNat = (s.x.toNat + s.b.toNat) % 65536) ∧
    (∃ t, exec .mul s = .next t ∧
      t = { s with a := t.a, b := t.b, cc := { s.cc with z := t.cc.z, c := t.cc.c } } ∧
      256 * t.a.toNat + t.b.toNat = s.a.toNat * s.b.toNat ∧
      t.cc.z = decide (s.a.toNat * s.b.toNat = 0) ∧ t.cc.c = t.b.getLsbD 7) ∧
    (∃ t, exec .sex s = .next t ∧ t = { s with a := t.a, cc := { s.cc with n := t.cc.n, z := t.cc.z } } ∧
      (wordOf t.a t.b).toInt = s.b.toInt ∧ SignAndZeroOf (wordOf t.a t.b) t.cc)

/-- R328 to R332, R125, R56: LEAX and LEAY load the effective address and set Z from it; LEAS and LEAU load it and write no flag;
the base register of an auto form moves first (log 16); there is no access at the effective address. Whether LEAS arms NMI is
`nmi_arm_rule` (R392, log 10). (How `State` records accesses: log 7.) -/
def Obligations.LoadEffectiveAddress : Prop :=
  ∀ (form : Idx) (s : State), let m := MemOp.idx form; let ea := (memEa m s).1
    let cc : CC := { s.cc with z := decide (ea.toNat = 0) }
    (∃ t, exec (.leax form) s = .next t ∧ SameButDevices { s.baseMoved m with x := ea, cc := cc } t ∧
      AccessesAtEa m [] s t) ∧
    (∃ t, exec (.leay form) s = .next t ∧ SameButDevices { s.baseMoved m with y := ea, cc := cc } t ∧
      AccessesAtEa m [] s t) ∧
    (∃ t, exec (.leas form) s = .next t ∧
      SameButDevices { s.baseMoved m with s := ea, nmiArmed := t.nmiArmed } t ∧
      (s.nmiArmed = true → t.nmiArmed = true) ∧ AccessesAtEa m [] s t) ∧
    (∃ t, exec (.leau form) s = .next t ∧ SameButDevices { s.baseMoved m with u := ea } t ∧ AccessesAtEa m [] s t)

/-! ### Stacks (47_stack.md) -/

/-- R341, R342, R345: PSHS and PSHU lower their stack pointer by the bytes of the list and change no other register; the registers lie
from it up in the order CC, A, B, DP, X, Y, the other stack pointer, PC, where the stack is RAM; no byte above is touched. -/
def Obligations.Pushes : Prop :=
  ∀ (list : Byte) (s : State), let n := listCount list
    (∃ t, exec (.pshs list) s = .next t ∧ SameButMemory { s with s := s.s - BitVec.ofNat 16 n } t ∧
      (∀ k, isBelow s.s k n = false → t.cell k = s.cell k) ∧
      (Memory.wf s.mem = true → ramBelow s.memMap s.s n = true → t.holds t.s (listBytes .s list s))) ∧
    (∃ t, exec (.pshu list) s = .next t ∧ SameButMemory { s with u := s.u - BitVec.ofNat 16 n } t ∧
      (∀ k, isBelow s.u k n = false → t.cell k = s.cell k) ∧
      (Memory.wf s.mem = true → ramBelow s.memMap s.u n = true → t.holds t.u (listBytes .u list s)))

/-- R343: PULS loads the registers of the list from where S points, in the order of PSHS, raises S by their bytes, and changes nothing
else; the first clause says what it leaves alone whatever the stack is. -/
def Obligations.PullsFromS : Prop :=
  ∀ (list : Byte) (s : State), let S := s.s + BitVec.ofNat 16 (listCount list)
    let loaded := fun v : State => { s with
      s := S
      cc := if list.getLsbD 0 then v.cc else s.cc, a := if list.getLsbD 1 then v.a else s.a
      b := if list.getLsbD 2 then v.b else s.b, dp := if list.getLsbD 3 then v.dp else s.dp
      x := if list.getLsbD 4 then v.x else s.x, y := if list.getLsbD 5 then v.y else s.y
      u := if list.getLsbD 6 then v.u else s.u, pc := if list.getLsbD 7 then v.pc else s.pc }
    (∃ t, exec (.puls list) s = .next t ∧ SameButDevices (loaded t) t) ∧
    (∀ v : State, s.holds s.s (listBytes .s list v) → ∃ t, exec (.puls list) s = .next t ∧ t = loaded v)

/-- R344: PULU, as PULS with U and S changed places; whether a pulled S arms NMI is `nmi_arm_rule` (R392, log 10). -/
def Obligations.PullsFromU : Prop :=
  ∀ (list : Byte) (s : State), let U := s.u + BitVec.ofNat 16 (listCount list)
    let loaded := fun (v : State) (armed : Bool) => { s with
      u := U
      cc := if list.getLsbD 0 then v.cc else s.cc, a := if list.getLsbD 1 then v.a else s.a
      b := if list.getLsbD 2 then v.b else s.b, dp := if list.getLsbD 3 then v.dp else s.dp
      x := if list.getLsbD 4 then v.x else s.x, y := if list.getLsbD 5 then v.y else s.y
      s := if list.getLsbD 6 then v.s else s.s, pc := if list.getLsbD 7 then v.pc else s.pc
      nmiArmed := armed }
    (∃ t, exec (.pulu list) s = .next t ∧ SameButDevices (loaded t t.nmiArmed) t ∧
      (list.getLsbD 6 = false → t.nmiArmed = s.nmiArmed)) ∧
    (∀ v : State, s.holds s.u (listBytes .u list v) →
      ∃ t, exec (.pulu list) s = .next t ∧ t = loaded v t.nmiArmed)

/-- R343: PULS is the exact inverse of PSHS with the same post byte, where the stack is RAM, whatever the registers have become. -/
def Obligations.PullUndoesPush : Prop :=
  ∀ (list : Byte) (s t u : State), Memory.wf s.mem = true → ramBelow s.memMap s.s (listCount list) = true →
    exec (.pshs list) s = .next t → u.s = t.s → u.mem = t.mem → u.memMap = t.memMap →
    ∃ v, exec (.puls list) u = .next v ∧ v.s = s.s ∧ v.mem = t.mem ∧
      (list.getLsbD 0 = true → v.cc = s.cc) ∧ (list.getLsbD 1 = true → v.a = s.a) ∧
      (list.getLsbD 2 = true → v.b = s.b) ∧ (list.getLsbD 3 = true → v.dp = s.dp) ∧
      (list.getLsbD 4 = true → v.x = s.x) ∧ (list.getLsbD 5 = true → v.y = s.y) ∧
      (list.getLsbD 6 = true → v.u = s.u) ∧ (list.getLsbD 7 = true → v.pc = s.pc)

/-- R351: `PushAll` is the twelve `Push8` of the rule in its order, is the push of the list 0xFF, lowers S by 12, and leaves S at the
saved CC; where the stack is RAM the registers lie from there up. -/
def Obligations.PushAllIsPshsOfEverything : Prop :=
  ∀ s : State,
    (∀ (t : State) (v : Byte), t.push8 .s v = State.write8 { t with s := t.s - 1#16 } (t.s - 1#16) v) ∧
    s.pushAll = [loByte s.pc, hiByte s.pc, loByte s.u, hiByte s.u, loByte s.y, hiByte s.y, loByte s.x, hiByte s.x,
      s.dp, s.b, s.a, s.cc.toByte].foldl (fun t v => t.push8 .s v) s ∧
    s.pushAll = pushList .s 0xFF#8 s ∧ s.pushAll.s = s.s - 12#16 ∧
    (Memory.wf s.mem = true → ramBelow s.memMap s.s 12 = true →
      s.pushAll.holds (s.s - 12#16) [s.cc.toByte, s.a, s.b, s.dp, hiByte s.x, loByte s.x, hiByte s.y, loByte s.y,
        hiByte s.u, loByte s.u, hiByte s.pc, loByte s.pc] ∧ s.pushAll.cell s.pushAll.s = s.cc.toByte)

/-! ### Interrupts and status (48_interrupt_and_status.md, 60_exceptions.md) -/

/-- R352 to R354, R381, R393: SWI, SWI2, SWI3 stack the entire frame with E = 1 and go through their vectors; SWI sets I and F, the
others leave them; an NMI request stays as it was. -/
def Obligations.SoftwareInterrupts : Prop :=
  ∀ s : State,
    (∃ t, exec .swi s = .next t ∧ Entered 0xFFFA#16 true true true s t ∧ t.nmiRequest = s.nmiRequest) ∧
    (∃ t, exec .swi2 s = .next t ∧ Entered 0xFFF4#16 true false false s t ∧ t.nmiRequest = s.nmiRequest) ∧
    (∃ t, exec .swi3 s = .next t ∧ Entered 0xFFF2#16 true false false s t ∧ t.nmiRequest = s.nmiRequest)

/-- R386 to R391, R403: between two instructions, with no reset, the machine takes NMI, else FIRQ with F = 0, else IRQ with I = 0, each
through its vector with its frame and masks, NMI consuming its request; else it fetches at PC. The sequences and FIRQ before IRQ are what
the spec supplies from general knowledge (log 19, log 23); that NMI asks for the request and for `nmi_armed` is log 20. -/
def Obligations.InterruptAcceptance : Prop :=
  ∀ s : State, s.run = .running → s.nextInputs.reset = false →
    let u := s.consumeInputs.latchNmi s.nextInputs
    if u.nmiRequest = true ∧ u.nmiArmed = true then
      ∃ t, step s = .next t ∧ Entered 0xFFFC#16 true true true u t ∧ t.nmiRequest = false
    else if s.nextInputs.firq = true ∧ s.cc.f = false then
      ∃ t, step s = .next t ∧ Entered 0xFFF6#16 false true true u t ∧ t.nmiRequest = u.nmiRequest
    else if s.nextInputs.irq = true ∧ s.cc.i = false then
      ∃ t, step s = .next t ∧ Entered 0xFFF8#16 true true false u t ∧ t.nmiRequest = u.nmiRequest
    else boundary s = .execute u

/-- R396: the two stack frames, byte by byte from S' up, of every event that stacks one, and of CWAI. -/
def Obligations.StackFrames : Prop :=
  ∀ s : State, Memory.wf s.mem = true →
    let entire := fun t : State => t.s = s.s - 12#16 ∧
      t.cell t.s = ({ t.cc with i := s.cc.i, f := s.cc.f } : CC).toByte ∧ t.cc.e = true ∧
      t.cell (t.s + 1#16) = s.a ∧ t.cell (t.s + 2#16) = s.b ∧ t.cell (t.s + 3#16) = s.dp ∧
      t.cell (t.s + 4#16) = hiByte s.x ∧ t.cell (t.s + 5#16) = loByte s.x ∧
      t.cell (t.s + 6#16) = hiByte s.y ∧ t.cell (t.s + 7#16) = loByte s.y ∧
      t.cell (t.s + 8#16) = hiByte s.u ∧ t.cell (t.s + 9#16) = loByte s.u ∧
      t.cell (t.s + 10#16) = hiByte s.pc ∧ t.cell (t.s + 11#16) = loByte s.pc
    (ramBelow s.memMap s.s 12 = true →
      (∀ ev : Event, ev ≠ .firq → entire (s.takeEvent ev)) ∧
      (∃ t, exec (.cwai 0xFF#8) s = .next t ∧ entire t) ∧
      s.pushAll = pushList .s 0xFF#8 s) ∧
    (ramBelow s.memMap s.s 3 = true →
      (s.takeEvent .firq).s = s.s - 3#16 ∧
      (s.takeEvent .firq).cell (s.s - 3#16) = ({ s.cc with e := false } : CC).toByte ∧
      (s.takeEvent .firq).cell (s.s - 2#16) = hiByte s.pc ∧
      (s.takeEvent .firq).cell (s.s - 1#16) = loByte s.pc)

/-- R355: RTI restores the frame on the S stack: all of it when the pulled CC has E = 1, CC and PC when it has E = 0; the first clause
says what it leaves alone whatever the stack is. -/
def Obligations.ReturnFromInterrupt : Prop :=
  ∀ s : State,
    (∃ t, exec .rti s = .next t ∧ SameButDevices
      (if t.cc.e then { s with
          s := s.s + 12#16, cc := t.cc, a := t.a, b := t.b, dp := t.dp, x := t.x, y := t.y, u := t.u, pc := t.pc }
        else { s with s := s.s + 3#16, cc := t.cc, pc := t.pc }) t) ∧
    (∀ v : State, v.cc.e = true → s.holds s.s (frameBytes true v) → ∃ t, exec .rti s = .next t ∧ t = { s with
      s := s.s + 12#16, cc := v.cc, a := v.a, b := v.b, dp := v.dp, x := v.x, y := v.y, u := v.u, pc := v.pc }) ∧
    (∀ v : State, v.cc.e = false → s.holds s.s (frameBytes false v) → ∃ t, exec .rti s = .next t ∧ t = { s with
      s := s.s + 3#16, cc := v.cc, pc := v.pc })

/-- R397, R395: RTI undoes the entry of every event but reset: with S and memory as the entry left them, and RAM where it stacked, it
restores S, PC and CC with the masks from before, and after an entire frame A, B, DP, X, Y and U as well, whatever the handler left in
the registers. -/
def Obligations.ReturnUndoesEntry : Prop :=
  ∀ (ev : Event) (s u : State), Memory.wf s.mem = true →
    ramBelow s.memMap s.s (if ev = .firq then 3 else 12) = true →
    u.s = (s.takeEvent ev).s → u.mem = (s.takeEvent ev).mem → u.memMap = s.memMap →
    ∃ t, exec .rti u = .next t ∧
      if ev = .firq then t = { u with s := s.s, pc := s.pc, cc := { s.cc with e := false } }
      else t = { u with
        s := s.s, pc := s.pc, cc := { s.cc with e := true }
        a := s.a, b := s.b, dp := s.dp, x := s.x, y := s.y, u := s.u }

/-- R356, R396: CWAI clears the CC bits whose mask bit is 0, sets E, stacks the entire frame with that CC, and waits with PC at the next
instruction. -/
def Obligations.ClearAndWait : Prop :=
  ∀ (data : Byte) (s : State),
    let cc : CC :=
      { e := true, f := s.cc.f && data.getLsbD 6, h := s.cc.h && data.getLsbD 5, i := s.cc.i && data.getLsbD 4
        n := s.cc.n && data.getLsbD 3, z := s.cc.z && data.getLsbD 2, v := s.cc.v && data.getLsbD 1
        c := s.cc.c && data.getLsbD 0 }
    ∃ t, exec (.cwai data) s = .next t ∧ SameButMemory { s with s := s.s - 12#16, cc := cc, run := .cwaiWait } t ∧
      (∀ k, isBelow s.s k 12 = false → t.cell k = s.cell k) ∧
      (Memory.wf s.mem = true → ramBelow s.memMap s.s 12 = true →
        t.holds t.s (frameBytes true { s with cc := cc }))

/-- R401, R384: in CWAI, with no reset, an armed NMI, FIRQ with F = 0 and IRQ with I = 0, in this order, end the wait: the masks are set
and PC is the word of the vector, nothing is stacked and E stays; anything else leaves everything as it is (log 19, log 20). -/
def Obligations.CwaiWake : Prop :=
  ∀ s : State, s.run = .cwaiWait → s.nextInputs.reset = false →
    let u := s.consumeInputs.latchNmi s.nextInputs
    let woke := fun (t : State) (vector : Word) (setF request : Bool) =>
      SameButDevices { u with
        run := .running, cc := { s.cc with i := true, f := s.cc.f || setF }, pc := t.pc, nmiRequest := request } t ∧
      (readable s.memMap vector 2 = true → t.pc = wordOf (s.cell vector) (s.cell (vector + 1#16)))
    ∃ t, step s = .next t ∧
      if u.nmiRequest = true ∧ u.nmiArmed = true then woke t 0xFFFC#16 true false
      else if s.nextInputs.firq = true ∧ s.cc.f = false then woke t 0xFFF6#16 true u.nmiRequest
      else if s.nextInputs.irq = true ∧ s.cc.i = false then woke t 0xFFF8#16 false u.nmiRequest
      else t = u

/-- R357: SYNC changes nothing but that the machine waits. R400, R386: in SYNC, with no reset, an armed NMI, FIRQ or IRQ, masked or not,
ends the wait, and the step goes on as one between two instructions; anything else leaves everything as it is. -/
def Obligations.SyncAndWake : Prop :=
  (∀ s : State, ∃ t, exec .sync s = .next t ∧ t = { s with run := .syncWait }) ∧
  (∀ s : State, s.run = .syncWait → s.nextInputs.reset = false →
    let u := s.consumeInputs.latchNmi s.nextInputs
    if (u.nmiRequest = true ∧ u.nmiArmed = true) ∨ s.nextInputs.firq = true ∨ s.nextInputs.irq = true then
      step s = step { s with run := .running }
    else ∃ t, step s = .next t ∧ t = u)

/-- R358, R359: ANDCC clears exactly the CC bits whose mask bit is 0, ORCC sets exactly those whose mask bit is 1; nothing else
changes. -/
def Obligations.ConditionCodeMasks : Prop :=
  ∀ (data : Byte) (s : State),
    (∃ t, exec (.andcc data) s = .next t ∧ t = { s with cc :=
      { e := s.cc.e && data.getLsbD 7, f := s.cc.f && data.getLsbD 6, h := s.cc.h && data.getLsbD 5
        i := s.cc.i && data.getLsbD 4, n := s.cc.n && data.getLsbD 3, z := s.cc.z && data.getLsbD 2
        v := s.cc.v && data.getLsbD 1, c := s.cc.c && data.getLsbD 0 } }) ∧
    (∃ t, exec (.orcc data) s = .next t ∧ t = { s with cc :=
      { e := s.cc.e || data.getLsbD 7, f := s.cc.f || data.getLsbD 6, h := s.cc.h || data.getLsbD 5
        i := s.cc.i || data.getLsbD 4, n := s.cc.n || data.getLsbD 3, z := s.cc.z || data.getLsbD 2
        v := s.cc.v || data.getLsbD 1, c := s.cc.c || data.getLsbD 0 } })

/-- R392: no instruction disarms NMI, and none but LDS, LEAS, a TFR to S, an EXG with S and a PULU of S arms it; LDS always does. -/
def Obligations.WhatArmsNmi : Prop :=
  ∀ (i : Instr) (s t : State), exec i s = .next t →
    (s.nmiArmed = true → t.nmiArmed = true) ∧
    ((∃ src, i = .lds src) → t.nmiArmed = true) ∧
    (s.nmiArmed = false → t.nmiArmed = true →
      (∃ src, i = .lds src) ∨ (∃ form, i = .leas form) ∨ (∃ r, i = .tfr r (.wide .s)) ∨
      (∃ r, i = .exg r (.wide .s) ∨ i = .exg (.wide .s) r) ∨ (∃ list, i = .pulu list ∧ list.getLsbD 6 = true))

/-! ### Reset and the machine as a whole -/

/-- R421: DP, I, F, `run`, `nmi_armed`, `nmi_request` right after reset, and PC as the word at the reset vector of the reset memory,
whose content is the model's choice (log 1). The other registers are the model's choice too (log 2) and are not stated. -/
def Obligations.ResetState : Prop :=
  State.reset.dp = 0x00#8 ∧ State.reset.cc.i = true ∧ State.reset.cc.f = true ∧ State.reset.run = .running ∧
  State.reset.nmiArmed = false ∧ State.reset.nmiRequest = false ∧
  State.reset.pc = (State.reset.read16 0xFFFE#16).1

/-- R420, R402: a reset, in any state and whatever else is requested, sets DP, I, F, the NMI latches and `run`, loads PC from 0xFFFE,
stacks nothing and writes no memory. (What becomes of the other registers is log 4.) -/
def Obligations.ResetEvent : Prop :=
  ∀ s : State, s.nextInputs.reset = true →
    ∃ t, step s = .next t ∧ t.dp = 0x00#8 ∧ t.cc.i = true ∧ t.cc.f = true ∧ t.nmiArmed = false ∧
      t.nmiRequest = false ∧ t.run = .running ∧ t.mem = s.mem ∧ t.memMap = s.memMap ∧
      (readable s.memMap 0xFFFE#16 2 = true → t.pc = wordOf (s.cell 0xFFFE#16) (s.cell 0xFFFF#16))

/-- R403, R91: where the step takes an instruction and the bytes at PC decode to `i`, the step is `exec i` on the state with `i`
fetched and PC past it. That the decoder looks at five bytes (`window`) and that `i`'s own bytes alone are then read (`afterFetch`)
is the model's reading of these rules (log 26). -/
def Obligations.StepRunsDecoded : Prop :=
  ∀ (s u : State) (i : Instr), boundary s = .execute u → decode u.window = .ok i →
    step s = exec i (u.afterFetch (instrLength i)) ∧
    (u.afterFetch (instrLength i)).pc = u.pc + BitVec.ofNat 16 (instrLength i)

/-- R403, R53, R66, R13: where the step takes an instruction, and RAM or ROM holds the encoding of a well-formed instruction at PC, the
step is that instruction, run with PC past it and nothing else changed by the fetch. -/
def Obligations.StepRunsTheInstructionAtPc : Prop :=
  ∀ (s : State) (i : Instr), wellFormed i = true → s.executes → s.holds s.pc (encode i) →
    step s = exec (canonical i)
      { s.consumeInputs.latchNmi s.nextInputs with pc := s.pc + BitVec.ofNat 16 (instrLength i) }

/-- R15, R382: a step is refused only where the bytes at PC are no instruction, with the name of what is undefined; in every other case
it answers a next state. -/
def Obligations.StepStopsOnlyOnUndefinedEncodings : Prop :=
  ∀ s : State, (∃ t, step s = .next t) ∨
    ∃ u e, boundary s = .execute u ∧ decode u.window = .error e ∧ step s = .refused (refusalOf e)

/-- The invariant holds at reset: memory is canonical (the model's form, log 1), and no NMI request is latched while NMI is disarmed
(R392). -/
def Obligations.InvariantAtReset : Prop := State.reset.Inv

/-- Every step, from any state that has it, keeps the invariant: the canonical form of memory (the model's, log 1), and R392, no NMI
request latched while NMI is disarmed. -/
def Obligations.StepKeepsInvariant : Prop :=
  ∀ s t : State, s.Inv → step s = .next t → t.Inv

/-- R58, R60: no step changes the memory map or what a cell that is not RAM holds: a ROM stays as it is in every run, from any state
(the map as data in State is the model's choice, log 6). -/
def Obligations.RomNeverChanges : Prop :=
  ∀ s t : State, Reachable s t → t.memMap = s.memMap ∧
    ∀ k : Word, kindAt s.memMap k ≠ .ram → t.cell k = s.cell k
end

