-- ==== Sys2Proof/Laws/Memory.lean ====
section
/-! SUPPORT. The laws of the sparse memory: a write is read back, other addresses keep their byte, and every operation keeps
the canonical form, in which equal contents are equal lists. -/

namespace Sys2Proof.Machine

/-- A smaller bound is a weaker condition. -/
theorem Memory.wfFrom_mono {m : Memory} {low high : Nat} (h : low ≤ high) (hw : Memory.wfFrom high m = true) :
    Memory.wfFrom low m = true := by
  cases m with
  | nil => rfl
  | cons cell rest =>
    obtain ⟨k, v⟩ := cell
    simp only [Memory.wfFrom, Bool.and_eq_true, decide_eq_true_eq] at hw ⊢
    exact ⟨⟨⟨Nat.le_trans h hw.1.1.1, hw.1.1.2⟩, hw.1.2⟩, hw.2⟩

/-- Below its first address a memory in canonical form reads as unlisted. -/
theorem Memory.get_below {m : Memory} {low k : Nat} (hw : Memory.wfFrom low m = true) (h : k < low) :
    Memory.get m k = Config.unlisted := by
  induction m generalizing low with
  | nil => rfl
  | cons cell rest ih =>
    obtain ⟨j, w⟩ := cell
    simp only [Memory.wfFrom, Bool.and_eq_true, decide_eq_true_eq] at hw
    have hj : j ≠ k := by omega
    simp only [Memory.get, if_neg hj]
    exact ih hw.2 (by omega)

/-- A byte reads back as it was written. -/
theorem Memory.get_set_same (m : Memory) (k : Nat) (v : Byte) {low : Nat} (hw : Memory.wfFrom low m = true) :
    Memory.get (Memory.set m k v) k = v := by
  induction m generalizing low with
  | nil =>
    by_cases hv : v = Config.unlisted <;> simp [Memory.set, Memory.get, hv]
  | cons cell rest ih =>
    obtain ⟨j, w⟩ := cell
    simp only [Memory.wfFrom, Bool.and_eq_true, decide_eq_true_eq] at hw
    unfold Memory.set
    split
    · rename_i hlt
      simp only [Memory.get, if_neg (Nat.ne_of_lt hlt)]
      exact ih hw.2
    · rename_i hge
      by_cases hv : v = Config.unlisted
      · by_cases hj : j = k
        · simp only [hv, if_pos hj, if_true]
          exact Memory.get_below hw.2 (by omega)
        · simp only [hv, if_neg hj, if_true, Memory.get]
          exact Memory.get_below hw.2 (by omega)
      · simp [hv, Memory.get]

/-- A write leaves every other address alone. -/
theorem Memory.get_set_other (m : Memory) {k j : Nat} (v : Byte) (h : k ≠ j) :
    Memory.get (Memory.set m j v) k = Memory.get m k := by
  induction m with
  | nil =>
    by_cases hv : v = Config.unlisted <;> simp [Memory.set, Memory.get, hv, Ne.symm h]
  | cons cell rest ih =>
    obtain ⟨i, w⟩ := cell
    unfold Memory.set
    split
    · simp only [Memory.get, ih]
    · by_cases hv : v = Config.unlisted <;> by_cases hi : i = j <;>
        simp [hv, hi, Memory.get, Ne.symm h]

/-- What a read gives after a write. -/
theorem Memory.get_set (m : Memory) (k j : Nat) (v : Byte) (hw : Memory.wf m = true) :
    Memory.get (Memory.set m j v) k = if k = j then v else Memory.get m k := by
  by_cases h : k = j
  · simp [h, Memory.get_set_same m j v hw]
  · simp [h, Memory.get_set_other m v h]

/-- A write at or above `low` keeps the canonical form from `low` on. -/
theorem Memory.wfFrom_set {m : Memory} {low k : Nat} {v : Byte} (hw : Memory.wfFrom low m = true) (hl : low ≤ k)
    (hk : k < 2 ^ 16) : Memory.wfFrom low (Memory.set m k v) = true := by
  induction m generalizing low with
  | nil =>
    by_cases hv : v = Config.unlisted <;> simp [Memory.set, Memory.wfFrom, hv, hl]
    omega
  | cons cell rest ih =>
    obtain ⟨j, w⟩ := cell
    have hw' := hw
    simp only [Memory.wfFrom, Bool.and_eq_true, decide_eq_true_eq] at hw
    unfold Memory.set
    split
    · simp only [Memory.wfFrom, Bool.and_eq_true, decide_eq_true_eq]
      exact ⟨hw.1, ih hw.2 (by omega)⟩
    · rename_i hge
      have tail : ∀ lo, (lo ≤ low ∨ lo ≤ k + 1) →
          (j ≠ k → lo ≤ j) →
          Memory.wfFrom lo (if j = k then rest else (j, w) :: rest) = true := by
        intro lo hlo hj
        by_cases he : j = k
        · rw [if_pos he]; exact Memory.wfFrom_mono (by omega) hw.2
        · rw [if_neg he]
          simp only [Memory.wfFrom, Bool.and_eq_true, decide_eq_true_eq]
          exact ⟨⟨⟨hj he, hw.1.1.2⟩, hw.1.2⟩, hw.2⟩
      by_cases hv : v = Config.unlisted
      · simp only [if_pos hv]
        exact tail low (Or.inl (Nat.le_refl _)) (fun _ => hw.1.1.1)
      · simp only [if_neg hv, Memory.wfFrom, Bool.and_eq_true, decide_eq_true_eq, bne_iff_ne, ne_eq]
        exact ⟨⟨⟨hl, hk⟩, hv⟩, tail (k + 1) (Or.inr (Nat.le_refl _)) (fun h => by omega)⟩

/-- A write to an address of the 16-bit space keeps the canonical form. -/
theorem Memory.wf_set {m : Memory} (hw : Memory.wf m = true) (addr : Word) (v : Byte) :
    Memory.wf (Memory.set m addr.toNat v) = true :=
  Memory.wfFrom_set hw (Nat.zero_le _) addr.isLt

/-- The empty memory has the canonical form. -/
theorem Memory.wf_nil : Memory.wf [] = true := rfl

/-- Loading bytes keeps the canonical form. -/
theorem placeBytes_wf {m : Memory} (hw : Memory.wf m = true) (addr : Word) (bytes : List Byte) :
    Memory.wf (placeBytes m addr bytes) = true := by
  induction bytes generalizing m addr with
  | nil => exact hw
  | cons v rest ih => exact ih (Memory.wf_set hw addr v) _

/-- In canonical form, memories that read alike at every address are the same list. -/
theorem Memory.ext_of_wf {m n : Memory} {low : Nat} (hm : Memory.wfFrom low m = true)
    (hn : Memory.wfFrom low n = true) (h : ∀ k, Memory.get m k = Memory.get n k) : m = n := by
  induction m generalizing n low with
  | nil =>
    cases n with
    | nil => rfl
    | cons cell rest =>
      obtain ⟨k, v⟩ := cell
      simp only [Memory.wfFrom, Bool.and_eq_true, decide_eq_true_eq, bne_iff_ne, ne_eq] at hn
      have := h k
      simp only [Memory.get, if_true] at this
      exact absurd this.symm hn.1.2
  | cons cell rest ih =>
    obtain ⟨k, v⟩ := cell
    simp only [Memory.wfFrom, Bool.and_eq_true, decide_eq_true_eq, bne_iff_ne, ne_eq] at hm
    cases n with
    | nil =>
      have := h k
      simp only [Memory.get, if_true] at this
      exact absurd this hm.1.2
    | cons cell' rest' =>
      obtain ⟨j, w⟩ := cell'
      simp only [Memory.wfFrom, Bool.and_eq_true, decide_eq_true_eq, bne_iff_ne, ne_eq] at hn
      have hkj : k = j := by
        rcases Nat.lt_trichotomy k j with hlt | he | hlt
        · have := h k
          simp only [Memory.get, if_true, if_neg (Nat.ne_of_gt hlt)] at this
          rw [Memory.get_below hn.2 (by omega)] at this
          exact absurd this hm.1.2
        · exact he
        · have := h j
          simp only [Memory.get, if_true, if_neg (Nat.ne_of_gt hlt)] at this
          rw [Memory.get_below hm.2 (by omega)] at this
          exact absurd this.symm hn.1.2
      subst hkj
      have hv : v = w := by have := h k; simpa [Memory.get] using this
      subst hv
      rw [ih hm.2 hn.2 (fun i => ?_)]
      by_cases hi : i = k
      · subst hi
        rw [Memory.get_below hm.2 (by omega), Memory.get_below hn.2 (by omega)]
      · have := h i
        simpa [Memory.get, Ne.symm hi] using this

end Sys2Proof.Machine
end

