-- ==== Sys2Proof/Laws/Word.lean ====
section
/-! SUPPORT. Words and their two bytes (spec/00_scope.md R9). -/

namespace Sys2Proof

/-- The value of a word made of two bytes. -/
theorem wordOf_toNat (h l : Byte) : (wordOf h l).toNat = h.toNat * 256 + l.toNat := by
  rw [wordOf, BitVec.toNat_append, ← Nat.shiftLeft_add_eq_or_of_lt l.isLt, Nat.shiftLeft_eq]

/-- The value of the high byte. -/
theorem hiByte_toNat (v : Word) : (hiByte v).toNat = v.toNat / 256 := by
  have := v.isLt
  simp [hiByte, BitVec.extractLsb'_toNat, Nat.shiftRight_eq_div_pow]; omega

/-- The value of the low byte. -/
theorem loByte_toNat (v : Word) : (loByte v).toNat = v.toNat % 256 := by
  simp [loByte, BitVec.extractLsb'_toNat]

/-- A word is its high byte and its low byte. -/
@[simp] theorem wordOf_hiByte_loByte (v : Word) : wordOf (hiByte v) (loByte v) = v := by
  apply BitVec.eq_of_toNat_eq
  rw [wordOf_toNat, hiByte_toNat, loByte_toNat]; omega

/-- The high byte of a word made of two bytes. -/
@[simp] theorem hiByte_wordOf (h l : Byte) : hiByte (wordOf h l) = h := by
  apply BitVec.eq_of_toNat_eq
  have := l.isLt
  rw [hiByte_toNat, wordOf_toNat]; omega

/-- The low byte of a word made of two bytes. -/
@[simp] theorem loByte_wordOf (h l : Byte) : loByte (wordOf h l) = l := by
  apply BitVec.eq_of_toNat_eq
  have := l.isLt
  rw [loByte_toNat, wordOf_toNat]; omega

/-- Two words with the same bytes are the same word. -/
theorem word_eq_of_bytes {v w : Word} (h : hiByte v = hiByte w) (l : loByte v = loByte w) : v = w := by
  rw [← wordOf_hiByte_loByte v, h, l, wordOf_hiByte_loByte]

end Sys2Proof
end

