-- ==== Sys2Proof/Laws/State.lean ====
section
/-! SUPPORT. One lemma per field and update of `State`, so that no later proof unfolds an update: the register writes, the
model's counters, the inputs, and the two byte accesses. -/

namespace Sys2Proof.Machine

/-! ### Writing a register whose name is known is the record update (46_register_move_and_operate.md R321) -/

@[simp] theorem State.set8_at_a (s : State) (v : Byte) : s.set8 .a v = { s with a := v } := rfl
@[simp] theorem State.set8_at_b (s : State) (v : Byte) : s.set8 .b v = { s with b := v } := rfl
@[simp] theorem State.set8_at_dp (s : State) (v : Byte) : s.set8 .dp v = { s with dp := v } := rfl
@[simp] theorem State.set8_at_cc (s : State) (v : Byte) : s.set8 .cc v = { s with cc := CC.ofByte v } := rfl
@[simp] theorem State.set16_at_d (s : State) (v : Word) : s.set16 .d v = { s with a := hiByte v, b := loByte v } := rfl
@[simp] theorem State.set16_at_x (s : State) (v : Word) : s.set16 .x v = { s with x := v } := rfl
@[simp] theorem State.set16_at_y (s : State) (v : Word) : s.set16 .y v = { s with y := v } := rfl
@[simp] theorem State.set16_at_u (s : State) (v : Word) : s.set16 .u v = { s with u := v } := rfl
@[simp] theorem State.set16_at_s (s : State) (v : Word) : s.set16 .s v = { s with s := v } := rfl
@[simp] theorem State.set16_at_pc (s : State) (v : Word) : s.set16 .pc v = { s with pc := v } := rfl

@[simp] theorem State.get8_at_a (s : State) : s.get8 .a = s.a := rfl
@[simp] theorem State.get8_at_b (s : State) : s.get8 .b = s.b := rfl
@[simp] theorem State.get8_at_dp (s : State) : s.get8 .dp = s.dp := rfl
@[simp] theorem State.get8_at_cc (s : State) : s.get8 .cc = s.cc.toByte := rfl
@[simp] theorem State.get16_at_d (s : State) : s.get16 .d = wordOf s.a s.b := rfl
@[simp] theorem State.get16_at_x (s : State) : s.get16 .x = s.x := rfl
@[simp] theorem State.get16_at_y (s : State) : s.get16 .y = s.y := rfl
@[simp] theorem State.get16_at_u (s : State) : s.get16 .u = s.u := rfl
@[simp] theorem State.get16_at_s (s : State) : s.get16 .s = s.s := rfl
@[simp] theorem State.get16_at_pc (s : State) : s.get16 .pc = s.pc := rfl

/-! ### The fields an update leaves alone -/

@[simp] theorem State.set8_x (s : State) (r : Reg8) (v : Byte) : (s.set8 r v).x = s.x := by cases r <;> rfl
@[simp] theorem State.set8_y (s : State) (r : Reg8) (v : Byte) : (s.set8 r v).y = s.y := by cases r <;> rfl
@[simp] theorem State.set8_u (s : State) (r : Reg8) (v : Byte) : (s.set8 r v).u = s.u := by cases r <;> rfl
@[simp] theorem State.set8_s (s : State) (r : Reg8) (v : Byte) : (s.set8 r v).s = s.s := by cases r <;> rfl
@[simp] theorem State.set8_pc (s : State) (r : Reg8) (v : Byte) : (s.set8 r v).pc = s.pc := by cases r <;> rfl
@[simp] theorem State.set8_mem (s : State) (r : Reg8) (v : Byte) : (s.set8 r v).mem = s.mem := by cases r <;> rfl
@[simp] theorem State.set8_run (s : State) (r : Reg8) (v : Byte) : (s.set8 r v).run = s.run := by cases r <;> rfl
@[simp] theorem State.set8_nmiArmed (s : State) (r : Reg8) (v : Byte) : (s.set8 r v).nmiArmed = s.nmiArmed := by cases r <;> rfl
@[simp] theorem State.set8_nmiRequest (s : State) (r : Reg8) (v : Byte) : (s.set8 r v).nmiRequest = s.nmiRequest := by cases r <;> rfl
@[simp] theorem State.set8_inputs (s : State) (r : Reg8) (v : Byte) : (s.set8 r v).inputs = s.inputs := by cases r <;> rfl
@[simp] theorem State.set8_memMap (s : State) (r : Reg8) (v : Byte) : (s.set8 r v).memMap = s.memMap := by cases r <;> rfl
@[simp] theorem State.set8_devIn (s : State) (r : Reg8) (v : Byte) : (s.set8 r v).devIn = s.devIn := by cases r <;> rfl
@[simp] theorem State.set8_events (s : State) (r : Reg8) (v : Byte) : (s.set8 r v).events = s.events := by cases r <;> rfl
@[simp] theorem State.set8_draws (s : State) (r : Reg8) (v : Byte) : (s.set8 r v).draws = s.draws := by cases r <;> rfl

@[simp] theorem State.set16_dp (s : State) (r : Reg16) (v : Word) : (s.set16 r v).dp = s.dp := by cases r <;> rfl
@[simp] theorem State.set16_cc (s : State) (r : Reg16) (v : Word) : (s.set16 r v).cc = s.cc := by cases r <;> rfl
@[simp] theorem State.set16_mem (s : State) (r : Reg16) (v : Word) : (s.set16 r v).mem = s.mem := by cases r <;> rfl
@[simp] theorem State.set16_run (s : State) (r : Reg16) (v : Word) : (s.set16 r v).run = s.run := by cases r <;> rfl
@[simp] theorem State.set16_nmiArmed (s : State) (r : Reg16) (v : Word) : (s.set16 r v).nmiArmed = s.nmiArmed := by cases r <;> rfl
@[simp] theorem State.set16_nmiRequest (s : State) (r : Reg16) (v : Word) : (s.set16 r v).nmiRequest = s.nmiRequest := by cases r <;> rfl
@[simp] theorem State.set16_inputs (s : State) (r : Reg16) (v : Word) : (s.set16 r v).inputs = s.inputs := by cases r <;> rfl
@[simp] theorem State.set16_memMap (s : State) (r : Reg16) (v : Word) : (s.set16 r v).memMap = s.memMap := by cases r <;> rfl
@[simp] theorem State.set16_devIn (s : State) (r : Reg16) (v : Word) : (s.set16 r v).devIn = s.devIn := by cases r <;> rfl
@[simp] theorem State.set16_events (s : State) (r : Reg16) (v : Word) : (s.set16 r v).events = s.events := by cases r <;> rfl
@[simp] theorem State.set16_draws (s : State) (r : Reg16) (v : Word) : (s.set16 r v).draws = s.draws := by cases r <;> rfl

@[simp] theorem State.armNmi_a (s : State) (arms : Bool) : (s.armNmi arms).a = s.a := rfl
@[simp] theorem State.armNmi_b (s : State) (arms : Bool) : (s.armNmi arms).b = s.b := rfl
@[simp] theorem State.armNmi_x (s : State) (arms : Bool) : (s.armNmi arms).x = s.x := rfl
@[simp] theorem State.armNmi_y (s : State) (arms : Bool) : (s.armNmi arms).y = s.y := rfl
@[simp] theorem State.armNmi_u (s : State) (arms : Bool) : (s.armNmi arms).u = s.u := rfl
@[simp] theorem State.armNmi_s (s : State) (arms : Bool) : (s.armNmi arms).s = s.s := rfl
@[simp] theorem State.armNmi_pc (s : State) (arms : Bool) : (s.armNmi arms).pc = s.pc := rfl
@[simp] theorem State.armNmi_dp (s : State) (arms : Bool) : (s.armNmi arms).dp = s.dp := rfl
@[simp] theorem State.armNmi_cc (s : State) (arms : Bool) : (s.armNmi arms).cc = s.cc := rfl
@[simp] theorem State.armNmi_mem (s : State) (arms : Bool) : (s.armNmi arms).mem = s.mem := rfl
@[simp] theorem State.armNmi_run (s : State) (arms : Bool) : (s.armNmi arms).run = s.run := rfl
@[simp] theorem State.armNmi_nmiArmed (s : State) (arms : Bool) : (s.armNmi arms).nmiArmed = (s.nmiArmed || arms) := rfl
@[simp] theorem State.armNmi_nmiRequest (s : State) (arms : Bool) : (s.armNmi arms).nmiRequest = s.nmiRequest := rfl
@[simp] theorem State.armNmi_inputs (s : State) (arms : Bool) : (s.armNmi arms).inputs = s.inputs := rfl
@[simp] theorem State.armNmi_memMap (s : State) (arms : Bool) : (s.armNmi arms).memMap = s.memMap := rfl
@[simp] theorem State.armNmi_devIn (s : State) (arms : Bool) : (s.armNmi arms).devIn = s.devIn := rfl
@[simp] theorem State.armNmi_events (s : State) (arms : Bool) : (s.armNmi arms).events = s.events := rfl
@[simp] theorem State.armNmi_draws (s : State) (arms : Bool) : (s.armNmi arms).draws = s.draws := rfl

@[simp] theorem State.drew_a (s : State) (count : Nat) : (s.drew count).a = s.a := rfl
@[simp] theorem State.drew_b (s : State) (count : Nat) : (s.drew count).b = s.b := rfl
@[simp] theorem State.drew_x (s : State) (count : Nat) : (s.drew count).x = s.x := rfl
@[simp] theorem State.drew_y (s : State) (count : Nat) : (s.drew count).y = s.y := rfl
@[simp] theorem State.drew_u (s : State) (count : Nat) : (s.drew count).u = s.u := rfl
@[simp] theorem State.drew_s (s : State) (count : Nat) : (s.drew count).s = s.s := rfl
@[simp] theorem State.drew_pc (s : State) (count : Nat) : (s.drew count).pc = s.pc := rfl
@[simp] theorem State.drew_dp (s : State) (count : Nat) : (s.drew count).dp = s.dp := rfl
@[simp] theorem State.drew_cc (s : State) (count : Nat) : (s.drew count).cc = s.cc := rfl
@[simp] theorem State.drew_mem (s : State) (count : Nat) : (s.drew count).mem = s.mem := rfl
@[simp] theorem State.drew_run (s : State) (count : Nat) : (s.drew count).run = s.run := rfl
@[simp] theorem State.drew_nmiArmed (s : State) (count : Nat) : (s.drew count).nmiArmed = s.nmiArmed := rfl
@[simp] theorem State.drew_nmiRequest (s : State) (count : Nat) : (s.drew count).nmiRequest = s.nmiRequest := rfl
@[simp] theorem State.drew_inputs (s : State) (count : Nat) : (s.drew count).inputs = s.inputs := rfl
@[simp] theorem State.drew_memMap (s : State) (count : Nat) : (s.drew count).memMap = s.memMap := rfl
@[simp] theorem State.drew_devIn (s : State) (count : Nat) : (s.drew count).devIn = s.devIn := rfl
@[simp] theorem State.drew_events (s : State) (count : Nat) : (s.drew count).events = s.events := rfl
@[simp] theorem State.drew_draws (s : State) (count : Nat) : (s.drew count).draws = s.draws + count := rfl

@[simp] theorem State.consumeInputs_a (s : State) : (s.consumeInputs).a = s.a := rfl
@[simp] theorem State.consumeInputs_b (s : State) : (s.consumeInputs).b = s.b := rfl
@[simp] theorem State.consumeInputs_x (s : State) : (s.consumeInputs).x = s.x := rfl
@[simp] theorem State.consumeInputs_y (s : State) : (s.consumeInputs).y = s.y := rfl
@[simp] theorem State.consumeInputs_u (s : State) : (s.consumeInputs).u = s.u := rfl
@[simp] theorem State.consumeInputs_s (s : State) : (s.consumeInputs).s = s.s := rfl
@[simp] theorem State.consumeInputs_pc (s : State) : (s.consumeInputs).pc = s.pc := rfl
@[simp] theorem State.consumeInputs_dp (s : State) : (s.consumeInputs).dp = s.dp := rfl
@[simp] theorem State.consumeInputs_cc (s : State) : (s.consumeInputs).cc = s.cc := rfl
@[simp] theorem State.consumeInputs_mem (s : State) : (s.consumeInputs).mem = s.mem := rfl
@[simp] theorem State.consumeInputs_run (s : State) : (s.consumeInputs).run = s.run := rfl
@[simp] theorem State.consumeInputs_nmiArmed (s : State) : (s.consumeInputs).nmiArmed = s.nmiArmed := rfl
@[simp] theorem State.consumeInputs_nmiRequest (s : State) : (s.consumeInputs).nmiRequest = s.nmiRequest := rfl
@[simp] theorem State.consumeInputs_inputs (s : State) : (s.consumeInputs).inputs = s.inputs.tail := rfl
@[simp] theorem State.consumeInputs_memMap (s : State) : (s.consumeInputs).memMap = s.memMap := rfl
@[simp] theorem State.consumeInputs_devIn (s : State) : (s.consumeInputs).devIn = s.devIn := rfl
@[simp] theorem State.consumeInputs_events (s : State) : (s.consumeInputs).events = s.events := rfl
@[simp] theorem State.consumeInputs_draws (s : State) : (s.consumeInputs).draws = s.draws := rfl

@[simp] theorem State.latchNmi_a (s : State) (inp : Inputs) : (s.latchNmi inp).a = s.a := rfl
@[simp] theorem State.latchNmi_b (s : State) (inp : Inputs) : (s.latchNmi inp).b = s.b := rfl
@[simp] theorem State.latchNmi_x (s : State) (inp : Inputs) : (s.latchNmi inp).x = s.x := rfl
@[simp] theorem State.latchNmi_y (s : State) (inp : Inputs) : (s.latchNmi inp).y = s.y := rfl
@[simp] theorem State.latchNmi_u (s : State) (inp : Inputs) : (s.latchNmi inp).u = s.u := rfl
@[simp] theorem State.latchNmi_s (s : State) (inp : Inputs) : (s.latchNmi inp).s = s.s := rfl
@[simp] theorem State.latchNmi_pc (s : State) (inp : Inputs) : (s.latchNmi inp).pc = s.pc := rfl
@[simp] theorem State.latchNmi_dp (s : State) (inp : Inputs) : (s.latchNmi inp).dp = s.dp := rfl
@[simp] theorem State.latchNmi_cc (s : State) (inp : Inputs) : (s.latchNmi inp).cc = s.cc := rfl
@[simp] theorem State.latchNmi_mem (s : State) (inp : Inputs) : (s.latchNmi inp).mem = s.mem := rfl
@[simp] theorem State.latchNmi_run (s : State) (inp : Inputs) : (s.latchNmi inp).run = s.run := rfl
@[simp] theorem State.latchNmi_nmiArmed (s : State) (inp : Inputs) : (s.latchNmi inp).nmiArmed = s.nmiArmed := rfl
@[simp] theorem State.latchNmi_nmiRequest (s : State) (inp : Inputs) : (s.latchNmi inp).nmiRequest = (s.nmiRequest || (inp.nmiEdge && s.nmiArmed)) := rfl
@[simp] theorem State.latchNmi_inputs (s : State) (inp : Inputs) : (s.latchNmi inp).inputs = s.inputs := rfl
@[simp] theorem State.latchNmi_memMap (s : State) (inp : Inputs) : (s.latchNmi inp).memMap = s.memMap := rfl
@[simp] theorem State.latchNmi_devIn (s : State) (inp : Inputs) : (s.latchNmi inp).devIn = s.devIn := rfl
@[simp] theorem State.latchNmi_events (s : State) (inp : Inputs) : (s.latchNmi inp).events = s.events := rfl
@[simp] theorem State.latchNmi_draws (s : State) (inp : Inputs) : (s.latchNmi inp).draws = s.draws := rfl

/-! ### The two byte accesses -/

@[simp] theorem State.read8_a (s : State) (addr : Word) : (s.read8 addr).2.a = s.a := by
  unfold State.read8; split <;> try split
  all_goals rfl
@[simp] theorem State.read8_b (s : State) (addr : Word) : (s.read8 addr).2.b = s.b := by
  unfold State.read8; split <;> try split
  all_goals rfl
@[simp] theorem State.read8_x (s : State) (addr : Word) : (s.read8 addr).2.x = s.x := by
  unfold State.read8; split <;> try split
  all_goals rfl
@[simp] theorem State.read8_y (s : State) (addr : Word) : (s.read8 addr).2.y = s.y := by
  unfold State.read8; split <;> try split
  all_goals rfl
@[simp] theorem State.read8_u (s : State) (addr : Word) : (s.read8 addr).2.u = s.u := by
  unfold State.read8; split <;> try split
  all_goals rfl
@[simp] theorem State.read8_s (s : State) (addr : Word) : (s.read8 addr).2.s = s.s := by
  unfold State.read8; split <;> try split
  all_goals rfl
@[simp] theorem State.read8_pc (s : State) (addr : Word) : (s.read8 addr).2.pc = s.pc := by
  unfold State.read8; split <;> try split
  all_goals rfl
@[simp] theorem State.read8_dp (s : State) (addr : Word) : (s.read8 addr).2.dp = s.dp := by
  unfold State.read8; split <;> try split
  all_goals rfl
@[simp] theorem State.read8_cc (s : State) (addr : Word) : (s.read8 addr).2.cc = s.cc := by
  unfold State.read8; split <;> try split
  all_goals rfl
@[simp] theorem State.read8_mem (s : State) (addr : Word) : (s.read8 addr).2.mem = s.mem := by
  unfold State.read8; split <;> try split
  all_goals rfl
@[simp] theorem State.read8_run (s : State) (addr : Word) : (s.read8 addr).2.run = s.run := by
  unfold State.read8; split <;> try split
  all_goals rfl
@[simp] theorem State.read8_nmiArmed (s : State) (addr : Word) : (s.read8 addr).2.nmiArmed = s.nmiArmed := by
  unfold State.read8; split <;> try split
  all_goals rfl
@[simp] theorem State.read8_nmiRequest (s : State) (addr : Word) : (s.read8 addr).2.nmiRequest = s.nmiRequest := by
  unfold State.read8; split <;> try split
  all_goals rfl
@[simp] theorem State.read8_inputs (s : State) (addr : Word) : (s.read8 addr).2.inputs = s.inputs := by
  unfold State.read8; split <;> try split
  all_goals rfl
@[simp] theorem State.read8_memMap (s : State) (addr : Word) : (s.read8 addr).2.memMap = s.memMap := by
  unfold State.read8; split <;> try split
  all_goals rfl

@[simp] theorem State.write8_a (s : State) (addr : Word) (v : Byte) : (s.write8 addr v).a = s.a := by
  unfold State.write8; split <;> rfl
@[simp] theorem State.write8_b (s : State) (addr : Word) (v : Byte) : (s.write8 addr v).b = s.b := by
  unfold State.write8; split <;> rfl
@[simp] theorem State.write8_x (s : State) (addr : Word) (v : Byte) : (s.write8 addr v).x = s.x := by
  unfold State.write8; split <;> rfl
@[simp] theorem State.write8_y (s : State) (addr : Word) (v : Byte) : (s.write8 addr v).y = s.y := by
  unfold State.write8; split <;> rfl
@[simp] theorem State.write8_u (s : State) (addr : Word) (v : Byte) : (s.write8 addr v).u = s.u := by
  unfold State.write8; split <;> rfl
@[simp] theorem State.write8_s (s : State) (addr : Word) (v : Byte) : (s.write8 addr v).s = s.s := by
  unfold State.write8; split <;> rfl
@[simp] theorem State.write8_pc (s : State) (addr : Word) (v : Byte) : (s.write8 addr v).pc = s.pc := by
  unfold State.write8; split <;> rfl
@[simp] theorem State.write8_dp (s : State) (addr : Word) (v : Byte) : (s.write8 addr v).dp = s.dp := by
  unfold State.write8; split <;> rfl
@[simp] theorem State.write8_cc (s : State) (addr : Word) (v : Byte) : (s.write8 addr v).cc = s.cc := by
  unfold State.write8; split <;> rfl
@[simp] theorem State.write8_run (s : State) (addr : Word) (v : Byte) : (s.write8 addr v).run = s.run := by
  unfold State.write8; split <;> rfl
@[simp] theorem State.write8_nmiArmed (s : State) (addr : Word) (v : Byte) : (s.write8 addr v).nmiArmed = s.nmiArmed := by
  unfold State.write8; split <;> rfl
@[simp] theorem State.write8_nmiRequest (s : State) (addr : Word) (v : Byte) : (s.write8 addr v).nmiRequest = s.nmiRequest := by
  unfold State.write8; split <;> rfl
@[simp] theorem State.write8_inputs (s : State) (addr : Word) (v : Byte) : (s.write8 addr v).inputs = s.inputs := by
  unfold State.write8; split <;> rfl
@[simp] theorem State.write8_memMap (s : State) (addr : Word) (v : Byte) : (s.write8 addr v).memMap = s.memMap := by
  unfold State.write8; split <;> rfl
@[simp] theorem State.write8_devIn (s : State) (addr : Word) (v : Byte) : (s.write8 addr v).devIn = s.devIn := by
  unfold State.write8; split <;> rfl
@[simp] theorem State.write8_draws (s : State) (addr : Word) (v : Byte) : (s.write8 addr v).draws = s.draws := by
  unfold State.write8; split <;> rfl

/-! ### Reading a register back -/

/-- A 16-bit register reads as it was written. -/
@[simp] theorem State.get16_set16_same (s : State) (r : Reg16) (v : Word) : (s.set16 r v).get16 r = v := by
  cases r <;> simp

/-- A write to one of X, Y, U, S, PC leaves every other 16-bit register, D included, as it was. -/
theorem State.get16_set16_ptr (s : State) (r p : Reg16) (v : Word) (hp : p ≠ r) (hd : p ≠ .d) :
    (s.set16 p v).get16 r = s.get16 r := by
  cases p <;> cases r <;> first | exact absurd rfl hp | exact absurd rfl hd | rfl

end Sys2Proof.Machine
end

