-- ==== Sys2Proof/Laws/Access.lean ====
section
/-! SUPPORT. What a memory access can do, said once for each access (spec/00_scope.md R12; 20_memory.md R58, R60), and the two
relations between states that claims use. -/

namespace Sys2Proof.Machine

/-! ### `SameButDevices` and `SameButMemory` -/

theorem SameButDevices.refl (s : State) : SameButDevices s s := rfl

theorem SameButDevices.trans {s t u : State} (h : SameButDevices s t) (k : SameButDevices t u) :
    SameButDevices s u := by
  unfold SameButDevices at *
  rw [k, h]

theorem SameButMemory.refl (s : State) : SameButMemory s s := rfl

theorem SameButMemory.trans {s t u : State} (h : SameButMemory s t) (k : SameButMemory t u) : SameButMemory s u := by
  unfold SameButMemory at *
  rw [k, h]

theorem SameButDevices.toMemory {s t : State} (h : SameButDevices s t) : SameButMemory s t := by
  unfold SameButDevices SameButMemory at *
  rw [h]

/-- The fields two states share when they differ in device traffic alone. -/
theorem SameButDevices.fields {s t : State} (h : SameButDevices s t) :
    t.a = s.a ∧ t.b = s.b ∧ t.x = s.x ∧ t.y = s.y ∧ t.u = s.u ∧ t.s = s.s ∧ t.pc = s.pc ∧ t.dp = s.dp ∧ t.cc = s.cc ∧
      t.mem = s.mem ∧ t.run = s.run ∧ t.nmiArmed = s.nmiArmed ∧ t.nmiRequest = s.nmiRequest ∧
      t.inputs = s.inputs ∧ t.memMap = s.memMap := by
  rw [h]; simp

/-- The fields two states share when they differ in memory and device traffic alone. -/
theorem SameButMemory.fields {s t : State} (h : SameButMemory s t) :
    t.a = s.a ∧ t.b = s.b ∧ t.x = s.x ∧ t.y = s.y ∧ t.u = s.u ∧ t.s = s.s ∧ t.pc = s.pc ∧ t.dp = s.dp ∧ t.cc = s.cc ∧
      t.run = s.run ∧ t.nmiArmed = s.nmiArmed ∧ t.nmiRequest = s.nmiRequest ∧
      t.inputs = s.inputs ∧ t.memMap = s.memMap := by
  rw [h]; simp

/-- Device traffic leaves the flags. -/
theorem SameButDevices.cc_eq {s t : State} (h : SameButDevices s t) : t.cc = s.cc := by rw [h]

/-- Device traffic leaves memory. -/
theorem SameButDevices.mem_eq {s t : State} (h : SameButDevices s t) : t.mem = s.mem := by rw [h]

/-- Device traffic leaves the memory map. -/
theorem SameButDevices.memMap_eq {s t : State} (h : SameButDevices s t) : t.memMap = s.memMap := by rw [h]

theorem SameButDevices.sameMemory {s t : State} (h : SameButDevices s t) : SameMemory s t := by
  intro k; unfold State.cell; rw [h.mem_eq]

/-! ### `Accessed` -/

theorem Accessed.refl (s : State) : Accessed [] s s := ⟨rfl, rfl⟩

/-- Accesses one after the other. -/
theorem Accessed.trans {l m : List BusEvent} {s t u : State} (h : Accessed l s t) (k : Accessed m t u)
    (hmap : t.memMap = s.memMap) : Accessed (m ++ l) s u := by
  obtain ⟨he, hd⟩ := h
  obtain ⟨ke, kd⟩ := k
  rw [hmap] at ke kd
  constructor
  · rw [ke, he]; simp [onDevices]
  · rw [kd, hd]; simp [onDevices, Nat.add_comm]

/-- `Accessed` looks at the map before and at the device traffic before and after, and at nothing else. -/
theorem Accessed.congr {l : List BusEvent} {s t s' t' : State} (h : Accessed l s t)
    (hs : s'.memMap = s.memMap ∧ s'.events = s.events ∧ s'.devIn = s.devIn)
    (ht : t'.events = t.events ∧ t'.devIn = t.devIn) : Accessed l s' t' := by
  unfold Accessed at *
  rw [hs.1, hs.2.1, hs.2.2, ht.1, ht.2]
  exact h

/-! ### Byte reads -/

/-- A read changes device traffic at most. -/
theorem State.read8_same (s : State) (addr : Word) : SameButDevices s (s.read8 addr).2 := by
  unfold State.read8; split <;> try split
  all_goals rfl

/-- A read of RAM or ROM answers the content and changes nothing (R58). -/
theorem State.read8_plain {s : State} {addr : Word} (h : readable s.memMap addr 1 = true) :
    s.read8 addr = (s.cell addr, s) := by
  simp only [readable, Bool.and_true, Bool.or_eq_true, beq_iff_eq] at h
  rcases h with h | h <;> simp [State.read8, h, State.cell]

/-- A read where nothing is answers a free value (R60). -/
theorem State.read8_absent {s : State} {addr : Word} (h : kindAt s.memMap addr = .absent) :
    s.read8 addr = (Config.anyByte s.draws, s.drew 1) := by
  simp [State.read8, h]

/-- A read of a device cell answers what `Env` answers, and is an event (R60). -/
theorem State.read8_device {s : State} {addr : Word} {v : Byte} {rest : List Byte}
    (h : kindAt s.memMap addr = .device) (hv : s.devIn = v :: rest) :
    s.read8 addr = (v, { s with devIn := rest, events := .read addr v :: s.events }) := by
  simp [State.read8, h, hv]

/-- A byte read is one access. -/
theorem State.read8_accessed (s : State) (addr : Word) : Accessed [.read addr (s.read8 addr).1] s (s.read8 addr).2 := by
  unfold State.read8
  split
  · rename_i h; simp [Accessed, onDevices, accessAddr, h]
  · rename_i h; simp [Accessed, onDevices, accessAddr, h]
  · rename_i h; simp [Accessed, onDevices, accessAddr, h]
  · rename_i h; split <;> (rename_i hd; simp [Accessed, onDevices, accessAddr, isRead, List.filter, h, hd])

/-! ### Byte writes -/

/-- A write to RAM stores. -/
theorem State.write8_ram {s : State} {addr : Word} (v : Byte) (h : kindAt s.memMap addr = .ram) :
    s.write8 addr v = { s with mem := Memory.set s.mem addr.toNat v } := by
  simp [State.write8, h]

/-- A write to ROM or where nothing is changes nothing (R58, R60). -/
theorem State.write8_ignored {s : State} {addr : Word} (v : Byte)
    (h : kindAt s.memMap addr = .rom ∨ kindAt s.memMap addr = .absent) : s.write8 addr v = s := by
  rcases h with h | h <;> simp [State.write8, h]

/-- A write to a device cell is an event and nothing else (R60). -/
theorem State.write8_device {s : State} {addr : Word} (v : Byte) (h : kindAt s.memMap addr = .device) :
    s.write8 addr v = { s with events := .write addr v :: s.events } := by
  simp [State.write8, h]

/-- A write changes memory and device traffic at most. -/
theorem State.write8_same (s : State) (addr : Word) (v : Byte) : SameButMemory s (s.write8 addr v) := by
  unfold State.write8; split <;> rfl

/-- Everything a byte write does to memory. -/
theorem State.write8_wrote {s : State} (hw : Memory.wf s.mem = true) (addr : Word) (v : Byte) :
    WroteByte s addr v (s.write8 addr v) := by
  intro k
  by_cases hr : kindAt s.memMap addr = .ram
  · rw [State.write8_ram v hr]
    simp only [State.cell, Memory.get_set _ _ _ _ hw, hr, and_true, BitVec.toNat_inj]
  · simp only [hr, and_false, if_false]
    unfold State.write8 State.cell
    split <;> first | contradiction | rfl

/-- A byte write is one access. -/
theorem State.write8_accessed (s : State) (addr : Word) (v : Byte) : Accessed [.write addr v] s (s.write8 addr v) := by
  unfold State.write8
  split <;> (rename_i h; simp [Accessed, onDevices, accessAddr, isRead, h])

/-- A write keeps memory in its canonical form. -/
theorem State.write8_wf {s : State} (hw : Memory.wf s.mem = true) (addr : Word) (v : Byte) :
    Memory.wf (s.write8 addr v).mem = true := by
  unfold State.write8
  split
  · exact Memory.wf_set hw addr v
  all_goals exact hw

/-- What the cell at `k` holds after a write to another cell. -/
theorem State.cell_write8_other (s : State) {addr k : Word} (v : Byte) (h : k ≠ addr) :
    (s.write8 addr v).cell k = s.cell k := by
  unfold State.write8 State.cell
  split
  · exact Memory.get_set_other _ _ (fun e => h (BitVec.eq_of_toNat_eq e))
  all_goals rfl

/-- What a RAM cell holds after a write to it. -/
theorem State.cell_write8_ram {s : State} (hw : Memory.wf s.mem = true) {addr : Word} (v : Byte)
    (h : kindAt s.memMap addr = .ram) : (s.write8 addr v).cell addr = v := by
  have := State.write8_wrote hw addr v addr
  simpa [h] using this

/-! ### Word accesses -/

/-- A word read changes device traffic at most. -/
theorem State.read16_same (s : State) (addr : Word) : SameButDevices s (s.read16 addr).2 :=
  (s.read8_same addr).trans (State.read8_same _ _)

/-- A word read of RAM or ROM cells: high byte first, nothing changed (R12). -/
theorem State.read16_plain {s : State} {addr : Word} (h : readable s.memMap addr 2 = true) :
    s.read16 addr = (wordOf (s.cell addr) (s.cell (addr + 1#16)), s) := by
  have h0 : readable s.memMap addr 1 = true := by
    simp only [readable, Bool.and_true, Bool.and_eq_true] at h ⊢; exact h.1
  have h1 : readable s.memMap (addr + 1#16) 1 = true := by
    simp only [readable, Bool.and_true, Bool.and_eq_true] at h ⊢; exact h.2
  simp [State.read16, State.read8_plain h0, State.read8_plain h1]

/-- A word read is two byte accesses, the high byte first (R12, 20_memory.md R55). -/
theorem State.read16_accessed (s : State) (addr : Word) :
    Accessed (wordRead addr (s.read16 addr).1) s (s.read16 addr).2 := by
  simp only [State.read16, wordRead, hiByte_wordOf, loByte_wordOf]
  exact (s.read8_accessed addr).trans (State.read8_accessed _ _) (s.read8_same addr).memMap_eq

/-- A word write is two byte accesses, the high byte first. -/
theorem State.write16_accessed (s : State) (addr v : Word) : Accessed (wordWrite addr v) s (s.write16 addr v) :=
  (s.write8_accessed addr _).trans (State.write8_accessed _ _ _) (State.write8_memMap _ _ _)

/-- A word write changes memory and device traffic at most. -/
theorem State.write16_same (s : State) (addr v : Word) : SameButMemory s (s.write16 addr v) :=
  (s.write8_same addr _).trans (State.write8_same _ _ _)

/-- A word write keeps memory in its canonical form. -/
theorem State.write16_wf {s : State} (hw : Memory.wf s.mem = true) (addr v : Word) :
    Memory.wf (s.write16 addr v).mem = true :=
  State.write8_wf (State.write8_wf hw _ _) _ _

/-- An address and the next one differ. -/
theorem addr_ne_next (addr : Word) : addr ≠ addr + 1#16 := by
  intro h
  bv_omega

/-- Everything a word write does to memory. -/
theorem State.write16_wrote {s : State} (hw : Memory.wf s.mem = true) (addr v : Word) :
    WroteWord s addr v (s.write16 addr v) := by
  intro k
  have h1 := State.write8_wrote hw addr (hiByte v) k
  have h2 := State.write8_wrote (State.write8_wf hw addr (hiByte v)) (addr + 1#16) (loByte v) k
  simp only [State.write8_memMap] at h2
  have hne := addr_ne_next addr
  unfold State.write16
  rw [h2]
  by_cases ha : k = addr
  · subst ha
    simp only [hne, false_and, if_false] at h1 ⊢
    rw [h1]
  · rw [h1]; simp [ha]

end Sys2Proof.Machine
end

