-- ==== Sys2Proof/Laws/Flags.lean ====
section
/-! SUPPORT. The condition codes as a byte (spec/10_state.md R26), and the arithmetic of `add_n` and `sub_n`
(spec/00_scope.md R16) in whole numbers. -/

namespace Sys2Proof.Machine

/-- The bits of the byte view of CC. -/
theorem CC.toByte_getLsbD (cc : CC) :
    cc.toByte.getLsbD 7 = cc.e ∧ cc.toByte.getLsbD 6 = cc.f ∧ cc.toByte.getLsbD 5 = cc.h ∧
      cc.toByte.getLsbD 4 = cc.i ∧ cc.toByte.getLsbD 3 = cc.n ∧ cc.toByte.getLsbD 2 = cc.z ∧
      cc.toByte.getLsbD 1 = cc.v ∧ cc.toByte.getLsbD 0 = cc.c := by
  obtain ⟨e, f, h, i, n, z, v, c⟩ := cc
  cases e <;> cases f <;> cases h <;> cases i <;> cases n <;> cases z <;> cases v <;> cases c <;> decide

/-- CC written as its own byte is CC. -/
@[simp] theorem CC.ofByte_toByte (cc : CC) : CC.ofByte cc.toByte = cc := by
  obtain ⟨h7, h6, h5, h4, h3, h2, h1, h0⟩ := cc.toByte_getLsbD
  ext <;> simp only [CC.ofByte] <;> assumption

/-- The byte of what was written to CC is what was written. -/
@[simp] theorem CC.toByte_ofByte (v : Byte) : (CC.ofByte v).toByte = v := by
  obtain ⟨h7, h6, h5, h4, h3, h2, h1, h0⟩ := (CC.ofByte v).toByte_getLsbD
  apply BitVec.eq_of_getLsbD_eq
  intro i hi
  match i, hi with
  | 0, _ => rw [h0]; rfl
  | 1, _ => rw [h1]; rfl
  | 2, _ => rw [h2]; rfl
  | 3, _ => rw [h3]; rfl
  | 4, _ => rw [h4]; rfl
  | 5, _ => rw [h5]; rfl
  | 6, _ => rw [h6]; rfl
  | 7, _ => rw [h7]; rfl

/-- The sum and its carry together are the exact sum. -/
theorem addN_exact {n : Nat} (a b : BitVec n) (cin : Bool) :
    (addN a b cin).r.toNat + 2 ^ n * (addN a b cin).cout.toNat = a.toNat + b.toNat + cin.toNat := by
  have ha := a.isLt
  have hb := b.isLt
  have hc : cin.toNat ≤ 1 := Bool.toNat_le cin
  simp only [addN, BitVec.toNat_ofNat]
  by_cases h : 2 ^ n ≤ a.toNat + b.toNat + cin.toNat
  · have hm : (a.toNat + b.toNat + cin.toNat) % 2 ^ n = a.toNat + b.toNat + cin.toNat - 2 ^ n := by
      rw [Nat.mod_eq_sub_mod h, Nat.mod_eq_of_lt (by omega)]
    simp [h, hm]
  · simp [h, Nat.mod_eq_of_lt (by omega : a.toNat + b.toNat + cin.toNat < 2 ^ n)]

/-- The borrow of a difference is the unsigned comparison. -/
theorem subN_cout {n : Nat} (a b : BitVec n) (bin : Bool) :
    (subN a b bin).cout = decide (a.toNat < b.toNat + bin.toNat) := by
  simp only [subN, decide_eq_decide]; omega

/-- The difference without a borrow is the machine difference. -/
theorem subN_r {n : Nat} (a b : BitVec n) : (subN a b false).r = a - b := by
  have ha := a.isLt
  have hb := b.isLt
  apply BitVec.eq_of_toNat_eq
  simp only [subN, Bool.toNat_false, Nat.cast_zero, sub_zero, BitVec.toNat_ofInt, BitVec.toNat_sub]
  have hp : (0 : Int) < 2 ^ n := by positivity
  by_cases h : b.toNat ≤ a.toNat
  · have h1 : ((a.toNat : Int) - b.toNat) % ((2 ^ n : Nat) : Int) = a.toNat - b.toNat :=
      Int.emod_eq_of_lt (by omega) (by omega)
    have h2 : (2 ^ n - b.toNat + a.toNat) % 2 ^ n = a.toNat - b.toNat := by
      rw [show 2 ^ n - b.toNat + a.toNat = (a.toNat - b.toNat) + 2 ^ n by omega, Nat.add_mod_right,
        Nat.mod_eq_of_lt (by omega)]
    rw [h1, h2]; omega
  · have h1 : ((a.toNat : Int) - b.toNat) % ((2 ^ n : Nat) : Int) = a.toNat - b.toNat + ((2 ^ n : Nat) : Int) := by
      rw [← Int.add_emod_right, Int.emod_eq_of_lt (by omega) (by omega)]
    have h2 : (2 ^ n - b.toNat + a.toNat) % 2 ^ n = 2 ^ n - b.toNat + a.toNat := Nat.mod_eq_of_lt (by omega)
    rw [h1, h2]; omega

end Sys2Proof.Machine
end

