-- ==== Sys2Proof/Laws/Stacks.lean ====
section
/-! SUPPORT. Pushing and pulling (spec/00_scope.md R14; 47_stack.md): every push of the machine is a push of a list of bytes,
and a pull gives back what such a list holds. -/

namespace Sys2Proof.Machine

/-- A stack pointer's value. -/
abbrev State.sp (s : State) (p : Stk) : Word := s.get16 (stkReg p)

@[simp] theorem State.sp_s (s : State) : s.sp .s = s.s := rfl

@[simp] theorem State.sp_u (s : State) : s.sp .u = s.u := rfl

@[simp] theorem State.sp_set16 (s : State) (p : Stk) (v : Word) : (s.set16 (stkReg p) v).sp p = v :=
  State.get16_set16_same _ _ _

/-- Push a list of bytes, the last one first, so that the list lies from the stack pointer up. -/
def State.pushBytes (s : State) (p : Stk) : List Byte → State
  | [] => s
  | v :: rest => (s.pushBytes p rest).push8 p v

/-! ### One byte -/

/-- A push moves its stack pointer down by one and changes memory and device traffic besides. -/
theorem State.push8_same (s : State) (p : Stk) (v : Byte) :
    SameButMemory (s.set16 (stkReg p) (s.sp p - 1#16)) (s.push8 p v) :=
  State.write8_same _ _ _

/-- A stack pointer after a push. -/
@[simp] theorem State.push8_sp (s : State) (p : Stk) (v : Byte) : (s.push8 p v).sp p = s.sp p - 1#16 := by
  cases p <;> simp [State.push8, State.sp, stkReg]

/-- A push keeps memory in its canonical form. -/
theorem State.push8_wf {s : State} (hw : Memory.wf s.mem = true) (p : Stk) (v : Byte) :
    Memory.wf (s.push8 p v).mem = true := by
  unfold State.push8
  exact State.write8_wf (by simpa using hw) _ _

/-- What a push leaves in memory. -/
theorem State.cell_push8 {s : State} (p : Stk) (v : Byte) {k : Word} (h : k ≠ s.sp p - 1#16) :
    (s.push8 p v).cell k = s.cell k := by
  unfold State.push8
  rw [State.cell_write8_other _ _ h]
  simp [State.cell]

/-- The byte a push stores, where the stack is RAM. -/
theorem State.cell_push8_top {s : State} (hw : Memory.wf s.mem = true) (p : Stk) (v : Byte)
    (h : kindAt s.memMap (s.sp p - 1#16) = .ram) : (s.push8 p v).cell (s.sp p - 1#16) = v := by
  unfold State.push8
  exact State.cell_write8_ram (by simpa using hw) v (by simpa using h)

/-! ### Accesses -/

/-- A push of a byte is one access. -/
theorem State.push8_accessed (s : State) (p : Stk) (v : Byte) :
    Accessed [.write (s.sp p - 1#16) v] s (s.push8 p v) :=
  (State.write8_accessed (s.set16 (stkReg p) (s.sp p - 1#16)) (s.sp p - 1#16) v).congr
    (by cases p <;> exact ⟨rfl, rfl, rfl⟩) ⟨rfl, rfl⟩

/-- A push of a word is two byte accesses, the low byte first (R14). -/
theorem State.push16_accessed (s : State) (p : Stk) (v : Word) :
    Accessed [.write (s.sp p - 2#16) (hiByte v), .write (s.sp p - 1#16) (loByte v)] s (s.push16 p v) := by
  have h := State.push8_accessed (s.push8 p (loByte v)) p (hiByte v)
  rw [State.push8_sp, show s.sp p - 1#16 - 1#16 = s.sp p - 2#16 by bv_omega] at h
  exact (s.push8_accessed p (loByte v)).trans h (by rw [s.push8_same p (loByte v)]; cases p <;> rfl)

/-- A pull of a byte is one access. -/
theorem State.pull8_accessed (s : State) (p : Stk) :
    Accessed [.read (s.sp p) (s.pull8 p).1] s (s.pull8 p).2 :=
  (s.read8_accessed (s.sp p)).congr ⟨rfl, rfl, rfl⟩ (by cases p <;> exact ⟨rfl, rfl⟩)

/-- A pull of a word is two byte accesses, the high byte first (R14). -/
theorem State.pull16_accessed (s : State) (p : Stk) :
    Accessed (wordRead (s.sp p) (s.pull16 p).1) s (s.pull16 p).2 := by
  have h := State.pull8_accessed (s.pull8 p).2 p
  rw [show (s.pull8 p).2.sp p = s.sp p + 1#16 by simp [State.pull8]] at h
  simp only [State.pull16, wordRead, hiByte_wordOf, loByte_wordOf]
  exact (s.pull8_accessed p).trans h (by simp only [State.pull8]; cases p <;> simp [stkReg])

/-! ### Lists of bytes -/

@[simp] theorem State.pushBytes_nil (s : State) (p : Stk) : s.pushBytes p [] = s := rfl

@[simp] theorem State.pushBytes_cons (s : State) (p : Stk) (v : Byte) (rest : List Byte) :
    s.pushBytes p (v :: rest) = (s.pushBytes p rest).push8 p v := rfl

/-- Pushing two lists. -/
theorem State.pushBytes_append (s : State) (p : Stk) (l r : List Byte) :
    s.pushBytes p (l ++ r) = (s.pushBytes p r).pushBytes p l := by
  induction l with
  | nil => rfl
  | cons v rest ih => simp [ih]

/-- A stack pointer after a list was pushed. -/
theorem State.pushBytes_sp (s : State) (p : Stk) (l : List Byte) :
    (s.pushBytes p l).sp p = s.sp p - BitVec.ofNat 16 l.length := by
  induction l with
  | nil => simp
  | cons v rest ih =>
    rw [State.pushBytes_cons, State.push8_sp, ih, List.length_cons]
    bv_omega

/-- Writing the same register twice. -/
theorem State.set16_stk_twice (s : State) (p : Stk) (v w : Word) :
    (s.set16 (stkReg p) v).set16 (stkReg p) w = s.set16 (stkReg p) w := by
  cases p <;> rfl

/-- Writing a register its own value. -/
theorem State.set16_stk_self (s : State) (p : Stk) : s.set16 (stkReg p) (s.sp p) = s := by
  cases p <;> rfl

/-- Moving a stack pointer commutes with a change of memory. -/
theorem SameButMemory.set_sp {s t : State} (h : SameButMemory s t) (p : Stk) (v : Word) :
    SameButMemory (s.set16 (stkReg p) v) (t.set16 (stkReg p) v) := by
  unfold SameButMemory at *
  cases p <;> (rw [h]; rfl)

/-- Pushing a list moves its stack pointer and changes memory and device traffic besides. -/
theorem State.pushBytes_same (s : State) (p : Stk) (l : List Byte) :
    SameButMemory (s.set16 (stkReg p) (s.sp p - BitVec.ofNat 16 l.length)) (s.pushBytes p l) := by
  induction l with
  | nil =>
    have : s.sp p - BitVec.ofNat 16 ([] : List Byte).length = s.sp p := by simp
    rw [this, State.set16_stk_self]
    exact SameButMemory.refl s
  | cons v rest ih =>
    have h1 := ih.set_sp p ((s.pushBytes p rest).sp p - 1#16)
    rw [State.set16_stk_twice, State.pushBytes_sp] at h1
    have h2 := State.push8_same (s.pushBytes p rest) p v
    rw [State.pushBytes_sp] at h2
    have : s.sp p - BitVec.ofNat 16 (v :: rest).length =
        s.sp p - BitVec.ofNat 16 rest.length - 1#16 := by
      rw [List.length_cons]; bv_omega
    rw [this]
    exact h1.trans h2

/-- Pushing a list keeps memory in its canonical form. -/
theorem State.pushBytes_wf {s : State} (hw : Memory.wf s.mem = true) (p : Stk) (l : List Byte) :
    Memory.wf (s.pushBytes p l).mem = true := by
  induction l with
  | nil => exact hw
  | cons v rest ih => exact State.push8_wf ih p v

/-- Pushing a list leaves every byte alone but those just below the stack pointer. -/
theorem State.cell_pushBytes {s : State} (p : Stk) (l : List Byte) {k : Word} (hl : l.length ≤ 2 ^ 16)
    (h : isBelow (s.sp p) k l.length = false) : (s.pushBytes p l).cell k = s.cell k := by
  induction l with
  | nil => rfl
  | cons v rest ih =>
    simp only [List.length_cons, isBelow, decide_eq_false_iff_not] at h hl ih
    rw [State.pushBytes_cons, State.cell_push8, ih (by omega) (by omega)]
    rw [State.pushBytes_sp]
    intro hk
    apply h
    subst hk
    rw [show s.sp p - 1#16 - (s.sp p - BitVec.ofNat 16 rest.length - 1#16) = BitVec.ofNat 16 rest.length by
      bv_omega]
    simp; omega

/-- Device and free values are untouched by a push where the stack is RAM, and the pushed bytes lie from the stack
pointer up. -/
theorem State.holds_pushBytes {s : State} (hw : Memory.wf s.mem = true) (p : Stk) (l : List Byte)
    (hl : l.length ≤ 2 ^ 16) (hr : ramBelow s.memMap (s.sp p) l.length = true) :
    (s.pushBytes p l).holds ((s.pushBytes p l).sp p) l := by
  have map : ∀ l : List Byte, (s.pushBytes p l).memMap = s.memMap := fun l => by
    rw [s.pushBytes_same p l]; simp
  have keep : ∀ (t : State) (v : Byte) (l : List Byte) (addr : Word), t.memMap = s.memMap →
      (∀ i, i < l.length → addr + BitVec.ofNat 16 i ≠ t.sp p - 1#16) → t.holds addr l →
      (t.push8 p v).holds addr l := by
    intro t v l
    induction l with
    | nil => intros; trivial
    | cons w rest ih =>
      intro addr hm hne hh
      refine ⟨?_, ?_, ih (addr + 1#16) hm (fun i hi => ?_) hh.2.2⟩
      · have : (t.push8 p v).memMap = t.memMap := by
          rw [t.push8_same p v]; simp
        rw [this]; exact hh.1
      · rw [State.cell_push8 p v (by simpa using hne 0 (by simp))]; exact hh.2.1
      · have := hne (i + 1) (by simpa using hi)
        rwa [show addr + 1#16 + BitVec.ofNat 16 i = addr + BitVec.ofNat 16 (i + 1) by bv_omega]
  induction l with
  | nil => trivial
  | cons v rest ih =>
    simp only [List.length_cons, ramBelow, Bool.and_eq_true, beq_iff_eq] at hr hl
    have ih := ih (by omega) hr.2
    have hram : kindAt (s.pushBytes p rest).memMap ((s.pushBytes p rest).sp p - 1#16) = .ram := by
      rw [map, State.pushBytes_sp,
        show s.sp p - BitVec.ofNat 16 rest.length - 1#16 = s.sp p - BitVec.ofNat 16 (rest.length + 1) by bv_omega]
      exact hr.1
    rw [State.pushBytes_cons, State.push8_sp]
    refine ⟨?_, State.cell_push8_top (State.pushBytes_wf hw p rest) p v hram, ?_⟩
    · have := map (v :: rest)
      rw [State.pushBytes_cons] at this
      rw [this, ← map rest]
      simp [readable, hram]
    · rw [show (s.pushBytes p rest).sp p - 1#16 + 1#16 = (s.pushBytes p rest).sp p by bv_omega]
      refine keep _ v rest _ (map rest) (fun i hi => ?_) ih
      intro he
      have : i < 2 ^ 16 - 1 := by omega
      bv_omega

end Sys2Proof.Machine
end

