-- ==== Sys2Proof/Laws/Frames.lean ====
section
/-! SUPPORT. The register lists of PSHS, PSHU, PULS, PULU and the frames of the events as lists of bytes (spec/47_stack.md;
60_exceptions.md R396, R397). -/

namespace Sys2Proof.Machine

/-! ### What a push leaves alone -/

@[simp] theorem State.pushBytes_a (s : State) (p : Stk) (l : List Byte) : (s.pushBytes p l).a = s.a := by
  rw [s.pushBytes_same p l]; cases p <;> rfl
@[simp] theorem State.pushBytes_b (s : State) (p : Stk) (l : List Byte) : (s.pushBytes p l).b = s.b := by
  rw [s.pushBytes_same p l]; cases p <;> rfl
@[simp] theorem State.pushBytes_x (s : State) (p : Stk) (l : List Byte) : (s.pushBytes p l).x = s.x := by
  rw [s.pushBytes_same p l]; cases p <;> rfl
@[simp] theorem State.pushBytes_y (s : State) (p : Stk) (l : List Byte) : (s.pushBytes p l).y = s.y := by
  rw [s.pushBytes_same p l]; cases p <;> rfl
@[simp] theorem State.pushBytes_pc (s : State) (p : Stk) (l : List Byte) : (s.pushBytes p l).pc = s.pc := by
  rw [s.pushBytes_same p l]; cases p <;> rfl
@[simp] theorem State.pushBytes_dp (s : State) (p : Stk) (l : List Byte) : (s.pushBytes p l).dp = s.dp := by
  rw [s.pushBytes_same p l]; cases p <;> rfl
@[simp] theorem State.pushBytes_cc (s : State) (p : Stk) (l : List Byte) : (s.pushBytes p l).cc = s.cc := by
  rw [s.pushBytes_same p l]; cases p <;> rfl
@[simp] theorem State.pushBytes_run (s : State) (p : Stk) (l : List Byte) : (s.pushBytes p l).run = s.run := by
  rw [s.pushBytes_same p l]; cases p <;> rfl
@[simp] theorem State.pushBytes_nmiArmed (s : State) (p : Stk) (l : List Byte) : (s.pushBytes p l).nmiArmed = s.nmiArmed := by
  rw [s.pushBytes_same p l]; cases p <;> rfl
@[simp] theorem State.pushBytes_nmiRequest (s : State) (p : Stk) (l : List Byte) : (s.pushBytes p l).nmiRequest = s.nmiRequest := by
  rw [s.pushBytes_same p l]; cases p <;> rfl
@[simp] theorem State.pushBytes_inputs (s : State) (p : Stk) (l : List Byte) : (s.pushBytes p l).inputs = s.inputs := by
  rw [s.pushBytes_same p l]; cases p <;> rfl
@[simp] theorem State.pushBytes_memMap (s : State) (p : Stk) (l : List Byte) : (s.pushBytes p l).memMap = s.memMap := by
  rw [s.pushBytes_same p l]; cases p <;> rfl

/-- The other stack pointer is left alone. -/
@[simp] theorem State.pushBytes_other (s : State) (p : Stk) (l : List Byte) :
    (s.pushBytes p l).get16 (otherStk p) = s.get16 (otherStk p) := by
  have h := (s.pushBytes_same p l).fields
  cases p with
  | s => simpa [otherStk, stkReg] using h.2.2.2.2.1
  | u => simpa [otherStk, stkReg] using h.2.2.2.2.2.1

/-- U is left alone by a push on S. -/
@[simp] theorem State.pushBytes_s_u (s : State) (l : List Byte) : (s.pushBytes .s l).u = s.u :=
  s.pushBytes_other .s l

/-- S is left alone by a push on U. -/
@[simp] theorem State.pushBytes_u_s (s : State) (l : List Byte) : (s.pushBytes .u l).s = s.s :=
  s.pushBytes_other .u l

/-! ### The pushes of the machine -/

theorem State.push16_eq (s : State) (p : Stk) (v : Word) : s.push16 p v = s.pushBytes p [hiByte v, loByte v] := rfl

theorem push8_if (s : State) (p : Stk) (c : Bool) (v : Byte) (l : List Byte) :
    (if c = true then (s.pushBytes p l).push8 p v else s.pushBytes p l) =
      s.pushBytes p ((if c then [v] else []) ++ l) := by
  cases c <;> rfl

theorem push16_if (s : State) (p : Stk) (c : Bool) (v : Word) (l : List Byte) :
    (if c = true then (s.pushBytes p l).push16 p v else s.pushBytes p l) =
      s.pushBytes p ((if c then [hiByte v, loByte v] else []) ++ l) := by
  cases c <;> rfl

theorem push16_if_nil (s : State) (p : Stk) (c : Bool) (v : Word) :
    (if c = true then s.push16 p v else s) = s.pushBytes p (if c then [hiByte v, loByte v] else []) := by
  cases c <;> rfl

/-- A register list is pushed as the bytes it stands for, all of them read before the first push (R345). -/
theorem pushList_eq (p : Stk) (list : Byte) (s : State) :
    pushList p list s = s.pushBytes p (listBytes p list s) := by
  simp only [pushList, listBytes, push16_if_nil s p (list.getLsbD 7) s.pc, push16_if, push8_if, State.pushBytes_other, State.pushBytes_x,
    State.pushBytes_y, State.pushBytes_dp, State.pushBytes_b, State.pushBytes_a, State.pushBytes_cc]

/-- How many bytes a register list stands for. -/
theorem listBytes_length (p : Stk) (list : Byte) (v : State) : (listBytes p list v).length = listCount list := by
  simp only [listBytes, listCount, List.length_append]
  have one : ∀ (c : Bool) (x : Byte), (if c = true then [x] else []).length = c.toNat := by
    intro c x; cases c <;> rfl
  have two : ∀ (c : Bool) (x y : Byte), (if c = true then [x, y] else []).length = 2 * c.toNat := by
    intro c x y; cases c <;> rfl
  simp only [one, two]; omega

/-- A register list moves at most twelve bytes. -/
theorem listCount_le (list : Byte) : listCount list ≤ 12 := by
  have h : ∀ b : Bool, b.toNat ≤ 1 := Bool.toNat_le
  simp only [listCount]
  have h0 := h (list.getLsbD 0); have h1 := h (list.getLsbD 1); have h2 := h (list.getLsbD 2)
  have h3 := h (list.getLsbD 3); have h4 := h (list.getLsbD 4); have h5 := h (list.getLsbD 5)
  have h6 := h (list.getLsbD 6); have h7 := h (list.getLsbD 7)
  omega

/-- `PushAll` pushes the entire frame (48_interrupt_and_status.md R351). -/
theorem State.pushAll_eq (s : State) : s.pushAll = s.pushBytes .s (frameBytes true s) := by
  simp only [State.pushAll, frameBytes, if_true, State.push16_eq, ← State.pushBytes_append,
    ← State.pushBytes_cons, State.pushBytes_s_u, State.pushBytes_x, State.pushBytes_y, State.pushBytes_dp,
    State.pushBytes_b, State.pushBytes_a, State.pushBytes_cc, List.cons_append, List.nil_append]

/-- The entire frame is the register list 0xFF (R351). -/
theorem frameBytes_entire (s : State) : frameBytes true s = listBytes .s 0xFF#8 s := by
  rfl

/-- The frame of an event is pushed with the E it stands for (60_exceptions.md R396). -/
theorem State.stackFrame_eq (s : State) (entire : Bool) :
    s.stackFrame entire =
      ({ s with cc := { s.cc with e := entire } }).pushBytes .s
        (frameBytes entire { s with cc := { s.cc with e := entire } }) := by
  cases entire
  · simp only [State.stackFrame, Bool.false_eq_true, if_false, State.push16_eq, ← State.pushBytes_cons,
      State.pushBytes_cc, frameBytes]
  · simp only [State.stackFrame, if_true, State.pushAll_eq]

/-- The lengths of the two frames. -/
theorem frameBytes_length (entire : Bool) (v : State) :
    (frameBytes entire v).length = if entire then 12 else 3 := by
  cases entire <;> rfl

/-! ### Pulling -/

/-- What memory holds depends on memory and its map alone. -/
theorem State.holds_congr {s t : State} (hm : t.mem = s.mem) (hk : t.memMap = s.memMap) (addr : Word)
    (l : List Byte) : t.holds addr l ↔ s.holds addr l := by
  induction l generalizing addr with
  | nil => exact Iff.rfl
  | cons v rest ih => simp only [State.holds, State.cell, hm, hk, ih]

/-- Pulling a byte that the stack holds. -/
theorem State.pull8_holds {s : State} {p : Stk} {v : Byte} {l : List Byte} (h : s.holds (s.sp p) (v :: l)) :
    s.pull8 p = (v, s.set16 (stkReg p) (s.sp p + 1#16)) := by
  simp only [State.pull8, State.read8_plain h.1]
  rw [h.2.1]

/-- A pull moves its stack pointer up by one and changes device traffic besides. -/
theorem State.pull8_same (s : State) (p : Stk) :
    SameButDevices (s.set16 (stkReg p) (s.sp p + 1#16)) (s.pull8 p).2 := by
  unfold SameButDevices
  cases p <;> simp [State.pull8, stkReg]

/-- The state after a register of 8 bits was pulled from what the stack holds. -/
theorem State.pullTo8_holds {s : State} {p : Stk} {r : Reg8} {v : Byte} {l : List Byte}
    (h : s.holds (s.sp p) (v :: l)) :
    s.pullTo8 p r = (s.set16 (stkReg p) (s.sp p + 1#16)).set8 r v := by
  simp only [State.pullTo8, State.pull8_holds h]

/-- The state after a register of 16 bits was pulled from what the stack holds. -/
theorem State.pullTo16_holds {s : State} {p : Stk} {r : Reg16} {v : Word} {l : List Byte}
    (h : s.holds (s.sp p) (hiByte v :: loByte v :: l)) :
    s.pullTo16 p r = (s.set16 (stkReg p) (s.sp p + 2#16)).set16 r v := by
  have h2 : (s.set16 (stkReg p) (s.sp p + 1#16)).holds
      ((s.set16 (stkReg p) (s.sp p + 1#16)).sp p) (loByte v :: l) := by
    rw [State.holds_congr (s := s) (by simp) (by simp), State.sp_set16]; exact h.2.2
  simp only [State.pullTo16, State.pull16, State.pull8_holds h, State.pull8_holds h2, wordOf_hiByte_loByte,
    State.get16_set16_same, State.set16_stk_twice]
  congr 2
  bv_omega

/-- Writing an 8-bit register its own value. -/
@[simp] theorem State.set8_self (s : State) (r : Reg8) : s.set8 r (s.get8 r) = s := by
  cases r <;> simp

/-- One conditional pull of a byte, whichever way the condition goes. -/
theorem pullTo8_if {s : State} {p : Stk} {r : Reg8} {c : Bool} {v : Byte} {l : List Byte}
    (h : s.holds (s.sp p) ((if c then [v] else []) ++ l)) :
    (if c = true then s.pullTo8 p r else s) =
      (s.set16 (stkReg p) (s.sp p + BitVec.ofNat 16 c.toNat)).set8 r (if c then v else s.get8 r) := by
  cases c with
  | true => simpa using State.pullTo8_holds (r := r) h
  | false =>
    have : s.set16 (stkReg p) (s.sp p) = s := State.set16_stk_self s p
    simp [this]

/-- Writing a 16-bit register other than D its own value. -/
theorem State.set16_self (s : State) (r : Reg16) : s.set16 r (s.get16 r) = s := by
  cases r <;> simp

/-- One conditional pull of a word, whichever way the condition goes. -/
theorem pullTo16_if {s : State} {p : Stk} {r : Reg16} {c : Bool} {v : Word} {l : List Byte}
    (h : s.holds (s.sp p) ((if c then [hiByte v, loByte v] else []) ++ l)) :
    (if c = true then s.pullTo16 p r else s) =
      (s.set16 (stkReg p) (s.sp p + BitVec.ofNat 16 (2 * c.toNat))).set16 r (if c then v else s.get16 r) := by
  cases c with
  | true => simpa using State.pullTo16_holds (r := r) h
  | false =>
    have : s.set16 (stkReg p) (s.sp p) = s := State.set16_stk_self s p
    simp [this, State.set16_self]

/-- What lies above a conditional item. -/
theorem State.holds_append {s : State} {addr : Word} {l r : List Byte} :
    s.holds addr (l ++ r) ↔ s.holds addr l ∧ s.holds (addr + BitVec.ofNat 16 l.length) r := by
  induction l generalizing addr with
  | nil => simp [State.holds]
  | cons v rest ih =>
    simp only [List.cons_append, State.holds, ih, List.length_cons]
    rw [show addr + 1#16 + BitVec.ofNat 16 rest.length = addr + BitVec.ofNat 16 (rest.length + 1) by bv_omega]
    tauto

end Sys2Proof.Machine
end

