-- ==== Sys2Proof/Laws/Operands.lean ====
section
/-! SUPPORT. What forming an operand and each shape of operation can do (spec/40_addressing_modes.md R110 to R127), said once
for each: the registers and flags by an equation up to device traffic, memory by `WroteByte` and `WroteWord`. -/

namespace Sys2Proof.Machine

/-! ### `baseMoved` -/

@[simp] theorem State.baseMoved_pc (s : State) (m : MemOp) : (s.baseMoved m).pc = s.pc := by
  unfold State.baseMoved; split
  · rename_i r _ _; cases r <;> rfl
  · rfl
@[simp] theorem State.baseMoved_dp (s : State) (m : MemOp) : (s.baseMoved m).dp = s.dp := by
  unfold State.baseMoved; split
  · rename_i r _ _; cases r <;> rfl
  · rfl
@[simp] theorem State.baseMoved_cc (s : State) (m : MemOp) : (s.baseMoved m).cc = s.cc := by
  unfold State.baseMoved; split
  · rename_i r _ _; cases r <;> rfl
  · rfl
@[simp] theorem State.baseMoved_a (s : State) (m : MemOp) : (s.baseMoved m).a = s.a := by
  unfold State.baseMoved; split
  · rename_i r _ _; cases r <;> rfl
  · rfl
@[simp] theorem State.baseMoved_b (s : State) (m : MemOp) : (s.baseMoved m).b = s.b := by
  unfold State.baseMoved; split
  · rename_i r _ _; cases r <;> rfl
  · rfl
@[simp] theorem State.baseMoved_mem (s : State) (m : MemOp) : (s.baseMoved m).mem = s.mem := by
  unfold State.baseMoved; split
  · rename_i r _ _; cases r <;> rfl
  · rfl
@[simp] theorem State.baseMoved_run (s : State) (m : MemOp) : (s.baseMoved m).run = s.run := by
  unfold State.baseMoved; split
  · rename_i r _ _; cases r <;> rfl
  · rfl
@[simp] theorem State.baseMoved_nmiArmed (s : State) (m : MemOp) : (s.baseMoved m).nmiArmed = s.nmiArmed := by
  unfold State.baseMoved; split
  · rename_i r _ _; cases r <;> rfl
  · rfl
@[simp] theorem State.baseMoved_nmiRequest (s : State) (m : MemOp) : (s.baseMoved m).nmiRequest = s.nmiRequest := by
  unfold State.baseMoved; split
  · rename_i r _ _; cases r <;> rfl
  · rfl
@[simp] theorem State.baseMoved_inputs (s : State) (m : MemOp) : (s.baseMoved m).inputs = s.inputs := by
  unfold State.baseMoved; split
  · rename_i r _ _; cases r <;> rfl
  · rfl
@[simp] theorem State.baseMoved_memMap (s : State) (m : MemOp) : (s.baseMoved m).memMap = s.memMap := by
  unfold State.baseMoved; split
  · rename_i r _ _; cases r <;> rfl
  · rfl
@[simp] theorem State.baseMoved_devIn (s : State) (m : MemOp) : (s.baseMoved m).devIn = s.devIn := by
  unfold State.baseMoved; split
  · rename_i r _ _; cases r <;> rfl
  · rfl
@[simp] theorem State.baseMoved_events (s : State) (m : MemOp) : (s.baseMoved m).events = s.events := by
  unfold State.baseMoved; split
  · rename_i r _ _; cases r <;> rfl
  · rfl
@[simp] theorem State.baseMoved_draws (s : State) (m : MemOp) : (s.baseMoved m).draws = s.draws := by
  unfold State.baseMoved; split
  · rename_i r _ _; cases r <;> rfl
  · rfl
@[simp] theorem State.baseMoved8_pc (s : State) (src : Src8) : (s.baseMoved8 src).pc = s.pc := by
  cases src <;> simp [State.baseMoved8]
@[simp] theorem State.baseMoved8_dp (s : State) (src : Src8) : (s.baseMoved8 src).dp = s.dp := by
  cases src <;> simp [State.baseMoved8]
@[simp] theorem State.baseMoved8_cc (s : State) (src : Src8) : (s.baseMoved8 src).cc = s.cc := by
  cases src <;> simp [State.baseMoved8]
@[simp] theorem State.baseMoved8_a (s : State) (src : Src8) : (s.baseMoved8 src).a = s.a := by
  cases src <;> simp [State.baseMoved8]
@[simp] theorem State.baseMoved8_b (s : State) (src : Src8) : (s.baseMoved8 src).b = s.b := by
  cases src <;> simp [State.baseMoved8]
@[simp] theorem State.baseMoved8_mem (s : State) (src : Src8) : (s.baseMoved8 src).mem = s.mem := by
  cases src <;> simp [State.baseMoved8]
@[simp] theorem State.baseMoved8_run (s : State) (src : Src8) : (s.baseMoved8 src).run = s.run := by
  cases src <;> simp [State.baseMoved8]
@[simp] theorem State.baseMoved8_nmiArmed (s : State) (src : Src8) : (s.baseMoved8 src).nmiArmed = s.nmiArmed := by
  cases src <;> simp [State.baseMoved8]
@[simp] theorem State.baseMoved8_nmiRequest (s : State) (src : Src8) : (s.baseMoved8 src).nmiRequest = s.nmiRequest := by
  cases src <;> simp [State.baseMoved8]
@[simp] theorem State.baseMoved8_inputs (s : State) (src : Src8) : (s.baseMoved8 src).inputs = s.inputs := by
  cases src <;> simp [State.baseMoved8]
@[simp] theorem State.baseMoved8_memMap (s : State) (src : Src8) : (s.baseMoved8 src).memMap = s.memMap := by
  cases src <;> simp [State.baseMoved8]
@[simp] theorem State.baseMoved8_devIn (s : State) (src : Src8) : (s.baseMoved8 src).devIn = s.devIn := by
  cases src <;> simp [State.baseMoved8]
@[simp] theorem State.baseMoved8_events (s : State) (src : Src8) : (s.baseMoved8 src).events = s.events := by
  cases src <;> simp [State.baseMoved8]
@[simp] theorem State.baseMoved8_draws (s : State) (src : Src8) : (s.baseMoved8 src).draws = s.draws := by
  cases src <;> simp [State.baseMoved8]
@[simp] theorem State.baseMoved16_pc (s : State) (src : Src16) : (s.baseMoved16 src).pc = s.pc := by
  cases src <;> simp [State.baseMoved16]
@[simp] theorem State.baseMoved16_dp (s : State) (src : Src16) : (s.baseMoved16 src).dp = s.dp := by
  cases src <;> simp [State.baseMoved16]
@[simp] theorem State.baseMoved16_cc (s : State) (src : Src16) : (s.baseMoved16 src).cc = s.cc := by
  cases src <;> simp [State.baseMoved16]
@[simp] theorem State.baseMoved16_a (s : State) (src : Src16) : (s.baseMoved16 src).a = s.a := by
  cases src <;> simp [State.baseMoved16]
@[simp] theorem State.baseMoved16_b (s : State) (src : Src16) : (s.baseMoved16 src).b = s.b := by
  cases src <;> simp [State.baseMoved16]
@[simp] theorem State.baseMoved16_mem (s : State) (src : Src16) : (s.baseMoved16 src).mem = s.mem := by
  cases src <;> simp [State.baseMoved16]
@[simp] theorem State.baseMoved16_run (s : State) (src : Src16) : (s.baseMoved16 src).run = s.run := by
  cases src <;> simp [State.baseMoved16]
@[simp] theorem State.baseMoved16_nmiArmed (s : State) (src : Src16) : (s.baseMoved16 src).nmiArmed = s.nmiArmed := by
  cases src <;> simp [State.baseMoved16]
@[simp] theorem State.baseMoved16_nmiRequest (s : State) (src : Src16) : (s.baseMoved16 src).nmiRequest = s.nmiRequest := by
  cases src <;> simp [State.baseMoved16]
@[simp] theorem State.baseMoved16_inputs (s : State) (src : Src16) : (s.baseMoved16 src).inputs = s.inputs := by
  cases src <;> simp [State.baseMoved16]
@[simp] theorem State.baseMoved16_memMap (s : State) (src : Src16) : (s.baseMoved16 src).memMap = s.memMap := by
  cases src <;> simp [State.baseMoved16]
@[simp] theorem State.baseMoved16_devIn (s : State) (src : Src16) : (s.baseMoved16 src).devIn = s.devIn := by
  cases src <;> simp [State.baseMoved16]
@[simp] theorem State.baseMoved16_events (s : State) (src : Src16) : (s.baseMoved16 src).events = s.events := by
  cases src <;> simp [State.baseMoved16]
@[simp] theorem State.baseMoved16_draws (s : State) (src : Src16) : (s.baseMoved16 src).draws = s.draws := by
  cases src <;> simp [State.baseMoved16]

/-! ### Effective addresses and operands -/

/-- Reading a pointer, or not, changes device traffic at most (R127). -/
theorem throughPointer_same (ind : Bool) (located : Word × State) :
    SameButDevices located.2 (throughPointer ind located).2 := by
  unfold throughPointer
  cases ind
  · exact SameButDevices.refl _
  · exact State.read16_same _ _

/-- Forming an effective address moves the base register of an auto form and changes device traffic besides (R125). -/
theorem memEa_same (m : MemOp) (s : State) : SameButDevices (s.baseMoved m) (memEa m s).2 := by
  cases m with
  | dir adr8 => exact SameButDevices.refl s
  | ext adr16 => exact SameButDevices.refl s
  | idx form =>
    cases form with
    | off5 r n => exact SameButDevices.refl s
    | inc1 r => exact SameButDevices.refl _
    | dec1 r =>
      simp only [State.baseMoved, movedBase, memEa, idxEa, ← BitVec.sub_eq_add_neg]
      exact SameButDevices.refl _
    | noOff r ind => exact throughPointer_same ind _
    | off8 r ind n => exact throughPointer_same ind _
    | off16 r ind n => exact throughPointer_same ind _
    | accA r ind => exact throughPointer_same ind _
    | accB r ind => exact throughPointer_same ind _
    | accD r ind => exact throughPointer_same ind _
    | inc2 r ind => exact throughPointer_same ind _
    | dec2 r ind =>
      simp only [State.baseMoved, movedBase, memEa, idxEa, ← BitVec.sub_eq_add_neg]
      exact throughPointer_same ind _
    | pcr8 ind n => exact throughPointer_same ind _
    | pcr16 ind n => exact throughPointer_same ind _
    | extInd addr => exact throughPointer_same true _

/-- A form without a pointer moves the base register and does nothing else. -/
theorem memEa_plain {m : MemOp} (h : readsPointer m = false) (s : State) : (memEa m s).2 = s.baseMoved m := by
  cases m with
  | dir adr8 => rfl
  | ext adr16 => rfl
  | idx form =>
    cases form with
    | extInd addr => cases h
    | dec1 r => simp [memEa, idxEa, State.baseMoved, movedBase, BitVec.sub_eq_add_neg]
    | dec2 r ind =>
      simp only [readsPointer] at h
      simp [memEa, idxEa, throughPointer, State.baseMoved, movedBase, h, BitVec.sub_eq_add_neg]
    | _ =>
      simp only [readsPointer] at h
      simp [memEa, idxEa, throughPointer, State.baseMoved, movedBase, h]

/-- The accesses after the effective address is formed are all of them, where no pointer is read. -/
theorem AccessesAtEa.intro {m : MemOp} {l : List BusEvent} {s t : State} (h : Accessed l (memEa m s).2 t) :
    AccessesAtEa m l s t :=
  ⟨h, fun hp => h.congr (by simp [memEa_plain hp]) ⟨rfl, rfl⟩⟩

/-- What an 8-bit operand reads at the effective address. -/
theorem readSrc8_reads (src : Src8) (s : State) : ReadsOperand8 src s (readSrc8 src s).2 := by
  cases src with
  | imm data => exact Accessed.refl s
  | mem m => exact .intro (State.read8_accessed _ _)

/-- What a 16-bit operand reads at the effective address. -/
theorem readSrc16_reads (src : Src16) (s : State) : ReadsOperand16 src s (readSrc16 src s).2 := by
  cases src with
  | imm data => exact Accessed.refl s
  | mem m => exact .intro (State.read16_accessed _ _)

/-- What follows the read of an operand, and no access with it, leaves its accesses. -/
theorem ReadsOperand8.congr {src : Src8} {s t u : State} (h : ReadsOperand8 src s t)
    (hu : u.events = t.events ∧ u.devIn = t.devIn) : ReadsOperand8 src s u := by
  cases src with
  | imm data => exact Accessed.congr h ⟨rfl, rfl, rfl⟩ hu
  | mem m => exact ⟨h.1.congr ⟨rfl, rfl, rfl⟩ hu, fun hp => (h.2 hp).congr ⟨rfl, rfl, rfl⟩ hu⟩

/-- What follows the read of an operand, and no access with it, leaves its accesses. -/
theorem ReadsOperand16.congr {src : Src16} {s t u : State} (h : ReadsOperand16 src s t)
    (hu : u.events = t.events ∧ u.devIn = t.devIn) : ReadsOperand16 src s u := by
  cases src with
  | imm data => exact Accessed.congr h ⟨rfl, rfl, rfl⟩ hu
  | mem m => exact ⟨h.1.congr ⟨rfl, rfl, rfl⟩ hu, fun hp => (h.2 hp).congr ⟨rfl, rfl, rfl⟩ hu⟩

/-- An operand in RAM or ROM is the content of its cell (40_addressing_modes.md R110). -/
theorem memByte_plain {m : MemOp} {s : State} (h : readable s.memMap (memEa m s).1 1 = true) :
    memByte m s = s.cell (memEa m s).1 := by
  have k := memEa_same m s
  unfold memByte
  rw [State.read8_plain (by rw [k.memMap_eq, State.baseMoved_memMap]; exact h)]
  simp only [State.cell, k.mem_eq, State.baseMoved_mem]

/-- A 16-bit operand in RAM or ROM is the content of its two cells, high byte first. -/
theorem readSrc16_plain {m : MemOp} {s : State} (h : readable s.memMap (memEa m s).1 2 = true) :
    (readSrc16 (.mem m) s).1 = wordOf (s.cell (memEa m s).1) (s.cell ((memEa m s).1 + 1#16)) := by
  have k := memEa_same m s
  unfold readSrc16
  simp only
  rw [State.read16_plain (by rw [k.memMap_eq, State.baseMoved_memMap]; exact h)]
  simp only [State.cell, k.mem_eq, State.baseMoved_mem]

/-- Reading an 8-bit operand moves the base register of an auto form and changes device traffic besides. -/
theorem readSrc8_same (src : Src8) (s : State) : SameButDevices (s.baseMoved8 src) (readSrc8 src s).2 := by
  cases src with
  | imm data => exact SameButDevices.refl s
  | mem m => exact (memEa_same m s).trans (State.read8_same _ _)

/-- Reading a 16-bit operand moves the base register of an auto form and changes device traffic besides. -/
theorem readSrc16_same (src : Src16) (s : State) : SameButDevices (s.baseMoved16 src) (readSrc16 src s).2 := by
  cases src with
  | imm data => exact SameButDevices.refl s
  | mem m => exact (memEa_same m s).trans (State.read16_same _ _)

/-! ### Shapes of operation -/

/-- The register and flag part of a change commutes with device traffic. -/
theorem SameButDevices.regs {s t : State} (h : SameButDevices s t) (r : Reg8) (v : Byte) (cc : CC) :
    SameButDevices { s.set8 r v with cc := cc } { t.set8 r v with cc := cc } := by
  unfold SameButDevices at *
  cases r <;> (rw [h]; rfl)

/-- The register and flag part of a change commutes with device traffic. -/
theorem SameButDevices.regs16 {s t : State} (h : SameButDevices s t) (r : Reg16) (v : Word) (cc : CC) :
    SameButDevices { s.set16 r v with cc := cc } { t.set16 r v with cc := cc } := by
  unfold SameButDevices at *
  cases r <;> (rw [h]; rfl)

/-- A draw is device traffic. -/
theorem SameButDevices.draws (s : State) (k : Nat) : SameButDevices s { s with draws := k } := rfl

/-- A change of flags commutes with device traffic. -/
theorem SameButDevices.flags {s t : State} (h : SameButDevices s t) (cc : CC) :
    SameButDevices { s with cc := cc } { t with cc := cc } := by
  unfold SameButDevices at *
  rw [h]

/-- Device traffic leaves registers readable as before. -/
theorem SameButDevices.get8 {s t : State} (h : SameButDevices s t) (r : Reg8) : t.get8 r = s.get8 r := by
  obtain ⟨ha, hb, hx, hy, hu, hs, hpc, hdp, hcc, -⟩ := h.fields
  cases r <;> simp [ha, hb, hcc, hdp]

/-- Device traffic leaves registers readable as before. -/
theorem SameButDevices.get16 {s t : State} (h : SameButDevices s t) (r : Reg16) : t.get16 r = s.get16 r := by
  obtain ⟨ha, hb, hx, hy, hu, hs, hpc, hdp, hcc, -⟩ := h.fields
  cases r <;> simp [ha, hb, hx, hy, hu, hs, hpc]

/-- Loads of 8 bits. -/
theorem load8_spec (r : Reg8) (src : Src8) (s : State) :
    SameButDevices { (s.baseMoved8 src).set8 r (readSrc8 src s).1 with cc := s.cc.nzv0 (readSrc8 src s).1 }
      (load8 r src s) ∧ ReadsOperand8 src s (load8 r src s) := by
  have h := readSrc8_same src s
  have hc : (readSrc8 src s).2.cc = s.cc := by rw [h.cc_eq]; simp
  simp only [load8, hc]
  exact ⟨h.regs r _ _, (readSrc8_reads src s).congr (by cases r <;> exact ⟨rfl, rfl⟩)⟩

/-- Loads of 16 bits. -/
theorem load16_spec (r : Reg16) (src : Src16) (s : State) :
    SameButDevices { (s.baseMoved16 src).set16 r (readSrc16 src s).1 with cc := s.cc.nzv0 (readSrc16 src s).1 }
      (load16 r src s) ∧ ReadsOperand16 src s (load16 r src s) := by
  have h := readSrc16_same src s
  have hc : (readSrc16 src s).2.cc = s.cc := by rw [h.cc_eq]; simp
  simp only [load16, hc]
  exact ⟨h.regs16 r _ _, (readSrc16_reads src s).congr (by cases r <;> exact ⟨rfl, rfl⟩)⟩

/-- Stores of 8 bits: flags, everything a store does to memory, and its accesses. -/
theorem store8_spec {s : State} (hw : Memory.wf s.mem = true) (r : Reg8) (dst : MemOp) :
    SameButMemory { s.baseMoved dst with cc := s.cc.nzv0 ((s.baseMoved dst).get8 r) } (store8 r dst s) ∧
      WroteByte s (memEa dst s).1 ((s.baseMoved dst).get8 r) (store8 r dst s) ∧
      AccessesAtEa dst [.write (memEa dst s).1 ((s.baseMoved dst).get8 r)] s
        (store8 r dst s) := by
  have h := memEa_same dst s
  have hc : (memEa dst s).2.cc = s.cc := by rw [h.cc_eq]; simp
  have hm : (memEa dst s).2.mem = s.mem := by rw [h.mem_eq]; simp
  have hk : (memEa dst s).2.memMap = s.memMap := by rw [h.memMap_eq]; simp
  simp only [store8, hc, h.get8 r]
  refine ⟨?_, fun k => ?_, .intro ((State.write8_accessed _ _ _).congr ⟨rfl, rfl, rfl⟩ ⟨rfl, rfl⟩)⟩
  · have w := State.write8_same (memEa dst s).2 (memEa dst s).1 ((s.baseMoved dst).get8 r)
    have := h.toMemory.trans w
    unfold SameButMemory at *
    rw [this]
  · have w := State.write8_wrote (s := (memEa dst s).2) (by rw [hm]; exact hw) (memEa dst s).1
      ((s.baseMoved dst).get8 r) k
    simp only [State.cell, hm, hk] at w ⊢
    exact w

/-- Stores of 16 bits: flags, everything a store does to memory, and its accesses. -/
theorem store16_spec {s : State} (hw : Memory.wf s.mem = true) (r : Reg16) (dst : MemOp) :
    SameButMemory { s.baseMoved dst with cc := s.cc.nzv0 ((s.baseMoved dst).get16 r) } (store16 r dst s) ∧
      WroteWord s (memEa dst s).1 ((s.baseMoved dst).get16 r) (store16 r dst s) ∧
      AccessesAtEa dst (wordWrite (memEa dst s).1 ((s.baseMoved dst).get16 r)) s
        (store16 r dst s) := by
  have h := memEa_same dst s
  have hc : (memEa dst s).2.cc = s.cc := by rw [h.cc_eq]; simp
  have hm : (memEa dst s).2.mem = s.mem := by rw [h.mem_eq]; simp
  have hk : (memEa dst s).2.memMap = s.memMap := by rw [h.memMap_eq]; simp
  simp only [store16, hc, h.get16 r]
  refine ⟨?_, fun k => ?_, .intro ((State.write16_accessed _ _ _).congr ⟨rfl, rfl, rfl⟩ ⟨rfl, rfl⟩)⟩
  · have w := State.write16_same (memEa dst s).2 (memEa dst s).1 ((s.baseMoved dst).get16 r)
    have := h.toMemory.trans w
    unfold SameButMemory at *
    rw [this]
  · have w := State.write16_wrote (s := (memEa dst s).2) (by rw [hm]; exact hw) (memEa dst s).1
      ((s.baseMoved dst).get16 r) k
    simp only [State.cell, hm, hk] at w ⊢
    exact w

/-- `alu8`: the register and the flags of the operation on the register, the operand and the old flags. -/
theorem alu8_spec (f : Byte → Byte → CC → Byte × CC) (r : Reg8) (src : Src8) (s : State) :
    SameButDevices
      { (s.baseMoved8 src).set8 r (f ((s.baseMoved8 src).get8 r) (readSrc8 src s).1 s.cc).1 with
        cc := (f ((s.baseMoved8 src).get8 r) (readSrc8 src s).1 s.cc).2 }
      (alu8 f r src s) ∧ ReadsOperand8 src s (alu8 f r src s) := by
  have h := readSrc8_same src s
  have hc : (readSrc8 src s).2.cc = s.cc := by rw [h.cc_eq]; simp
  simp only [alu8, hc, h.get8 r]
  exact ⟨h.regs r _ _, (readSrc8_reads src s).congr (by cases r <;> exact ⟨rfl, rfl⟩)⟩

/-- `alu8Any`: as `alu8`, for some free bit. -/
theorem alu8Any_spec (f : Bool → Byte → Byte → CC → Byte × CC) (r : Reg8) (src : Src8) (s : State) :
    ∃ any, SameButDevices
      { (s.baseMoved8 src).set8 r (f any ((s.baseMoved8 src).get8 r) (readSrc8 src s).1 s.cc).1 with
        cc := (f any ((s.baseMoved8 src).get8 r) (readSrc8 src s).1 s.cc).2 }
      (alu8Any f r src s) ∧ ReadsOperand8 src s (alu8Any f r src s) := by
  have h := readSrc8_same src s
  have hc : (readSrc8 src s).2.cc = s.cc := by rw [h.cc_eq]; simp
  refine ⟨Config.anyBit (readSrc8 src s).2.draws, ?_⟩
  simp only [alu8Any, hc, h.get8 r]
  exact ⟨(h.regs r _ _).trans (SameButDevices.draws _ _), (readSrc8_reads src s).congr (by cases r <;> exact ⟨rfl, rfl⟩)⟩

/-- `test8`: the flags of the operation, nothing else. -/
theorem test8_spec (f : Byte → Byte → CC → Byte × CC) (r : Reg8) (src : Src8) (s : State) :
    SameButDevices
      { s.baseMoved8 src with cc := (f ((s.baseMoved8 src).get8 r) (readSrc8 src s).1 s.cc).2 }
      (test8 f r src s) ∧ ReadsOperand8 src s (test8 f r src s) := by
  have h := readSrc8_same src s
  have hc : (readSrc8 src s).2.cc = s.cc := by rw [h.cc_eq]; simp
  simp only [test8, hc, h.get8 r]
  exact ⟨h.flags _, (readSrc8_reads src s).congr (by exact ⟨rfl, rfl⟩)⟩

/-- `test8Any`: as `test8`, for some free bit. -/
theorem test8Any_spec (f : Bool → Byte → Byte → CC → Byte × CC) (r : Reg8) (src : Src8) (s : State) :
    ∃ any, SameButDevices
      { s.baseMoved8 src with cc := (f any ((s.baseMoved8 src).get8 r) (readSrc8 src s).1 s.cc).2 }
      (test8Any f r src s) ∧ ReadsOperand8 src s (test8Any f r src s) := by
  have h := readSrc8_same src s
  have hc : (readSrc8 src s).2.cc = s.cc := by rw [h.cc_eq]; simp
  refine ⟨Config.anyBit (readSrc8 src s).2.draws, ?_⟩
  simp only [test8Any, hc, h.get8 r]
  exact ⟨(h.flags _).trans (SameButDevices.draws _ _), (readSrc8_reads src s).congr (by exact ⟨rfl, rfl⟩)⟩

/-- `alu16`: the register and the flags of the operation. -/
theorem alu16_spec (f : Word → Word → CC → Word × CC) (r : Reg16) (src : Src16) (s : State) :
    SameButDevices
      { (s.baseMoved16 src).set16 r (f ((s.baseMoved16 src).get16 r) (readSrc16 src s).1 s.cc).1 with
        cc := (f ((s.baseMoved16 src).get16 r) (readSrc16 src s).1 s.cc).2 }
      (alu16 f r src s) ∧ ReadsOperand16 src s (alu16 f r src s) := by
  have h := readSrc16_same src s
  have hc : (readSrc16 src s).2.cc = s.cc := by rw [h.cc_eq]; simp
  simp only [alu16, hc, h.get16 r]
  exact ⟨h.regs16 r _ _, (readSrc16_reads src s).congr (by cases r <;> exact ⟨rfl, rfl⟩)⟩

/-- `test16`: the flags of the operation, nothing else. -/
theorem test16_spec (f : Word → Word → CC → Word × CC) (r : Reg16) (src : Src16) (s : State) :
    SameButDevices
      { s.baseMoved16 src with cc := (f ((s.baseMoved16 src).get16 r) (readSrc16 src s).1 s.cc).2 }
      (test16 f r src s) ∧ ReadsOperand16 src s (test16 f r src s) := by
  have h := readSrc16_same src s
  have hc : (readSrc16 src s).2.cc = s.cc := by rw [h.cc_eq]; simp
  simp only [test16, hc, h.get16 r]
  exact ⟨h.flags _, (readSrc16_reads src s).congr (by exact ⟨rfl, rfl⟩)⟩

/-- Read-modify-write with any bit: flags, everything it does to memory, and its accesses. -/
theorem rmw_core {s t : State} (hw : Memory.wf s.mem = true) (dst : MemOp) (r : Byte) (cc : CC) (k : Nat)
    (ht : t = State.write8 { ((memEa dst s).2.read8 (memEa dst s).1).2 with cc := cc, draws := k }
      (memEa dst s).1 r) :
    SameButMemory { s.baseMoved dst with cc := cc } t ∧ WroteByte s (memEa dst s).1 r t ∧
      AccessesAtEa dst [.write (memEa dst s).1 r, .read (memEa dst s).1 (memByte dst s)] s t := by
  have h := (memEa_same dst s).trans (State.read8_same (memEa dst s).2 (memEa dst s).1)
  have hm : ((memEa dst s).2.read8 (memEa dst s).1).2.mem = s.mem := by
    rw [h.mem_eq]; simp
  have hk : ((memEa dst s).2.read8 (memEa dst s).1).2.memMap = s.memMap := by
    rw [h.memMap_eq]; simp
  subst ht
  refine ⟨?_, fun j => ?_, .intro ?_⟩
  · have h1 := ((h.flags cc).trans (SameButDevices.draws _ k)).toMemory
    exact h1.trans (State.write8_same _ _ _)
  · have w := State.write8_wrote
      (s := { ((memEa dst s).2.read8 (memEa dst s).1).2 with cc := cc, draws := k })
      (by simpa only [hm] using hw) (memEa dst s).1 r j
    simp only [State.cell, hm, hk] at w ⊢
    exact w
  · have k2 := State.write8_accessed { ((memEa dst s).2.read8 (memEa dst s).1).2 with cc := cc, draws := k }
      (memEa dst s).1 r
    exact (State.read8_accessed (memEa dst s).2 (memEa dst s).1).trans (k2.congr ⟨rfl, rfl, rfl⟩ ⟨rfl, rfl⟩)
      (State.read8_same _ _).memMap_eq

/-- `rmw8`: the operation on the byte read, its flags, and everything it does to memory (43 R211). -/
theorem rmw8_spec {s : State} (hw : Memory.wf s.mem = true) (f : Byte → CC → Byte × CC) (dst : MemOp) :
    SameButMemory { s.baseMoved dst with cc := (f (memByte dst s) s.cc).2 } (rmw8 f dst s) ∧
      WroteByte s (memEa dst s).1 (f (memByte dst s) s.cc).1 (rmw8 f dst s) ∧
      AccessesAtEa dst
        [.write (memEa dst s).1 (f (memByte dst s) s.cc).1, .read (memEa dst s).1 (memByte dst s)] s (rmw8 f dst s) := by
  have h := (memEa_same dst s).trans (State.read8_same (memEa dst s).2 (memEa dst s).1)
  have hc : ((memEa dst s).2.read8 (memEa dst s).1).2.cc = s.cc := by
    rw [h.cc_eq]; simp
  exact rmw_core hw dst _ _ _ (by simp only [rmw8, hc, memByte]; rfl)

/-- `rmw8Any`: as `rmw8`, for some free bit. -/
theorem rmw8Any_spec {s : State} (hw : Memory.wf s.mem = true) (f : Bool → Byte → CC → Byte × CC) (dst : MemOp) :
    ∃ any, SameButMemory { s.baseMoved dst with cc := (f any (memByte dst s) s.cc).2 } (rmw8Any f dst s) ∧
      WroteByte s (memEa dst s).1 (f any (memByte dst s) s.cc).1 (rmw8Any f dst s) ∧
      AccessesAtEa dst
        [.write (memEa dst s).1 (f any (memByte dst s) s.cc).1, .read (memEa dst s).1 (memByte dst s)] s
        (rmw8Any f dst s) := by
  have h := (memEa_same dst s).trans (State.read8_same (memEa dst s).2 (memEa dst s).1)
  have hc : ((memEa dst s).2.read8 (memEa dst s).1).2.cc = s.cc := by
    rw [h.cc_eq]; simp
  refine ⟨Config.anyBit ((memEa dst s).2.read8 (memEa dst s).1).2.draws, ?_⟩
  exact rmw_core hw dst _ _ _ (by simp only [rmw8Any, hc, memByte]; rfl)

/-- `acc8Any`, for some free bit. -/
theorem acc8Any_spec (f : Bool → Byte → CC → Byte × CC) (r : Reg8) (s : State) :
    ∃ any, SameButDevices { s.set8 r (f any (s.get8 r) s.cc).1 with cc := (f any (s.get8 r) s.cc).2 }
      (acc8Any f r s) :=
  ⟨_, rfl⟩

/-- `tstMem`: the flags of the byte read, nothing else; one read. -/
theorem tstMem_spec (dst : MemOp) (s : State) :
    SameButDevices { s.baseMoved dst with cc := s.cc.nzv0 (memByte dst s) } (tstMem dst s) ∧
      AccessesAtEa dst [.read (memEa dst s).1 (memByte dst s)] s (tstMem dst s) := by
  have h := (memEa_same dst s).trans (State.read8_same (memEa dst s).2 (memEa dst s).1)
  have hc : ((memEa dst s).2.read8 (memEa dst s).1).2.cc = s.cc := by
    rw [h.cc_eq]; simp
  simp only [tstMem, hc, memByte]
  exact ⟨h.flags _, .intro ((State.read8_accessed _ _).congr ⟨rfl, rfl, rfl⟩ ⟨rfl, rfl⟩)⟩

/-- The read before CLR's write is a read or nothing (20_memory.md R57). -/
theorem clrRead_eq (addr : Word) (s : State) :
    clrRead addr s = if Config.clrReads then (s.read8 addr).2 else s := by
  unfold clrRead
  cases Config.clrReads <;> split <;> rename_i h <;>
    simp only [if_true, if_false, Bool.false_eq_true]
  all_goals simp [State.read8, h]

/-- The read before CLR's write is one access or none. -/
theorem clrRead_accessed (addr : Word) (s : State) :
    Accessed (if Config.clrReads then [.read addr (s.read8 addr).1] else []) s (clrRead addr s) := by
  rw [clrRead_eq]
  split
  · exact s.read8_accessed addr
  · exact Accessed.refl s

/-- The read before CLR's write changes device traffic at most. -/
theorem clrRead_same (addr : Word) (s : State) : SameButDevices s (clrRead addr s) := by
  rw [clrRead_eq]
  split
  · exact State.read8_same _ _
  · exact SameButDevices.refl _

end Sys2Proof.Machine
end

