-- ==== Sys2Proof/Laws/PerInstr.lean ====
section
/-! SUPPORT. The family `EncodeBounds`, one lemma per instruction: its encoding has one to five bytes
(spec/30_encoding.md R80). -/

namespace Sys2Proof.Laws.EncodeBounds

/-- "An instruction is a sequence of 1 to 5 bytes" (R80). -/
def Statement (i : Instr) : Prop := 1 ≤ instrLength i ∧ instrLength i ≤ 5

/-- A post byte and what follows it. -/
theorem encIdx_length (form : Idx) : 1 ≤ (encIdx form).length ∧ (encIdx form).length ≤ 3 := by
  cases form <;> simp [encIdx]

/-- A memory operand with its opcode byte. -/
theorem encMem_length (dir idx ext : Byte) (m : MemOp) :
    2 ≤ (encMem dir idx ext m).length ∧ (encMem dir idx ext m).length ≤ 4 := by
  cases m with
  | dir adr8 => simp [encMem]
  | ext adr16 => simp [encMem]
  | idx form => have := encIdx_length form; simp [encMem]; omega

/-- An 8-bit source operand with its opcode byte. -/
theorem encSrc8_length (imm dir idx ext : Byte) (src : Src8) :
    2 ≤ (encSrc8 imm dir idx ext src).length ∧ (encSrc8 imm dir idx ext src).length ≤ 4 := by
  cases src with
  | imm data => simp [encSrc8]
  | mem m => exact encMem_length dir idx ext m

/-- A 16-bit source operand with its opcode byte. -/
theorem encSrc16_length (imm dir idx ext : Byte) (src : Src16) :
    2 ≤ (encSrc16 imm dir idx ext src).length ∧ (encSrc16 imm dir idx ext src).length ≤ 4 := by
  cases src with
  | imm data => simp [encSrc16]
  | mem m => exact encMem_length dir idx ext m

/-- A list of two to four bytes. -/
theorem short {l : List Byte} (h : 2 ≤ l.length ∧ l.length ≤ 4) : 1 ≤ l.length ∧ l.length ≤ 5 := by omega

/-- An opcode byte and an indexed form. -/
theorem indexed (op : Byte) (form : Idx) : 1 ≤ (op :: encIdx form).length ∧ (op :: encIdx form).length ≤ 5 := by
  have := encIdx_length form
  simp; omega

/-- A length that does not depend on the operands. -/
theorem fixed {i : Instr} (n : Nat) (h : instrLength i = n) (hn : 1 ≤ n ∧ n ≤ 5) : Statement i := by
  unfold Statement; rw [h]; exact hn

/-- The same with a page byte. -/
theorem paged {l : List Byte} (p : Byte) (h : 2 ≤ l.length ∧ l.length ≤ 4) :
    1 ≤ (p :: l).length ∧ (p :: l).length ≤ 5 := by simp; omega

theorem lda (src : Src8) : Statement (.lda src) := short (encSrc8_length _ _ _ _ src)
theorem ldb (src : Src8) : Statement (.ldb src) := short (encSrc8_length _ _ _ _ src)
theorem ldd (src : Src16) : Statement (.ldd src) := short (encSrc16_length _ _ _ _ src)
theorem ldx (src : Src16) : Statement (.ldx src) := short (encSrc16_length _ _ _ _ src)
theorem ldy (src : Src16) : Statement (.ldy src) := paged _ (encSrc16_length _ _ _ _ src)
theorem ldu (src : Src16) : Statement (.ldu src) := short (encSrc16_length _ _ _ _ src)
theorem lds (src : Src16) : Statement (.lds src) := paged _ (encSrc16_length _ _ _ _ src)
theorem sta (dst : MemOp) : Statement (.sta dst) := short (encMem_length _ _ _ dst)
theorem stb (dst : MemOp) : Statement (.stb dst) := short (encMem_length _ _ _ dst)
theorem std (dst : MemOp) : Statement (.std dst) := short (encMem_length _ _ _ dst)
theorem stx (dst : MemOp) : Statement (.stx dst) := short (encMem_length _ _ _ dst)
theorem sty (dst : MemOp) : Statement (.sty dst) := paged _ (encMem_length _ _ _ dst)
theorem stu (dst : MemOp) : Statement (.stu dst) := short (encMem_length _ _ _ dst)
theorem sts (dst : MemOp) : Statement (.sts dst) := paged _ (encMem_length _ _ _ dst)
theorem adca (src : Src8) : Statement (.adca src) := short (encSrc8_length _ _ _ _ src)
theorem adcb (src : Src8) : Statement (.adcb src) := short (encSrc8_length _ _ _ _ src)
theorem adda (src : Src8) : Statement (.adda src) := short (encSrc8_length _ _ _ _ src)
theorem addb (src : Src8) : Statement (.addb src) := short (encSrc8_length _ _ _ _ src)
theorem addd (src : Src16) : Statement (.addd src) := short (encSrc16_length _ _ _ _ src)
theorem suba (src : Src8) : Statement (.suba src) := short (encSrc8_length _ _ _ _ src)
theorem subb (src : Src8) : Statement (.subb src) := short (encSrc8_length _ _ _ _ src)
theorem sbca (src : Src8) : Statement (.sbca src) := short (encSrc8_length _ _ _ _ src)
theorem sbcb (src : Src8) : Statement (.sbcb src) := short (encSrc8_length _ _ _ _ src)
theorem subd (src : Src16) : Statement (.subd src) := short (encSrc16_length _ _ _ _ src)
theorem cmpa (src : Src8) : Statement (.cmpa src) := short (encSrc8_length _ _ _ _ src)
theorem cmpb (src : Src8) : Statement (.cmpb src) := short (encSrc8_length _ _ _ _ src)
theorem cmpd (src : Src16) : Statement (.cmpd src) := paged _ (encSrc16_length _ _ _ _ src)
theorem cmps (src : Src16) : Statement (.cmps src) := paged _ (encSrc16_length _ _ _ _ src)
theorem cmpu (src : Src16) : Statement (.cmpu src) := paged _ (encSrc16_length _ _ _ _ src)
theorem cmpx (src : Src16) : Statement (.cmpx src) := short (encSrc16_length _ _ _ _ src)
theorem cmpy (src : Src16) : Statement (.cmpy src) := paged _ (encSrc16_length _ _ _ _ src)
theorem anda (src : Src8) : Statement (.anda src) := short (encSrc8_length _ _ _ _ src)
theorem andb (src : Src8) : Statement (.andb src) := short (encSrc8_length _ _ _ _ src)
theorem bita (src : Src8) : Statement (.bita src) := short (encSrc8_length _ _ _ _ src)
theorem bitb (src : Src8) : Statement (.bitb src) := short (encSrc8_length _ _ _ _ src)
theorem eora (src : Src8) : Statement (.eora src) := short (encSrc8_length _ _ _ _ src)
theorem eorb (src : Src8) : Statement (.eorb src) := short (encSrc8_length _ _ _ _ src)
theorem ora (src : Src8) : Statement (.ora src) := short (encSrc8_length _ _ _ _ src)
theorem orb (src : Src8) : Statement (.orb src) := short (encSrc8_length _ _ _ _ src)
theorem asl (dst : MemOp) : Statement (.asl dst) := short (encMem_length _ _ _ dst)
theorem asla : Statement (.asla) := fixed 1 rfl (by decide)
theorem aslb : Statement (.aslb) := fixed 1 rfl (by decide)
theorem lsl (dst : MemOp) : Statement (.lsl dst) := short (encMem_length _ _ _ dst)
theorem lsla : Statement (.lsla) := fixed 1 rfl (by decide)
theorem lslb : Statement (.lslb) := fixed 1 rfl (by decide)
theorem asr (dst : MemOp) : Statement (.asr dst) := short (encMem_length _ _ _ dst)
theorem asra : Statement (.asra) := fixed 1 rfl (by decide)
theorem asrb : Statement (.asrb) := fixed 1 rfl (by decide)
theorem lsr (dst : MemOp) : Statement (.lsr dst) := short (encMem_length _ _ _ dst)
theorem lsra : Statement (.lsra) := fixed 1 rfl (by decide)
theorem lsrb : Statement (.lsrb) := fixed 1 rfl (by decide)
theorem rol (dst : MemOp) : Statement (.rol dst) := short (encMem_length _ _ _ dst)
theorem rola : Statement (.rola) := fixed 1 rfl (by decide)
theorem rolb : Statement (.rolb) := fixed 1 rfl (by decide)
theorem ror (dst : MemOp) : Statement (.ror dst) := short (encMem_length _ _ _ dst)
theorem rora : Statement (.rora) := fixed 1 rfl (by decide)
theorem rorb : Statement (.rorb) := fixed 1 rfl (by decide)
theorem neg (dst : MemOp) : Statement (.neg dst) := short (encMem_length _ _ _ dst)
theorem nega : Statement (.nega) := fixed 1 rfl (by decide)
theorem negb : Statement (.negb) := fixed 1 rfl (by decide)
theorem com (dst : MemOp) : Statement (.com dst) := short (encMem_length _ _ _ dst)
theorem coma : Statement (.coma) := fixed 1 rfl (by decide)
theorem comb : Statement (.comb) := fixed 1 rfl (by decide)
theorem clr (dst : MemOp) : Statement (.clr dst) := short (encMem_length _ _ _ dst)
theorem clra : Statement (.clra) := fixed 1 rfl (by decide)
theorem clrb : Statement (.clrb) := fixed 1 rfl (by decide)
theorem dec (dst : MemOp) : Statement (.dec dst) := short (encMem_length _ _ _ dst)
theorem deca : Statement (.deca) := fixed 1 rfl (by decide)
theorem decb : Statement (.decb) := fixed 1 rfl (by decide)
theorem inc (dst : MemOp) : Statement (.inc dst) := short (encMem_length _ _ _ dst)
theorem inca : Statement (.inca) := fixed 1 rfl (by decide)
theorem incb : Statement (.incb) := fixed 1 rfl (by decide)
theorem tst (dst : MemOp) : Statement (.tst dst) := short (encMem_length _ _ _ dst)
theorem tsta : Statement (.tsta) := fixed 1 rfl (by decide)
theorem tstb : Statement (.tstb) := fixed 1 rfl (by decide)
theorem daa : Statement (.daa) := fixed 1 rfl (by decide)
theorem bra (disp : Byte) : Statement (.bra disp) := fixed 2 rfl (by decide)
theorem lbra (disp : Word) : Statement (.lbra disp) := fixed 3 rfl (by decide)
theorem jmp (dst : MemOp) : Statement (.jmp dst) := short (encMem_length _ _ _ dst)
theorem bsr (disp : Byte) : Statement (.bsr disp) := fixed 2 rfl (by decide)
theorem lbsr (disp : Word) : Statement (.lbsr disp) := fixed 3 rfl (by decide)
theorem jsr (dst : MemOp) : Statement (.jsr dst) := short (encMem_length _ _ _ dst)
theorem rts : Statement (.rts) := fixed 1 rfl (by decide)
theorem bcc (disp : Byte) : Statement (.bcc disp) := fixed 2 rfl (by decide)
theorem bcs (disp : Byte) : Statement (.bcs disp) := fixed 2 rfl (by decide)
theorem beq (disp : Byte) : Statement (.beq disp) := fixed 2 rfl (by decide)
theorem bge (disp : Byte) : Statement (.bge disp) := fixed 2 rfl (by decide)
theorem bgt (disp : Byte) : Statement (.bgt disp) := fixed 2 rfl (by decide)
theorem bhi (disp : Byte) : Statement (.bhi disp) := fixed 2 rfl (by decide)
theorem bhs (disp : Byte) : Statement (.bhs disp) := fixed 2 rfl (by decide)
theorem ble (disp : Byte) : Statement (.ble disp) := fixed 2 rfl (by decide)
theorem blo (disp : Byte) : Statement (.blo disp) := fixed 2 rfl (by decide)
theorem bls (disp : Byte) : Statement (.bls disp) := fixed 2 rfl (by decide)
theorem blt (disp : Byte) : Statement (.blt disp) := fixed 2 rfl (by decide)
theorem bmi (disp : Byte) : Statement (.bmi disp) := fixed 2 rfl (by decide)
theorem bne (disp : Byte) : Statement (.bne disp) := fixed 2 rfl (by decide)
theorem bpl (disp : Byte) : Statement (.bpl disp) := fixed 2 rfl (by decide)
theorem bvc (disp : Byte) : Statement (.bvc disp) := fixed 2 rfl (by decide)
theorem bvs (disp : Byte) : Statement (.bvs disp) := fixed 2 rfl (by decide)
theorem lbcc (disp : Word) : Statement (.lbcc disp) := fixed 4 rfl (by decide)
theorem lbcs (disp : Word) : Statement (.lbcs disp) := fixed 4 rfl (by decide)
theorem lbeq (disp : Word) : Statement (.lbeq disp) := fixed 4 rfl (by decide)
theorem lbge (disp : Word) : Statement (.lbge disp) := fixed 4 rfl (by decide)
theorem lbgt (disp : Word) : Statement (.lbgt disp) := fixed 4 rfl (by decide)
theorem lbhi (disp : Word) : Statement (.lbhi disp) := fixed 4 rfl (by decide)
theorem lbhs (disp : Word) : Statement (.lbhs disp) := fixed 4 rfl (by decide)
theorem lble (disp : Word) : Statement (.lble disp) := fixed 4 rfl (by decide)
theorem lblo (disp : Word) : Statement (.lblo disp) := fixed 4 rfl (by decide)
theorem lbls (disp : Word) : Statement (.lbls disp) := fixed 4 rfl (by decide)
theorem lblt (disp : Word) : Statement (.lblt disp) := fixed 4 rfl (by decide)
theorem lbmi (disp : Word) : Statement (.lbmi disp) := fixed 4 rfl (by decide)
theorem lbne (disp : Word) : Statement (.lbne disp) := fixed 4 rfl (by decide)
theorem lbpl (disp : Word) : Statement (.lbpl disp) := fixed 4 rfl (by decide)
theorem lbvc (disp : Word) : Statement (.lbvc disp) := fixed 4 rfl (by decide)
theorem lbvs (disp : Word) : Statement (.lbvs disp) := fixed 4 rfl (by decide)
theorem exg (r1 : Reg) (r2 : Reg) : Statement (.exg r1 r2) := fixed 2 rfl (by decide)
theorem tfr (r1 : Reg) (r2 : Reg) : Statement (.tfr r1 r2) := fixed 2 rfl (by decide)
theorem abx : Statement (.abx) := fixed 1 rfl (by decide)
theorem mul : Statement (.mul) := fixed 1 rfl (by decide)
theorem sex : Statement (.sex) := fixed 1 rfl (by decide)
theorem leax (form : Idx) : Statement (.leax form) := indexed _ form
theorem leay (form : Idx) : Statement (.leay form) := indexed _ form
theorem leas (form : Idx) : Statement (.leas form) := indexed _ form
theorem leau (form : Idx) : Statement (.leau form) := indexed _ form
theorem pshs (list : Byte) : Statement (.pshs list) := fixed 2 rfl (by decide)
theorem pshu (list : Byte) : Statement (.pshu list) := fixed 2 rfl (by decide)
theorem puls (list : Byte) : Statement (.puls list) := fixed 2 rfl (by decide)
theorem pulu (list : Byte) : Statement (.pulu list) := fixed 2 rfl (by decide)
theorem swi : Statement (.swi) := fixed 1 rfl (by decide)
theorem swi2 : Statement (.swi2) := fixed 2 rfl (by decide)
theorem swi3 : Statement (.swi3) := fixed 2 rfl (by decide)
theorem rti : Statement (.rti) := fixed 1 rfl (by decide)
theorem cwai (data : Byte) : Statement (.cwai data) := fixed 2 rfl (by decide)
theorem sync : Statement (.sync) := fixed 1 rfl (by decide)
theorem andcc (data : Byte) : Statement (.andcc data) := fixed 2 rfl (by decide)
theorem orcc (data : Byte) : Statement (.orcc data) := fixed 2 rfl (by decide)
theorem nop : Statement (.nop) := fixed 1 rfl (by decide)
theorem brn (disp : Byte) : Statement (.brn disp) := fixed 2 rfl (by decide)
theorem lbrn (disp : Word) : Statement (.lbrn disp) := fixed 4 rfl (by decide)

end Sys2Proof.Laws.EncodeBounds
end

