-- ==== Sys2Proof/Laws/Pulls.lean ====
section
/-! SUPPORT. What PULS, PULU and RTI can do (spec/47_stack.md R343, R344; 48_interrupt_and_status.md R355): from a stack that
holds a list of register bytes they load exactly those registers; from any stack they change nothing else. -/

namespace Sys2Proof.Machine

/-! ### One item, and what lies above it -/

/-- Writing an 8-bit register leaves the stack pointers alone. -/
@[simp] theorem State.sp_set8 (s : State) (p : Stk) (r : Reg8) (v : Byte) : (s.set8 r v).sp p = s.sp p := by
  cases p <;> cases r <;> rfl

/-- The state after a conditional pull of a byte, and the rest of the stack. -/
theorem pull8_stage {s : State} {p : Stk} (r : Reg8) {c : Bool} {v : Byte} {l : List Byte}
    (h : s.holds (s.sp p) ((if c then [v] else []) ++ l)) :
    ∃ t, (if c = true then s.pullTo8 p r else s) = t ∧
      t = (s.set16 (stkReg p) (s.sp p + BitVec.ofNat 16 c.toNat)).set8 r (if c then v else s.get8 r) ∧
      t.holds (t.sp p) l := by
  refine ⟨_, pullTo8_if h, rfl, ?_⟩
  rw [State.holds_congr (s := s) (by simp) (by simp), State.sp_set8, State.sp_set16]
  have := (State.holds_append.1 h).2
  cases c <;> simpa using this

/-- The state after a conditional pull of a word into a register other than the stack pointer and D, and the rest of the
stack. -/
theorem pull16_stage {s : State} {p : Stk} (r : Reg16) (hd : r ≠ .d) (hp : r ≠ stkReg p) {c : Bool} {v : Word}
    {l : List Byte} (h : s.holds (s.sp p) ((if c then [hiByte v, loByte v] else []) ++ l)) :
    ∃ t, (if c = true then s.pullTo16 p r else s) = t ∧
      t = (s.set16 (stkReg p) (s.sp p + BitVec.ofNat 16 (2 * c.toNat))).set16 r (if c then v else s.get16 r) ∧
      t.holds (t.sp p) l := by
  refine ⟨_, pullTo16_if h, rfl, ?_⟩
  have hsp : ∀ t : State, ∀ w, (t.set16 r w).sp p = t.sp p := fun t w => State.get16_set16_ptr t _ _ w hp hd
  rw [State.holds_congr (s := s) (by simp) (by simp), hsp, State.sp_set16]
  have := (State.holds_append.1 h).2
  cases c <;> simpa using this

/-- A byte of CC pulled or not. -/
theorem CC.ofByte_if (c : Bool) (v w : CC) :
    CC.ofByte (if c = true then v.toByte else w.toByte) = if c = true then v else w := by
  cases c <;> simp

/-- The stack pointer after a list was pulled. -/
theorem listCount_sum (sp : Word) (list : Byte) :
    sp + BitVec.ofNat 16 (list.getLsbD 0).toNat + BitVec.ofNat 16 (list.getLsbD 1).toNat +
      BitVec.ofNat 16 (list.getLsbD 2).toNat + BitVec.ofNat 16 (list.getLsbD 3).toNat +
      BitVec.ofNat 16 (2 * (list.getLsbD 4).toNat) + BitVec.ofNat 16 (2 * (list.getLsbD 5).toNat) +
      BitVec.ofNat 16 (2 * (list.getLsbD 6).toNat) + BitVec.ofNat 16 (2 * (list.getLsbD 7).toNat) =
    sp + BitVec.ofNat 16 (listCount list) := by
  simp only [listCount, BitVec.ofNat_add, BitVec.add_assoc]

/-- PULS from a stack that holds the registers of `v`. -/
theorem pullList_s_holds {s v : State} {list : Byte} (h : s.holds s.s (listBytes .s list v)) :
    pullList .s list s = { s with
      s := s.s + BitVec.ofNat 16 (listCount list)
      cc := if list.getLsbD 0 then v.cc else s.cc
      a := if list.getLsbD 1 then v.a else s.a
      b := if list.getLsbD 2 then v.b else s.b
      dp := if list.getLsbD 3 then v.dp else s.dp
      x := if list.getLsbD 4 then v.x else s.x
      y := if list.getLsbD 5 then v.y else s.y
      u := if list.getLsbD 6 then v.u else s.u
      pc := if list.getLsbD 7 then v.pc else s.pc } := by
  unfold listBytes at h
  obtain ⟨t0, e0, r0, h0⟩ := pull8_stage (p := .s) .cc h
  obtain ⟨t1, e1, r1, h1⟩ := pull8_stage (p := .s) .a h0
  obtain ⟨t2, e2, r2, h2⟩ := pull8_stage (p := .s) .b h1
  obtain ⟨t3, e3, r3, h3⟩ := pull8_stage (p := .s) .dp h2
  obtain ⟨t4, e4, r4, h4⟩ := pull16_stage (p := .s) .x (by decide) (by decide) h3
  obtain ⟨t5, e5, r5, h5⟩ := pull16_stage (p := .s) .y (by decide) (by decide) h4
  obtain ⟨t6, e6, r6, h6⟩ := pull16_stage (p := .s) .u (by decide) (by decide) h5
  rw [← List.append_nil (if list.getLsbD 7 = true then _ else _)] at h6
  obtain ⟨t7, e7, r7, -⟩ := pull16_stage (p := .s) .pc (by decide) (by decide) h6
  clear h h0 h1 h2 h3 h4 h5 h6
  simp only [pullList, otherStk, e0, e1, e2, e3, e4, e5, e6, e7]
  rw [← listCount_sum]
  simp [r7, r6, r5, r4, r3, r2, r1, r0, stkReg, otherStk, CC.ofByte_if]

/-- PULU from a stack that holds the registers of `v`. -/
theorem pullList_u_holds {s v : State} {list : Byte} (h : s.holds s.u (listBytes .u list v)) :
    pullList .u list s = { s with
      u := s.u + BitVec.ofNat 16 (listCount list)
      cc := if list.getLsbD 0 then v.cc else s.cc
      a := if list.getLsbD 1 then v.a else s.a
      b := if list.getLsbD 2 then v.b else s.b
      dp := if list.getLsbD 3 then v.dp else s.dp
      x := if list.getLsbD 4 then v.x else s.x
      y := if list.getLsbD 5 then v.y else s.y
      s := if list.getLsbD 6 then v.s else s.s
      pc := if list.getLsbD 7 then v.pc else s.pc } := by
  unfold listBytes at h
  obtain ⟨t0, e0, r0, h0⟩ := pull8_stage (p := .u) .cc h
  obtain ⟨t1, e1, r1, h1⟩ := pull8_stage (p := .u) .a h0
  obtain ⟨t2, e2, r2, h2⟩ := pull8_stage (p := .u) .b h1
  obtain ⟨t3, e3, r3, h3⟩ := pull8_stage (p := .u) .dp h2
  obtain ⟨t4, e4, r4, h4⟩ := pull16_stage (p := .u) .x (by decide) (by decide) h3
  obtain ⟨t5, e5, r5, h5⟩ := pull16_stage (p := .u) .y (by decide) (by decide) h4
  obtain ⟨t6, e6, r6, h6⟩ := pull16_stage (p := .u) .s (by decide) (by decide) h5
  rw [← List.append_nil (if list.getLsbD 7 = true then _ else _)] at h6
  obtain ⟨t7, e7, r7, -⟩ := pull16_stage (p := .u) .pc (by decide) (by decide) h6
  clear h h0 h1 h2 h3 h4 h5 h6
  simp only [pullList, otherStk, e0, e1, e2, e3, e4, e5, e6, e7]
  rw [← listCount_sum]
  simp [r7, r6, r5, r4, r3, r2, r1, r0, stkReg, otherStk, CC.ofByte_if]

/-! ### The return from an event -/

/-- RTI from a stack that holds an entire frame, one whose CC has E = 1 (60_exceptions.md R397). -/
theorem State.returnFromEvent_entire {s v : State} (he : v.cc.e = true) (h : s.holds s.s (frameBytes true v)) :
    s.returnFromEvent = { s with
      s := s.s + 12#16, cc := v.cc, a := v.a, b := v.b, dp := v.dp, x := v.x, y := v.y, u := v.u, pc := v.pc } := by
  rw [frameBytes_entire] at h
  unfold listBytes at h
  obtain ⟨t0, e0, r0, h0⟩ := pull8_stage (p := .s) .cc h
  obtain ⟨t1, e1, r1, h1⟩ := pull8_stage (p := .s) .a h0
  obtain ⟨t2, e2, r2, h2⟩ := pull8_stage (p := .s) .b h1
  obtain ⟨t3, e3, r3, h3⟩ := pull8_stage (p := .s) .dp h2
  obtain ⟨t4, e4, r4, h4⟩ := pull16_stage (p := .s) .x (by decide) (by decide) h3
  obtain ⟨t5, e5, r5, h5⟩ := pull16_stage (p := .s) .y (by decide) (by decide) h4
  obtain ⟨t6, e6, r6, h6⟩ := pull16_stage (p := .s) .u (by decide) (by decide) h5
  rw [← List.append_nil (if (0xFF#8).getLsbD 7 = true then _ else _)] at h6
  obtain ⟨t7, e7, r7, -⟩ := pull16_stage (p := .s) .pc (by decide) (by decide) h6
  have c : ∀ i, i < 8 → (0xFF#8 : Byte).getLsbD i = true := by decide
  simp only [c _ (by decide : (0 : Nat) < 8), c _ (by decide : (1 : Nat) < 8), c _ (by decide : (2 : Nat) < 8),
    c _ (by decide : (3 : Nat) < 8), c _ (by decide : (4 : Nat) < 8), c _ (by decide : (5 : Nat) < 8),
    c _ (by decide : (6 : Nat) < 8), c _ (by decide : (7 : Nat) < 8), if_true, Bool.toNat_true] at *
  clear h h0 h1 h2 h3 h4 h5 h6
  have hcc : t0.cc.e = true := by simp [r0, he]
  simp only [State.returnFromEvent, e0, hcc, if_true, e1, e2, e3, e4, e5, e6, e7]
  simp [r7, r6, r5, r4, r3, r2, r1, r0, stkReg, otherStk, BitVec.add_assoc]

/-- RTI from a stack that holds a short frame, one whose CC has E = 0 (R397). -/
theorem State.returnFromEvent_short {s v : State} (he : v.cc.e = false) (h : s.holds s.s (frameBytes false v)) :
    s.returnFromEvent = { s with s := s.s + 3#16, cc := v.cc, pc := v.pc } := by
  have h' : s.holds s.s ((if true then [v.cc.toByte] else []) ++
      ((if true then [hiByte v.pc, loByte v.pc] else []) ++ [])) := h
  obtain ⟨t0, e0, r0, h0⟩ := pull8_stage (p := .s) .cc h'
  obtain ⟨t1, e1, r1, -⟩ := pull16_stage (p := .s) .pc (by decide) (by decide) h0
  simp only [if_true, Bool.toNat_true] at *
  clear h h' h0
  have hcc : t0.cc.e = false := by simp [r0, he]
  simp only [State.returnFromEvent, e0, hcc, Bool.false_eq_true, if_false, e1]
  simp [r1, r0, stkReg, BitVec.add_assoc]

/-! ### From any stack -/

/-- A register write commutes with device traffic. -/
theorem SameButDevices.set8 {s t : State} (h : SameButDevices s t) (r : Reg8) (v : Byte) :
    SameButDevices (s.set8 r v) (t.set8 r v) := by
  unfold SameButDevices at *
  cases r <;> (rw [h]; rfl)

/-- A register write commutes with device traffic. -/
theorem SameButDevices.set16 {s t : State} (h : SameButDevices s t) (r : Reg16) (v : Word) :
    SameButDevices (s.set16 r v) (t.set16 r v) := by
  unfold SameButDevices at *
  cases r <;> (rw [h]; rfl)

/-- Device traffic leaves the stack pointers alone. -/
theorem SameButDevices.sp {s t : State} (h : SameButDevices s t) (p : Stk) : t.sp p = s.sp p := by
  cases p
  · exact h.fields.2.2.2.2.2.1
  · exact h.fields.2.2.2.2.1

/-- A pull of a byte writes its register and its stack pointer and changes device traffic besides. -/
theorem State.pullTo8_same (s : State) (p : Stk) (r : Reg8) :
    ∃ v, SameButDevices ((s.set16 (stkReg p) (s.sp p + 1#16)).set8 r v) (s.pullTo8 p r) :=
  ⟨_, (s.pull8_same p).set8 r _⟩

/-- A pull of a word writes its register and its stack pointer and changes device traffic besides. -/
theorem State.pullTo16_same (s : State) (p : Stk) (r : Reg16) :
    ∃ v, SameButDevices ((s.set16 (stkReg p) (s.sp p + 2#16)).set16 r v) (s.pullTo16 p r) := by
  have h1 := s.pull8_same p
  have h2 := State.pull8_same (s.pull8 p).2 p
  rw [h1.sp p, State.sp_set16] at h2
  have h3 := (h1.set16 (stkReg p) (s.sp p + 1#16 + 1#16)).trans h2
  rw [State.set16_stk_twice, BitVec.add_assoc] at h3
  exact ⟨_, h3.set16 r _⟩

/-- A conditional pull of a byte, from any stack. -/
theorem pull8_any {s t : State} {p : Stk} (h : SameButDevices s t) (r : Reg8) (c : Bool) :
    ∃ v, SameButDevices
      ((s.set16 (stkReg p) (s.sp p + BitVec.ofNat 16 c.toNat)).set8 r (if c then v else s.get8 r))
      (if c = true then t.pullTo8 p r else t) := by
  cases c with
  | true =>
    obtain ⟨v, hv⟩ := t.pullTo8_same p r
    rw [h.sp p] at hv
    exact ⟨v, ((h.set16 _ _).set8 r v).trans hv⟩
  | false =>
    refine ⟨0#8, ?_⟩
    have : s.set16 (stkReg p) (s.sp p) = s := s.set16_stk_self p
    simpa [this] using h

/-- A conditional pull of a word, from any stack. -/
theorem pull16_any {s t : State} {p : Stk} (h : SameButDevices s t) (r : Reg16) (c : Bool) :
    ∃ v, SameButDevices
      ((s.set16 (stkReg p) (s.sp p + BitVec.ofNat 16 (2 * c.toNat))).set16 r (if c then v else s.get16 r))
      (if c = true then t.pullTo16 p r else t) := by
  cases c with
  | true =>
    obtain ⟨v, hv⟩ := t.pullTo16_same p r
    rw [h.sp p] at hv
    exact ⟨v, ((h.set16 _ _).set16 r v).trans hv⟩
  | false =>
    refine ⟨0#16, ?_⟩
    have : s.set16 (stkReg p) (s.sp p) = s := s.set16_stk_self p
    simpa [this, State.set16_self] using h

/-- Whatever the stack holds, PULS writes the registers of its list and its stack pointer alone. -/
theorem pullList_s_any (s : State) (list : Byte) : ∃ w : State, SameButDevices { s with
      s := s.s + BitVec.ofNat 16 (listCount list)
      cc := if list.getLsbD 0 then w.cc else s.cc
      a := if list.getLsbD 1 then w.a else s.a
      b := if list.getLsbD 2 then w.b else s.b
      dp := if list.getLsbD 3 then w.dp else s.dp
      x := if list.getLsbD 4 then w.x else s.x
      y := if list.getLsbD 5 then w.y else s.y
      u := if list.getLsbD 6 then w.u else s.u
      pc := if list.getLsbD 7 then w.pc else s.pc } (pullList .s list s) := by
  obtain ⟨v0, h0⟩ := pull8_any (p := .s) (SameButDevices.refl s) .cc (list.getLsbD 0)
  obtain ⟨v1, h1⟩ := pull8_any (p := .s) h0 .a (list.getLsbD 1)
  obtain ⟨v2, h2⟩ := pull8_any (p := .s) h1 .b (list.getLsbD 2)
  obtain ⟨v3, h3⟩ := pull8_any (p := .s) h2 .dp (list.getLsbD 3)
  obtain ⟨v4, h4⟩ := pull16_any (p := .s) h3 .x (list.getLsbD 4)
  obtain ⟨v5, h5⟩ := pull16_any (p := .s) h4 .y (list.getLsbD 5)
  obtain ⟨v6, h6⟩ := pull16_any (p := .s) h5 .u (list.getLsbD 6)
  obtain ⟨v7, h7⟩ := pull16_any (p := .s) h6 .pc (list.getLsbD 7)
  refine ⟨{ s with cc := CC.ofByte v0, a := v1, b := v2, dp := v3, x := v4, y := v5, u := v6, pc := v7 }, ?_⟩
  rw [← listCount_sum]
  have hcc : (if list.getLsbD 0 = true then CC.ofByte v0 else s.cc) =
      CC.ofByte (if list.getLsbD 0 = true then v0 else s.cc.toByte) := by split <;> simp
  rw [hcc]
  simpa only [pullList, otherStk, stkReg, State.set8_at_a, State.set8_at_b, State.set8_at_dp, State.set8_at_cc,
    State.set16_at_x, State.set16_at_y, State.set16_at_u, State.set16_at_s, State.set16_at_pc, State.get8_at_a,
    State.get8_at_b, State.get8_at_dp, State.get8_at_cc, State.get16_at_x, State.get16_at_y, State.get16_at_u,
    State.get16_at_s, State.get16_at_pc, State.sp_s, State.sp_u] using h7

/-- Whatever the stack holds, PULU writes the registers of its list and its stack pointer alone. -/
theorem pullList_u_any (s : State) (list : Byte) : ∃ w : State, SameButDevices { s with
      u := s.u + BitVec.ofNat 16 (listCount list)
      cc := if list.getLsbD 0 then w.cc else s.cc
      a := if list.getLsbD 1 then w.a else s.a
      b := if list.getLsbD 2 then w.b else s.b
      dp := if list.getLsbD 3 then w.dp else s.dp
      x := if list.getLsbD 4 then w.x else s.x
      y := if list.getLsbD 5 then w.y else s.y
      s := if list.getLsbD 6 then w.s else s.s
      pc := if list.getLsbD 7 then w.pc else s.pc } (pullList .u list s) := by
  obtain ⟨v0, h0⟩ := pull8_any (p := .u) (SameButDevices.refl s) .cc (list.getLsbD 0)
  obtain ⟨v1, h1⟩ := pull8_any (p := .u) h0 .a (list.getLsbD 1)
  obtain ⟨v2, h2⟩ := pull8_any (p := .u) h1 .b (list.getLsbD 2)
  obtain ⟨v3, h3⟩ := pull8_any (p := .u) h2 .dp (list.getLsbD 3)
  obtain ⟨v4, h4⟩ := pull16_any (p := .u) h3 .x (list.getLsbD 4)
  obtain ⟨v5, h5⟩ := pull16_any (p := .u) h4 .y (list.getLsbD 5)
  obtain ⟨v6, h6⟩ := pull16_any (p := .u) h5 .s (list.getLsbD 6)
  obtain ⟨v7, h7⟩ := pull16_any (p := .u) h6 .pc (list.getLsbD 7)
  refine ⟨{ s with cc := CC.ofByte v0, a := v1, b := v2, dp := v3, x := v4, y := v5, s := v6, pc := v7 }, ?_⟩
  rw [← listCount_sum]
  have hcc : (if list.getLsbD 0 = true then CC.ofByte v0 else s.cc) =
      CC.ofByte (if list.getLsbD 0 = true then v0 else s.cc.toByte) := by split <;> simp
  rw [hcc]
  simpa only [pullList, otherStk, stkReg, State.set8_at_a, State.set8_at_b, State.set8_at_dp, State.set8_at_cc,
    State.set16_at_x, State.set16_at_y, State.set16_at_u, State.set16_at_s, State.set16_at_pc, State.get8_at_a,
    State.get8_at_b, State.get8_at_dp, State.get8_at_cc, State.get16_at_x, State.get16_at_y, State.get16_at_u,
    State.get16_at_s, State.get16_at_pc, State.sp_s, State.sp_u] using h7

/-- Whatever the stack holds, RTI writes the registers of the frame that the pulled E selects, and S. -/
theorem State.returnFromEvent_any (s : State) : ∃ w : State, SameButDevices
    (if w.cc.e then { s with
        s := s.s + 12#16, cc := w.cc, a := w.a, b := w.b, dp := w.dp, x := w.x, y := w.y, u := w.u, pc := w.pc }
      else { s with s := s.s + 3#16, cc := w.cc, pc := w.pc })
    s.returnFromEvent := by
  obtain ⟨v0, h0⟩ := s.pullTo8_same .s .cc
  have hcc : (s.pullTo8 .s .cc).cc = CC.ofByte v0 := by
    have := h0.fields.2.2.2.2.2.2.2.2.1
    simpa using this
  cases he : (CC.ofByte v0).e with
  | true =>
    obtain ⟨v1, h1⟩ := pull8_any (p := .s) h0 .a true
    obtain ⟨v2, h2⟩ := pull8_any (p := .s) h1 .b true
    obtain ⟨v3, h3⟩ := pull8_any (p := .s) h2 .dp true
    obtain ⟨v4, h4⟩ := pull16_any (p := .s) h3 .x true
    obtain ⟨v5, h5⟩ := pull16_any (p := .s) h4 .y true
    obtain ⟨v6, h6⟩ := pull16_any (p := .s) h5 .u true
    obtain ⟨v7, h7⟩ := pull16_any (p := .s) h6 .pc true
    refine ⟨{ s with cc := CC.ofByte v0, a := v1, b := v2, dp := v3, x := v4, y := v5, u := v6, pc := v7 }, ?_⟩
    simp only [State.returnFromEvent, hcc, he, if_true] at h7 ⊢
    simpa [stkReg, BitVec.add_assoc] using h7
  | false =>
    obtain ⟨v1, h1⟩ := pull16_any (p := .s) h0 .pc true
    refine ⟨{ s with cc := CC.ofByte v0, pc := v1 }, ?_⟩
    simp only [State.returnFromEvent, hcc, he, Bool.false_eq_true, if_false]
    simpa [stkReg, BitVec.add_assoc] using h1

end Sys2Proof.Machine
end

