-- ==== Sys2Proof/Laws/Step.lean ====
section
/-! SUPPORT. What events, the fetch and one step can do (spec/60_exceptions.md R385 to R403; 20_memory.md R53), said once. -/

namespace Sys2Proof.Machine

/-! ### Events -/

/-- Going through a vector loads PC and changes device traffic besides (R391). -/
theorem State.loadVector_same (s : State) (vec : Word) :
    SameButDevices { s with pc := (s.read16 vec).1 } (s.loadVector vec) := by
  have h := (s.read16_same vec).set16 .pc (s.read16 vec).1
  simpa only [State.set16_at_pc, State.loadVector] using h

/-- Everything the part of an event after stacking does. -/
theorem State.enterHandler_same (s : State) (ev : Event) :
    SameButDevices
      { s with
        cc := eventMasks ev s.cc, nmiRequest := s.nmiRequest && ev != Event.nmi
        pc := (State.read16 { s with cc := eventMasks ev s.cc, nmiRequest := s.nmiRequest && ev != Event.nmi }
          (eventVector ev)).1 }
      (s.enterHandler ev) := by
  unfold State.enterHandler
  generalize hu : ({ s with cc := eventMasks ev s.cc, nmiRequest := s.nmiRequest && ev != Event.nmi } : State) = u
  have h := State.loadVector_same u (eventVector ev)
  rw [← hu] at h ⊢
  exact h

/-- The state after an event stacked its frame: S, E and memory, and device traffic (R396). -/
theorem State.stackFrame_same (s : State) (entire : Bool) :
    SameButMemory
      { s with cc := { s.cc with e := entire }, s := s.s - BitVec.ofNat 16 (if entire then 12 else 3) }
      (s.stackFrame entire) := by
  rw [State.stackFrame_eq]
  have h := State.pushBytes_same { s with cc := { s.cc with e := entire } } .s
    (frameBytes entire { s with cc := { s.cc with e := entire } })
  rw [frameBytes_length] at h
  exact h

/-- A frame leaves every byte alone but those just below S. -/
theorem State.cell_stackFrame {s : State} (entire : Bool) {k : Word}
    (h : isBelow s.s k (if entire then 12 else 3) = false) : (s.stackFrame entire).cell k = s.cell k := by
  rw [State.stackFrame_eq]
  have := State.cell_pushBytes (s := { s with cc := { s.cc with e := entire } }) .s
    (frameBytes entire { s with cc := { s.cc with e := entire } }) (k := k)
    (by rw [frameBytes_length]; cases entire <;> decide) (by rw [frameBytes_length]; exact h)
  rw [this]; rfl

/-- Where the stack is RAM, the frame lies from the new S up (R396). -/
theorem State.holds_stackFrame {s : State} (hw : Memory.wf s.mem = true) (entire : Bool)
    (hr : ramBelow s.memMap s.s (if entire then 12 else 3) = true) :
    (s.stackFrame entire).holds (s.s - BitVec.ofNat 16 (if entire then 12 else 3))
      (frameBytes entire { s with cc := { s.cc with e := entire } }) := by
  rw [State.stackFrame_eq]
  have h := State.holds_pushBytes (s := { s with cc := { s.cc with e := entire } }) (by exact hw) .s
    (frameBytes entire { s with cc := { s.cc with e := entire } })
    (by rw [frameBytes_length]; cases entire <;> decide) (by rw [frameBytes_length]; exact hr)
  rw [State.pushBytes_sp, frameBytes_length] at h
  exact h

/-- An event keeps memory in its canonical form. -/
theorem State.stackFrame_wf {s : State} (hw : Memory.wf s.mem = true) (entire : Bool) :
    Memory.wf (s.stackFrame entire).mem = true := by
  rw [State.stackFrame_eq]
  exact State.pushBytes_wf (by exact hw) _ _

/-! ### Fetch -/

/-- Reading bytes changes device traffic at most. -/
theorem State.readBytes_same (s : State) (addr : Word) (count : Nat) :
    SameButDevices s (s.readBytes addr count).2 := by
  induction count generalizing s addr with
  | zero => exact SameButDevices.refl s
  | succ count ih => exact (s.read8_same addr).trans (ih _ _)

/-- The bytes that memory holds are the bytes that are read, and reading them changes nothing. -/
theorem State.readBytes_holds {s : State} {addr : Word} {bytes : List Byte} (h : s.holds addr bytes) :
    s.readBytes addr bytes.length = (bytes, s) := by
  induction bytes generalizing addr with
  | nil => rfl
  | cons v rest ih =>
    simp only [List.length_cons, State.readBytes, State.read8_plain h.1, ih h.2.2, h.2.1]

/-- A longer read begins with the bytes that memory holds. -/
theorem State.readBytes_begins {s : State} {addr : Word} {bytes : List Byte} (h : s.holds addr bytes) (more : Nat) :
    ∃ rest, (s.readBytes addr (bytes.length + more)).1 = bytes ++ rest := by
  induction bytes generalizing addr with
  | nil => exact ⟨_, rfl⟩
  | cons v rest ih =>
    obtain ⟨tail, ht⟩ := ih h.2.2
    refine ⟨tail, ?_⟩
    rw [show (v :: rest).length + more = (rest.length + more) + 1 by simp; omega]
    simp only [State.readBytes, State.read8_plain h.1, h.2.1, ht, List.cons_append]

/-- After the fetch PC is past the instruction, and device traffic has changed at most (R13). -/
theorem State.afterFetch_same (s : State) (len : Nat) :
    SameButDevices { s with pc := s.pc + BitVec.ofNat 16 len } (s.afterFetch len) := by
  have h := (s.readBytes_same s.pc len).set16 .pc (s.pc + BitVec.ofNat 16 len)
  rw [State.set16_at_pc, State.set16_at_pc] at h
  exact h

/-! ### One step -/

/-- Everything a step that answers a next state can be: a boundary that settles it, or one instruction. -/
theorem step_cases {s t : State} (h : step s = .next t) :
    boundary s = .settled t ∨
      ∃ u i, boundary s = .execute u ∧ decode u.window = .ok i ∧
        exec i (u.afterFetch (instrLength i)) = .next t := by
  unfold step at h
  split at h
  · rename_i u hb
    injection h with h
    exact .inl (h ▸ hb)
  · rename_i u hb
    unfold fetch at h
    split at h
    · rename_i i v hf
      split at hf
      · rename_i j hd
        injection hf with hf
        injection hf with hi hv
        subst hi hv
        exact .inr ⟨u, j, hb, hd, h⟩
      · cases hf
    · cases h

/-- The states an instruction can be fetched in: only the inputs, the NMI latch and the end of a SYNC lie between. -/
theorem boundary_execute {s u : State} (h : boundary s = .execute u) :
    s.nextInputs.reset = false ∧ u = { s.consumeInputs.latchNmi s.nextInputs with run := .running } ∧
      s.run ≠ .cwaiWait ∧ accepted s.nextInputs u = none := by
  unfold boundary at h
  cases hr : s.nextInputs.reset with
  | true => simp [hr] at h
  | false =>
    simp only [hr, Bool.false_eq_true, if_false] at h
    have hrun : (s.consumeInputs.latchNmi s.nextInputs).run = s.run := rfl
    rw [hrun] at h
    cases hs : s.run with
    | running =>
      simp only [hs, boundaryRunning] at h
      split at h
      · cases h
      · rename_i ha
        injection h with h
        refine ⟨rfl, ?_, by decide, h ▸ ha⟩
        rw [← h, ← hs]; rfl
    | syncWait =>
      simp only [hs, boundarySync, boundaryRunning] at h
      split at h
      · split at h
        · cases h
        · rename_i ha
          injection h with h
          exact ⟨rfl, h.symm, by decide, h ▸ ha⟩
      · cases h
    | cwaiWait =>
      simp only [hs, boundaryCwai] at h
      split at h <;> cases h

/-- The package of every induction over runs. -/
theorem reachable_induction {P : State → Prop} {s t : State} (hs : P s)
    (hstep : ∀ u v, P u → step u = .next v → P v) (h : Reachable s t) : P t := by
  induction h with
  | refl => exact hs
  | step _ he ih => exact hstep _ _ ih he

end Sys2Proof.Machine
end

