-- ==== Sys2Proof/Tests/Slice0.lean ====
section
/-! SUPPORT. Tests. The words are written out from the *Encoding* lines of spec/30_encoding.md and of the instruction rules, the
results taken from spec/96_test_vectors_by_family.md (the section is named with each group) or worked out from the rule that is
cited. Then, for each obligation with hypotheses, a state and operands that meet them together. -/

namespace Sys2Proof.Tests

open Sys2Proof Sys2Proof.Machine

/-! ### Well-formed instructions -/

/-- R322: registers of unlike width are refused, both ways round, and listed pairs are not. -/
theorem test_wellFormed_register_pairs :
    wellFormed (.exg (.narrow .a) (.wide .x)) = false ∧ wellFormed (.exg (.wide .pc) (.narrow .dp)) = false ∧
    wellFormed (.tfr (.narrow .cc) (.wide .d)) = false ∧ wellFormed (.tfr (.wide .s) (.narrow .b)) = false ∧
    wellFormed (.exg (.wide .x) (.wide .pc)) = true ∧ wellFormed (.tfr (.narrow .a) (.narrow .dp)) = true := by decide

/-! ### Decoding, one word for each mnemonic of the table (a second name's word decodes to the first name) -/

/-- Each byte sequence decodes to the instruction beside it. -/
def decodesTo (rows : List (List Byte × Instr)) : Bool :=
  rows.all fun row => decide (decode row.1 = .ok row.2)

/-- 41_load_store.md: words of the *Encoding* lines. -/
theorem test_decode_loads_stores : decodesTo
    [([0x86, 0x9C], .lda (.imm 0x9C#8)), ([0xD6, 0x34], .ldb (.mem (.dir 0x34#8))),
     ([0xEC, 0xB9, 0xFE, 0xDC], .ldd (.mem (.idx (.off16 .y true 0xFEDC#16)))),
     ([0xBE, 0x12, 0xF4], .ldx (.mem (.ext 0x12F4#16))), ([0x10, 0x8E, 0x9C, 0xA5], .ldy (.imm 0x9CA5#16)),
     ([0xDE, 0x34], .ldu (.mem (.dir 0x34#8))), ([0x10, 0xEE, 0xC0], .lds (.mem (.idx (.inc1 .u)))),
     ([0xA7, 0x84], .sta (.idx (.noOff .x false))), ([0xF7, 0x12, 0xF4], .stb (.ext 0x12F4#16)),
     ([0xDD, 0x34], .std (.dir 0x34#8)), ([0xAF, 0xC0], .stx (.idx (.inc1 .u))),
     ([0x10, 0xBF, 0x12, 0xF4], .sty (.ext 0x12F4#16)), ([0xDF, 0x34], .stu (.dir 0x34#8)),
     ([0x10, 0xEF, 0xA9, 0x12, 0x34], .sts (.idx (.off16 .y false 0x1234#16)))] = true := by decide

/-- 42_accumulator_memory_operate.md: words of the *Encoding* lines. -/
theorem test_decode_register_operate : decodesTo
    [([0xA9, 0xD3], .adca (.mem (.idx (.dec2 .u true)))), ([0xF9, 0x12, 0xF4], .adcb (.mem (.ext 0x12F4#16))),
     ([0x8B, 0x9C], .adda (.imm 0x9C#8)), ([0xDB, 0x34], .addb (.mem (.dir 0x34#8))),
     ([0xE3, 0xF4], .addd (.mem (.idx (.noOff .s true)))), ([0xB0, 0x12, 0xF4], .suba (.mem (.ext 0x12F4#16))),
     ([0xC0, 0x9C], .subb (.imm 0x9C#8)), ([0x92, 0x34], .sbca (.mem (.dir 0x34#8))),
     ([0xE2, 0xD6], .sbcb (.mem (.idx (.accA .u true)))), ([0xB3, 0x12, 0xF4], .subd (.mem (.ext 0x12F4#16))),
     ([0x81, 0x9C], .cmpa (.imm 0x9C#8)), ([0xD1, 0x34], .cmpb (.mem (.dir 0x34#8))),
     ([0x10, 0xA3, 0x9F, 0xA0, 0x50], .cmpd (.mem (.idx (.extInd 0xA050#16)))),
     ([0x11, 0xBC, 0x12, 0xF4], .cmps (.mem (.ext 0x12F4#16))), ([0x11, 0x83, 0x9C, 0xA5], .cmpu (.imm 0x9CA5#16)),
     ([0x9C, 0x34], .cmpx (.mem (.dir 0x34#8))), ([0x10, 0xAC, 0xE3], .cmpy (.mem (.idx (.dec2 .s false)))),
     ([0xB4, 0x12, 0xF4], .anda (.mem (.ext 0x12F4#16))), ([0xC4, 0x9C], .andb (.imm 0x9C#8)),
     ([0x95, 0x34], .bita (.mem (.dir 0x34#8))), ([0xE5, 0xA2], .bitb (.mem (.idx (.dec1 .y)))),
     ([0xB8, 0x12, 0xF4], .eora (.mem (.ext 0x12F4#16))), ([0xC8, 0x9C], .eorb (.imm 0x9C#8)),
     ([0x9A, 0x34], .ora (.mem (.dir 0x34#8))), ([0xEA, 0x6F], .orb (.mem (.idx (.off5 .s 0x0F#5))))] = true := by decide

/-- 43_memory_and_register_operate.md: words of the *Encoding* lines. -/
theorem test_decode_one_operand : decodesTo
    [([0x08, 0x34], .asl (.dir 0x34#8)), ([0x48], .asla), ([0x58], .aslb), ([0x08, 0x34], .asl (.dir 0x34#8)),
     ([0x48], .asla), ([0x58], .aslb), ([0x07, 0x34], .asr (.dir 0x34#8)), ([0x47], .asra), ([0x57], .asrb),
     ([0x04, 0x34], .lsr (.dir 0x34#8)), ([0x44], .lsra), ([0x54], .lsrb), ([0x09, 0x34], .rol (.dir 0x34#8)),
     ([0x49], .rola), ([0x59], .rolb), ([0x06, 0x34], .ror (.dir 0x34#8)), ([0x46], .rora), ([0x56], .rorb),
     ([0x00, 0x34], .neg (.dir 0x34#8)), ([0x40], .nega), ([0x50], .negb), ([0x03, 0x34], .com (.dir 0x34#8)),
     ([0x43], .coma), ([0x53], .comb), ([0x0F, 0x34], .clr (.dir 0x34#8)), ([0x4F], .clra), ([0x5F], .clrb),
     ([0x0A, 0x34], .dec (.dir 0x34#8)), ([0x4A], .deca), ([0x5A], .decb), ([0x0C, 0x34], .inc (.dir 0x34#8)),
     ([0x4C], .inca), ([0x5C], .incb), ([0x0D, 0x34], .tst (.dir 0x34#8)), ([0x4D], .tsta), ([0x5D], .tstb),
     ([0x19], .daa)] = true := by decide

/-- 44_jump_call_return.md: words of the *Encoding* lines. -/
theorem test_decode_jump_call_return : decodesTo
    [([0x20, 0xFB], .bra 0xFB#8), ([0x16, 0xF1, 0x23], .lbra 0xF123#16), ([0x0E, 0x34], .jmp (.dir 0x34#8)),
     ([0x8D, 0xFB], .bsr 0xFB#8), ([0x17, 0xF1, 0x23], .lbsr 0xF123#16), ([0x9D, 0x34], .jsr (.dir 0x34#8)),
     ([0x39], .rts)] = true := by decide

/-- 45_branch_on_condition.md: words of the *Encoding* lines. -/
theorem test_decode_short_branches_on_condition : decodesTo
    [([0x24, 0xFB], .bcc 0xFB#8), ([0x25, 0xFB], .bcs 0xFB#8), ([0x27, 0xFB], .beq 0xFB#8),
     ([0x2C, 0xFB], .bge 0xFB#8), ([0x2E, 0xFB], .bgt 0xFB#8), ([0x22, 0xFB], .bhi 0xFB#8),
     ([0x24, 0xFB], .bcc 0xFB#8), ([0x2F, 0xFB], .ble 0xFB#8), ([0x25, 0xFB], .bcs 0xFB#8),
     ([0x23, 0xFB], .bls 0xFB#8), ([0x2D, 0xFB], .blt 0xFB#8), ([0x2B, 0xFB], .bmi 0xFB#8),
     ([0x26, 0xFB], .bne 0xFB#8), ([0x2A, 0xFB], .bpl 0xFB#8), ([0x28, 0xFB], .bvc 0xFB#8),
     ([0x29, 0xFB], .bvs 0xFB#8)] = true := by decide

/-- 45_branch_on_condition.md: words of the *Encoding* lines. -/
theorem test_decode_long_branches_on_condition : decodesTo
    [([0x10, 0x24, 0xF1, 0x23], .lbcc 0xF123#16), ([0x10, 0x25, 0xF1, 0x23], .lbcs 0xF123#16),
     ([0x10, 0x27, 0xF1, 0x23], .lbeq 0xF123#16), ([0x10, 0x2C, 0xF1, 0x23], .lbge 0xF123#16),
     ([0x10, 0x2E, 0xF1, 0x23], .lbgt 0xF123#16), ([0x10, 0x22, 0xF1, 0x23], .lbhi 0xF123#16),
     ([0x10, 0x24, 0xF1, 0x23], .lbcc 0xF123#16), ([0x10, 0x2F, 0xF1, 0x23], .lble 0xF123#16),
     ([0x10, 0x25, 0xF1, 0x23], .lbcs 0xF123#16), ([0x10, 0x23, 0xF1, 0x23], .lbls 0xF123#16),
     ([0x10, 0x2D, 0xF1, 0x23], .lblt 0xF123#16), ([0x10, 0x2B, 0xF1, 0x23], .lbmi 0xF123#16),
     ([0x10, 0x26, 0xF1, 0x23], .lbne 0xF123#16), ([0x10, 0x2A, 0xF1, 0x23], .lbpl 0xF123#16),
     ([0x10, 0x28, 0xF1, 0x23], .lbvc 0xF123#16), ([0x10, 0x29, 0xF1, 0x23], .lbvs 0xF123#16)] = true := by decide

/-- 46_register_move_and_operate.md: words of the *Encoding* lines. -/
theorem test_decode_register_moves_register_operate_lea : decodesTo
    [([0x1E, 0x15], .exg (.wide .x) (.wide .pc)), ([0x1F, 0x8B], .tfr (.narrow .a) (.narrow .dp)), ([0x3A], .abx),
     ([0x3D], .mul), ([0x1D], .sex), ([0x30, 0xF4], .leax (.noOff .s true)), ([0x31, 0x8B], .leay (.accD .x false)),
     ([0x32, 0xA2], .leas (.dec1 .y)), ([0x33, 0xB1], .leau (.inc2 .y true))] = true := by decide

/-- 47_stack.md: words of the *Encoding* lines. -/
theorem test_decode_push_and_pull : decodesTo
    [([0x34, 0xA6], .pshs 0xA6#8), ([0x36, 0xA6], .pshu 0xA6#8), ([0x35, 0xA6], .puls 0xA6#8),
     ([0x37, 0xA6], .pulu 0xA6#8)] = true := by decide

/-- 48_interrupt_and_status.md: words of the *Encoding* lines. -/
theorem test_decode_interrupt_and_status : decodesTo
    [([0x3F], .swi), ([0x10, 0x3F], .swi2), ([0x11, 0x3F], .swi3), ([0x3B], .rti), ([0x3C, 0x9C], .cwai 0x9C#8),
     ([0x13], .sync), ([0x1C, 0x9C], .andcc 0x9C#8), ([0x1A, 0x9C], .orcc 0x9C#8)] = true := by decide

/-- 49_no_operations.md: words of the *Encoding* lines. -/
theorem test_decode_no_operation : decodesTo
    [([0x12], .nop), ([0x21, 0xFB], .brn 0xFB#8), ([0x10, 0x21, 0xF1, 0x23], .lbrn 0xF123#16)] = true := by decide

/-- Post bytes of R126, from the tables of 95_test_vectors.md section 1.3. -/
theorem test_decode_post_bytes :
    [(0x10#8, Idx.off5 .x 0x10#5), (0x6F#8, .off5 .s 0x0F#5), (0xA0#8, .inc1 .y), (0xC1#8, .inc2 .u false),
     (0xF1#8, .inc2 .s true), (0x82#8, .dec1 .x), (0xA3#8, .dec2 .y false), (0x93#8, .dec2 .x true),
     (0xE4#8, .noOff .s false), (0xD4#8, .noOff .u true), (0x85#8, .accB .x false), (0xB6#8, .accA .y true),
     (0xC8#8, .off8 .u false 0x12#8), (0xF9#8, .off16 .s true 0x1234#16), (0x9B#8, .accD .x true),
     (0xEC#8, .pcr8 false 0x12#8), (0xBC#8, .pcr8 true 0x12#8), (0xCD#8, .pcr16 false 0x1234#16),
     (0x9D#8, .pcr16 true 0x1234#16), (0xFF#8, .extInd 0x1234#16)].all
      (fun row => decide (decodeIdx row.1 [0x12#8, 0x34#8] = some row.2)) = true := by decide

/-- R97 to R99, R322: the encodings that 96_test_vectors_by_family.md refuses. -/
theorem test_decode_refuses :
    decode [0x01, 0x00] = .error .undefinedOpcode ∧ decode [0x87, 0x00] = .error .undefinedOpcode ∧
    decode [0x10, 0x00] = .error .undefinedOpcode ∧ decode [0x10, 0x10, 0x8E] = .error .undefinedOpcode ∧
    decode [0x11, 0x8E] = .error .undefinedOpcode ∧ decode [0x10, 0x20] = .error .undefinedOpcode ∧
    decode [0xA6, 0x87] = .error .undefinedPostbyte ∧ decode [0x31, 0x90] = .error .undefinedPostbyte ∧
    decode [0x31, 0x92] = .error .undefinedPostbyte ∧ decode [0x31, 0x8F] = .error .undefinedPostbyte ∧
    decode [0x1F, 0x81] = .error .undefinedRegpair ∧ decode [0x1F, 0x61] = .error .undefinedRegpair ∧
    decode [0x1E, 0xC8] = .error .undefinedRegpair := by decide

/-- R104, log 14: opcode table words, an 8-bit row and the 16-bit rows 0x1083 and 0x113F in both numberings. -/
theorem test_decode_table_words :
    decodeTableWord 8 0x0F = some (.clr (.dir 0x00#8)) ∧ decodeTableWord 16 0x1083 = some (.cmpd (.imm 0x0000#16)) ∧
    decodeTableWord 16 0x113F = some .swi3 ∧ decodeTableWord 16 0x3F11 = some .swi3 ∧ decodeTableWord 8 0x10 = none := by
  decide

/-! ### One step on a small state -/

/-- The machine before a vector of 96_test_vectors_by_family.md: PC = 1000, CC = 00, registers 0. -/
def start : State := { State.reset with pc := 0x1000#16, cc := CC.ofByte 0x00#8 }

/-- The registers of section 3.9. -/
def regs : State :=
  { start with a := 0x11, b := 0x22, dp := 0x33, x := 0x4455, y := 0x6677, u := 0x8899, s := 0x8000 }

/-- Whether the step that runs `bytes` at 1000 answers a next state that satisfies `p`. -/
def runs (bytes : List Byte) (s : State) (p : State → Bool) : Bool :=
  match step { s with mem := placeBytes s.mem 0x1000#16 bytes } with
  | .next t => p t
  | .refused _ => false

/-- The bytes that memory holds from `addr` on. -/
def cells (s : State) (addr : Word) (count : Nat) : List Byte :=
  (List.range count).map fun k => s.cell (addr + BitVec.ofNat 16 k)

/-! #### Loads and stores (96_test_vectors_by_family.md, section 3.2) -/

theorem test_lda : runs [0x86, 0x80] { start with cc := CC.ofByte 0x03 }
    (fun t => t.a == 0x80 && t.pc == 0x1002 && t.cc.toByte == 0x09) = true := by decide

theorem test_ldb : runs [0xD6, 0x34] { start with cc := CC.ofByte 0x02, dp := 0x12, mem := placeBytes [] 0x1234 [0x7F] }
    (fun t => t.b == 0x7F && t.pc == 0x1002 && t.cc.toByte == 0x00) = true := by decide

theorem test_ldd : runs [0xFC, 0x20, 0x00] { start with mem := placeBytes [] 0x2000 [0x80, 0x01] }
    (fun t => t.a == 0x80 && t.b == 0x01 && t.pc == 0x1003 && t.cc.toByte == 0x08) = true := by decide

theorem test_ldx : runs [0xAE, 0x81] { start with x := 0x2000, mem := placeBytes [] 0x2000 [0x12, 0x34] }
    (fun t => t.x == 0x1234 && t.pc == 0x1002 && t.cc.toByte == 0x00) = true := by decide

theorem test_ldy : runs [0x10, 0x8E, 0xFF, 0xFE] { start with cc := CC.ofByte 0x04 }
    (fun t => t.y == 0xFFFE && t.pc == 0x1004 && t.cc.toByte == 0x08) = true := by decide

theorem test_ldu : runs [0xEE, 0x94]
    { start with x := 0x3000, mem := placeBytes (placeBytes [] 0x3000 [0x40, 0x00]) 0x4000 [0x12, 0x34] }
    (fun t => t.u == 0x1234 && t.x == 0x3000 && t.pc == 0x1002 && t.cc.toByte == 0x00) = true := by decide

theorem test_lds : runs [0x10, 0xCE, 0x80, 0x00] { start with cc := CC.ofByte 0x50 }
    (fun t => t.s == 0x8000 && t.pc == 0x1004 && t.cc.toByte == 0x58) = true := by decide

theorem test_sta : runs [0xA7, 0x82] { start with cc := CC.ofByte 0x0A, a := 0x00, x := 0x2001 }
    (fun t => t.x == 0x2000 && t.pc == 0x1002 && t.cc.toByte == 0x04 && t.cell 0x2000 == 0x00) = true := by decide

theorem test_stb : runs [0xE7, 0x1F] { start with b := 0x80, x := 0x2000 }
    (fun t => t.x == 0x2000 && t.pc == 0x1002 && t.cc.toByte == 0x08 && t.cell 0x1FFF == 0x80) = true := by decide

theorem test_std : runs [0xDD, 0x10] { start with cc := CC.ofByte 0x0F, a := 0x12, b := 0x34, dp := 0x20 }
    (fun t => t.pc == 0x1002 && t.cc.toByte == 0x01 && t.cell 0x2010 == 0x12 && t.cell 0x2011 == 0x34) = true := by decide

theorem test_stx : runs [0xBF, 0x20, 0x00] { start with x := 0x8000 }
    (fun t => t.pc == 0x1003 && t.cc.toByte == 0x08 && t.cell 0x2000 == 0x80 && t.cell 0x2001 == 0x00) = true := by decide

theorem test_sty : runs [0x10, 0xAF, 0xE3] { start with y := 0xBEEF, s := 0x8000 }
    (fun t => t.s == 0x7FFE && t.pc == 0x1003 && t.cc.toByte == 0x08 && t.cell 0x7FFE == 0xBE &&
      t.cell 0x7FFF == 0xEF) = true := by decide

theorem test_stu : runs [0xFF, 0xFF, 0xFF] { start with u := 0xA55A }
    (fun t => t.pc == 0x1003 && t.cc.toByte == 0x08 && t.cell 0xFFFF == 0xA5 && t.cell 0x0000 == 0x5A) = true := by decide

theorem test_sts : runs [0x10, 0xEF, 0x81] { start with x := 0x2000, s := 0x7FFE }
    (fun t => t.x == 0x2002 && t.pc == 0x1003 && t.cc.toByte == 0x00 && t.cell 0x2000 == 0x7F &&
      t.cell 0x2001 == 0xFE) = true := by decide

/-! #### Arithmetic, compare, logic (96_test_vectors_by_family.md, section 3.3) -/

theorem test_adda : runs [0x8B, 0x01] { start with a := 0x7F }
    (fun t => t.a == 0x80 && t.pc == 0x1002 && t.cc.toByte == 0x2A) = true := by decide

theorem test_addb : runs [0xCB, 0x80] { start with b := 0x80 }
    (fun t => t.b == 0x00 && t.pc == 0x1002 && t.cc.toByte == 0x07) = true := by decide

theorem test_adca : runs [0x89, 0x00] { start with cc := CC.ofByte 0x01, a := 0xFF }
    (fun t => t.a == 0x00 && t.pc == 0x1002 && t.cc.toByte == 0x25) = true := by decide

theorem test_adcb : runs [0xC9, 0x0F] { start with cc := CC.ofByte 0x01, b := 0x00 }
    (fun t => t.b == 0x10 && t.pc == 0x1002 && t.cc.toByte == 0x20) = true := by decide

theorem test_addd : runs [0xC3, 0x00, 0x01] { start with cc := CC.ofByte 0x20, a := 0x7F, b := 0xFF }
    (fun t => t.a == 0x80 && t.b == 0x00 && t.pc == 0x1003 && t.cc.toByte == 0x2A) = true := by decide

theorem test_suba : runs [0x80, 0x01] { start with a := 0x00 }
    (fun t => t.a == 0xFF && t.pc == 0x1002 && CC.toByte { t.cc with h := false } == 0x09) = true := by decide

theorem test_subb : runs [0xC0, 0x42] { start with cc := CC.ofByte 0x01, b := 0x42 }
    (fun t => t.b == 0x00 && t.pc == 0x1002 && CC.toByte { t.cc with h := false } == 0x04) = true := by decide

theorem test_sbca : runs [0x82, 0x00] { start with cc := CC.ofByte 0x01, a := 0x00 }
    (fun t => t.a == 0xFF && t.pc == 0x1002 && CC.toByte { t.cc with h := false } == 0x09) = true := by decide

theorem test_sbcb : runs [0xC2, 0x7F] { start with cc := CC.ofByte 0x01, b := 0x80 }
    (fun t => t.b == 0x00 && t.pc == 0x1002 && CC.toByte { t.cc with h := false } == 0x06) = true := by decide

theorem test_subd : runs [0x83, 0x00, 0x01] { start with a := 0x00, b := 0x00 }
    (fun t => t.a == 0xFF && t.b == 0xFF && t.pc == 0x1003 && t.cc.toByte == 0x09) = true := by decide

theorem test_cmpa : runs [0x81, 0x20] { start with a := 0x10 }
    (fun t => t.a == 0x10 && t.pc == 0x1002 && CC.toByte { t.cc with h := false } == 0x09) = true := by decide

theorem test_cmpb : runs [0xD1, 0x00] { start with b := 0x55, mem := placeBytes [] 0x0000 [0x55] }
    (fun t => t.b == 0x55 && t.pc == 0x1002 && CC.toByte { t.cc with h := false } == 0x04) = true := by decide

theorem test_cmpd : runs [0x10, 0x83, 0x12, 0x34] { start with a := 0x12, b := 0x34 }
    (fun t => t.a == 0x12 && t.b == 0x34 && t.pc == 0x1004 && t.cc.toByte == 0x04) = true := by decide

theorem test_cmpx : runs [0xAC, 0x81] { start with x := 0x2000, mem := placeBytes [] 0x2000 [0x20, 0x02] }
    (fun t => t.x == 0x2002 && t.pc == 0x1002 && t.cc.toByte == 0x04) = true := by decide

theorem test_cmpy : runs [0x10, 0x8C, 0x80, 0x00] { start with y := 0x7FFF }
    (fun t => t.y == 0x7FFF && t.pc == 0x1004 && t.cc.toByte == 0x0B) = true := by decide

theorem test_cmpu : runs [0x11, 0x83, 0x00, 0x00] { start with cc := CC.ofByte 0x09, u := 0x0000 }
    (fun t => t.u == 0x0000 && t.pc == 0x1004 && t.cc.toByte == 0x04) = true := by decide

theorem test_cmps : runs [0x11, 0x8C, 0xFF, 0xFF] { start with s := 0x0000 }
    (fun t => t.s == 0x0000 && t.pc == 0x1004 && t.cc.toByte == 0x01) = true := by decide

theorem test_anda : runs [0x84, 0x0F] { start with cc := CC.ofByte 0x03, a := 0xF0 }
    (fun t => t.a == 0x00 && t.pc == 0x1002 && t.cc.toByte == 0x05) = true := by decide

theorem test_andb : runs [0xC4, 0x80] { start with cc := CC.ofByte 0x02, b := 0xFF }
    (fun t => t.b == 0x80 && t.pc == 0x1002 && t.cc.toByte == 0x08) = true := by decide

theorem test_bita : runs [0x85, 0x01] { start with cc := CC.ofByte 0x01, a := 0xFE }
    (fun t => t.a == 0xFE && t.pc == 0x1002 && t.cc.toByte == 0x05) = true := by decide

theorem test_bitb : runs [0xC5, 0x80] { start with cc := CC.ofByte 0x02, b := 0x80 }
    (fun t => t.b == 0x80 && t.pc == 0x1002 && t.cc.toByte == 0x08) = true := by decide

theorem test_eora : runs [0x88, 0xFF] { start with cc := CC.ofByte 0x03, a := 0x55 }
    (fun t => t.a == 0xAA && t.pc == 0x1002 && t.cc.toByte == 0x09) = true := by decide

theorem test_eorb : runs [0xC8, 0xAA] { start with cc := CC.ofByte 0x01, b := 0xAA }
    (fun t => t.b == 0x00 && t.pc == 0x1002 && t.cc.toByte == 0x05) = true := by decide

theorem test_ora : runs [0x8A, 0x80] { start with cc := CC.ofByte 0x02, a := 0x01 }
    (fun t => t.a == 0x81 && t.pc == 0x1002 && t.cc.toByte == 0x08) = true := by decide

theorem test_orb : runs [0xCA, 0x00] { start with cc := CC.ofByte 0x0A, b := 0x00 }
    (fun t => t.b == 0x00 && t.pc == 0x1002 && t.cc.toByte == 0x04) = true := by decide

/-! #### One-operand operations (96_test_vectors_by_family.md, section 3.4) -/

theorem test_asla : runs [0x48] { start with a := 0x80 }
    (fun t => t.a == 0x00 && t.pc == 0x1001 && CC.toByte { t.cc with h := false } == 0x07) = true := by decide

theorem test_aslb : runs [0x58] { start with b := 0xC0 }
    (fun t => t.b == 0x80 && t.pc == 0x1001 && CC.toByte { t.cc with h := false } == 0x09) = true := by decide

theorem test_asl : runs [0x08, 0x10] { start with mem := placeBytes [] 0x0010 [0x55] }
    (fun t => t.pc == 0x1002 && CC.toByte { t.cc with h := false } == 0x0A && t.cell 0x0010 == 0xAA) = true := by decide

theorem test_asra : runs [0x47] { start with cc := CC.ofByte 0x02, a := 0x81 }
    (fun t => t.a == 0xC0 && t.pc == 0x1001 && CC.toByte { t.cc with h := false } == 0x0B) = true := by decide

theorem test_asrb : runs [0x57] { start with b := 0x01 }
    (fun t => t.b == 0x00 && t.pc == 0x1001 && CC.toByte { t.cc with h := false } == 0x05) = true := by decide

theorem test_asr : runs [0x67, 0x84] { start with x := 0x2000, mem := placeBytes [] 0x2000 [0x80] }
    (fun t => t.pc == 0x1002 && CC.toByte { t.cc with h := false } == 0x08 && t.cell 0x2000 == 0xC0) = true := by decide

theorem test_lsra : runs [0x44] { start with cc := CC.ofByte 0x0A, a := 0x01 }
    (fun t => t.a == 0x00 && t.pc == 0x1001 && t.cc.toByte == 0x07) = true := by decide

theorem test_lsrb : runs [0x54] { start with cc := CC.ofByte 0x10, b := 0x80 }
    (fun t => t.b == 0x40 && t.pc == 0x1001 && t.cc.toByte == 0x10) = true := by decide

theorem test_lsr : runs [0x04, 0x10] { start with mem := placeBytes [] 0x0010 [0xFF] }
    (fun t => t.pc == 0x1002 && t.cc.toByte == 0x01 && t.cell 0x0010 == 0x7F) = true := by decide

theorem test_rola : runs [0x49] { start with cc := CC.ofByte 0x01, a := 0x80 }
    (fun t => t.a == 0x01 && t.pc == 0x1001 && t.cc.toByte == 0x03) = true := by decide

theorem test_rolb : runs [0x59] { start with b := 0x40 }
    (fun t => t.b == 0x80 && t.pc == 0x1001 && t.cc.toByte == 0x0A) = true := by decide

theorem test_rol : runs [0x69, 0x80] { start with x := 0x2000, mem := placeBytes [] 0x2000 [0xFF] }
    (fun t => t.x == 0x2001 && t.pc == 0x1002 && t.cc.toByte == 0x09 && t.cell 0x2000 == 0xFE) = true := by decide

theorem test_rora : runs [0x46] { start with cc := CC.ofByte 0x02, a := 0x01 }
    (fun t => t.a == 0x00 && t.pc == 0x1001 && t.cc.toByte == 0x07) = true := by decide

theorem test_rorb : runs [0x56] { start with cc := CC.ofByte 0x01, b := 0x00 }
    (fun t => t.b == 0x80 && t.pc == 0x1001 && t.cc.toByte == 0x08) = true := by decide

theorem test_ror : runs [0x76, 0x20, 0x00] { start with cc := CC.ofByte 0x01, mem := placeBytes [] 0x2000 [0x03] }
    (fun t => t.pc == 0x1003 && t.cc.toByte == 0x09 && t.cell 0x2000 == 0x81) = true := by decide

theorem test_nega : runs [0x40] { start with cc := CC.ofByte 0x01, a := 0x00 }
    (fun t => t.a == 0x00 && t.pc == 0x1001 && CC.toByte { t.cc with h := false } == 0x04) = true := by decide

theorem test_negb : runs [0x50] { start with b := 0x01 }
    (fun t => t.b == 0xFF && t.pc == 0x1001 && CC.toByte { t.cc with h := false } == 0x09) = true := by decide

theorem test_neg : runs [0x00, 0x10] { start with mem := placeBytes [] 0x0010 [0x7F] }
    (fun t => t.pc == 0x1002 && CC.toByte { t.cc with h := false } == 0x09 && t.cell 0x0010 == 0x81) = true := by decide

theorem test_coma : runs [0x43] { start with cc := CC.ofByte 0x02, a := 0x00 }
    (fun t => t.a == 0xFF && t.pc == 0x1001 && t.cc.toByte == 0x09) = true := by decide

theorem test_comb : runs [0x53] { start with b := 0xFF }
    (fun t => t.b == 0x00 && t.pc == 0x1001 && t.cc.toByte == 0x05) = true := by decide

theorem test_com : runs [0x63, 0x84] { start with x := 0x2000, mem := placeBytes [] 0x2000 [0xA5] }
    (fun t => t.pc == 0x1002 && t.cc.toByte == 0x01 && t.cell 0x2000 == 0x5A) = true := by decide

theorem test_clra : runs [0x4F] { start with cc := CC.ofByte 0x2B, a := 0x5A }
    (fun t => t.a == 0x00 && t.pc == 0x1001 && t.cc.toByte == 0x24) = true := by decide

theorem test_clrb : runs [0x5F] { start with cc := CC.ofByte 0xFF, b := 0xFF }
    (fun t => t.b == 0x00 && t.pc == 0x1001 && t.cc.toByte == 0xF4) = true := by decide

theorem test_clr : runs [0x7F, 0x20, 0x00] { start with cc := CC.ofByte 0x0B, mem := placeBytes [] 0x2000 [0x99] }
    (fun t => t.pc == 0x1003 && t.cc.toByte == 0x04 && t.cell 0x2000 == 0x00) = true := by decide

theorem test_deca : runs [0x4A] { start with cc := CC.ofByte 0x01, a := 0x80 }
    (fun t => t.a == 0x7F && t.pc == 0x1001 && t.cc.toByte == 0x03) = true := by decide

theorem test_decb : runs [0x5A] { start with cc := CC.ofByte 0x01, b := 0x01 }
    (fun t => t.b == 0x00 && t.pc == 0x1001 && t.cc.toByte == 0x05) = true := by decide

theorem test_dec : runs [0x0A, 0x10] { start with mem := placeBytes [] 0x0010 [0x00] }
    (fun t => t.pc == 0x1002 && t.cc.toByte == 0x08 && t.cell 0x0010 == 0xFF) = true := by decide

theorem test_inca : runs [0x4C] { start with a := 0x7F }
    (fun t => t.a == 0x80 && t.pc == 0x1001 && t.cc.toByte == 0x0A) = true := by decide

theorem test_incb : runs [0x5C] { start with cc := CC.ofByte 0x01, b := 0xFF }
    (fun t => t.b == 0x00 && t.pc == 0x1001 && t.cc.toByte == 0x05) = true := by decide

theorem test_inc : runs [0x6C, 0x94]
    { start with x := 0x2000, mem := placeBytes (placeBytes [] 0x2000 [0x30, 0x00]) 0x3000 [0xFE] }
    (fun t => t.pc == 0x1002 && t.cc.toByte == 0x08 && t.cell 0x3000 == 0xFF) = true := by decide

theorem test_tsta : runs [0x4D] { start with cc := CC.ofByte 0x03, a := 0x80 }
    (fun t => t.a == 0x80 && t.pc == 0x1001 && t.cc.toByte == 0x09) = true := by decide

theorem test_tstb : runs [0x5D] { start with cc := CC.ofByte 0x0A, b := 0x00 }
    (fun t => t.b == 0x00 && t.pc == 0x1001 && t.cc.toByte == 0x04) = true := by decide

theorem test_tst : runs [0x7D, 0x20, 0x00] { start with cc := CC.ofByte 0x0F, mem := placeBytes [] 0x2000 [0x01] }
    (fun t => t.pc == 0x1003 && t.cc.toByte == 0x01) = true := by decide

theorem test_daa : runs [0x19] { start with cc := CC.ofByte 0x20, a := 0x81 }
    (fun t => t.a == 0x87 && t.pc == 0x1001 && CC.toByte { t.cc with v := false } == 0x28) = true := by decide

/-! #### Jumps, calls, returns (96_test_vectors_by_family.md, section 3.5) -/

theorem test_bra : runs [0x20, 0x80] start
    (fun t => t.pc == 0x0F82 && t.cc.toByte == 0x00) = true := by decide

theorem test_lbra : runs [0x16, 0x12, 0x34] start
    (fun t => t.pc == 0x2237 && t.cc.toByte == 0x00) = true := by decide

theorem test_jmp : runs [0x6E, 0x94] { start with x := 0x2000, mem := placeBytes [] 0x2000 [0xAB, 0xCD] }
    (fun t => t.pc == 0xABCD && t.cc.toByte == 0x00) = true := by decide

theorem test_bsr : runs [0x8D, 0x20] { start with s := 0x8000 }
    (fun t => t.s == 0x7FFE && t.pc == 0x1022 && t.cc.toByte == 0x00 && t.cell 0x7FFF == 0x02 &&
      t.cell 0x7FFE == 0x10) = true := by decide

theorem test_lbsr : runs [0x17, 0xF0, 0x00] { start with s := 0x8000 }
    (fun t => t.s == 0x7FFE && t.pc == 0x0003 && t.cc.toByte == 0x00 && t.cell 0x7FFF == 0x03 &&
      t.cell 0x7FFE == 0x10) = true := by decide

theorem test_jsr : runs [0xAD, 0xE3] { start with s := 0x8000 }
    (fun t => t.s == 0x7FFC && t.pc == 0x7FFE && t.cc.toByte == 0x00 && t.cell 0x7FFD == 0x02 &&
      t.cell 0x7FFC == 0x10) = true := by decide

theorem test_rts : runs [0x39] { start with s := 0x7FFE, mem := placeBytes [] 0x7FFE [0x12, 0x34] }
    (fun t => t.s == 0x8000 && t.pc == 0x1234 && t.cc.toByte == 0x00) = true := by decide

/-! #### Branches (96_test_vectors_by_family.md, section 3.6) -/

theorem test_beq : runs [0x27, 0x04] { start with cc := CC.ofByte 0x04 }
    (fun t => t.pc == 0x1006 && t.cc.toByte == 0x04) = true := by decide

theorem test_beq_2 : runs [0x27, 0x04] start
    (fun t => t.pc == 0x1002 && t.cc.toByte == 0x00) = true := by decide

theorem test_bhi : runs [0x22, 0x02] { start with cc := CC.ofByte 0x01 }
    (fun t => t.pc == 0x1002 && t.cc.toByte == 0x01) = true := by decide

theorem test_bge : runs [0x2C, 0x02] { start with cc := CC.ofByte 0x0A }
    (fun t => t.pc == 0x1004 && t.cc.toByte == 0x0A) = true := by decide

theorem test_lbcs : runs [0x10, 0x25, 0x7F, 0xFF] { start with cc := CC.ofByte 0x01 }
    (fun t => t.pc == 0x9003 && t.cc.toByte == 0x01) = true := by decide

/-! #### Register moves and operations (96_test_vectors_by_family.md, section 3.7) -/

theorem test_tfr : runs [0x1F, 0x01] { start with a := 0x12, b := 0x34 }
    (fun t => t.x == 0x1234 && t.pc == 0x1002 && t.cc.toByte == 0x00) = true := by decide

theorem test_exg : runs [0x1E, 0xBA] { start with cc := CC.ofByte 0x0F, dp := 0x50 }
    (fun t => t.dp == 0x0F && t.pc == 0x1002 && t.cc.toByte == 0x50) = true := by decide

theorem test_abx : runs [0x3A] { start with cc := CC.ofByte 0x0F, b := 0xFF, x := 0x1000 }
    (fun t => t.x == 0x10FF && t.pc == 0x1001 && t.cc.toByte == 0x0F) = true := by decide

theorem test_mul : runs [0x3D] { start with cc := CC.ofByte 0x0A, a := 0xFF, b := 0xFF }
    (fun t => t.a == 0xFE && t.b == 0x01 && t.pc == 0x1001 && t.cc.toByte == 0x0A) = true := by decide

theorem test_sex : runs [0x1D] { start with cc := CC.ofByte 0x03, a := 0x55, b := 0x80 }
    (fun t => t.a == 0xFF && t.b == 0x80 && t.pc == 0x1001 && t.cc.toByte == 0x0B) = true := by decide

theorem test_leax : runs [0x30, 0x80] { start with x := 0x2000 }
    (fun t => t.x == 0x2000 && t.pc == 0x1002 && t.cc.toByte == 0x00) = true := by decide

theorem test_leay : runs [0x31, 0x3F] { start with cc := CC.ofByte 0x04, y := 0x0000 }
    (fun t => t.y == 0xFFFF && t.pc == 0x1002 && t.cc.toByte == 0x00) = true := by decide

theorem test_leas : runs [0x32, 0x7E] { start with cc := CC.ofByte 0x04, s := 0x8000 }
    (fun t => t.s == 0x7FFE && t.pc == 0x1002 && t.cc.toByte == 0x04) = true := by decide

theorem test_leau : runs [0x33, 0xC9, 0x10, 0x00] { start with u := 0xF800 }
    (fun t => t.u == 0x0800 && t.pc == 0x1004 && t.cc.toByte == 0x00) = true := by decide

/-! #### Stacks (96_test_vectors_by_family.md, section 3.8) -/

theorem test_puls : runs [0x35, 0xFF]
    { start with s := 0x7FF4, mem := placeBytes [] 0x7FF4 [0xAA, 0x11, 0x22, 0x33, 0x44, 0x55, 0x66, 0x77, 0x88, 0x99,
      0x12, 0x34] }
    (fun t => t.a == 0x11 && t.b == 0x22 && t.dp == 0x33 && t.x == 0x4455 && t.y == 0x6677 && t.u == 0x8899 &&
      t.s == 0x8000 && t.pc == 0x1234 && t.cc.toByte == 0xAA) = true := by decide

theorem test_pshs : runs [0x34, 0x16] { start with a := 0x11, b := 0x22, x := 0x3344, s := 0x8000 }
    (fun t => t.s == 0x7FFC && t.pc == 0x1002 && t.cc.toByte == 0x00 && t.cell 0x7FFF == 0x44 && t.cell 0x7FFE == 0x33 &&
      t.cell 0x7FFD == 0x22 && t.cell 0x7FFC == 0x11) = true := by decide

theorem test_pshu : runs [0x36, 0x41] { start with cc := CC.ofByte 0xD0, u := 0x4000, s := 0x8000 }
    (fun t => t.u == 0x3FFD && t.s == 0x8000 && t.pc == 0x1002 && t.cc.toByte == 0xD0 && t.cell 0x3FFF == 0x00 &&
      t.cell 0x3FFE == 0x80 && t.cell 0x3FFD == 0xD0) = true := by decide

theorem test_pulu : runs [0x37, 0x41] { start with u := 0x3FFD, mem := placeBytes [] 0x3FFD [0xD0, 0x80, 0x00] }
    (fun t => t.s == 0x8000 && t.u == 0x4000 && t.pc == 0x1002 && t.cc.toByte == 0xD0) = true := by decide

/-! #### Interrupt and status instructions (96_test_vectors_by_family.md, section 3.9) -/

theorem test_swi : runs [0x3F] { regs with cc := CC.ofByte 0x05, mem := placeBytes [] 0xFFFA [0x30, 0x00] }
    (fun t => t.s == 0x7FF4 && t.pc == 0x3000 && t.cc.toByte == 0xD5 &&
      cells t 0x7FF4 12 == [0x85, 0x11, 0x22, 0x33, 0x44, 0x55, 0x66, 0x77, 0x88, 0x99, 0x10, 0x01]) = true := by decide

theorem test_swi2 : runs [0x10, 0x3F] { regs with cc := CC.ofByte 0x05, mem := placeBytes [] 0xFFF4 [0x32, 0x00] }
    (fun t => t.s == 0x7FF4 && t.pc == 0x3200 && t.cc.toByte == 0x85 &&
      cells t 0x7FF4 12 == [0x85, 0x11, 0x22, 0x33, 0x44, 0x55, 0x66, 0x77, 0x88, 0x99, 0x10, 0x02]) = true := by decide

theorem test_swi3 : runs [0x11, 0x3F] { regs with cc := CC.ofByte 0x50, mem := placeBytes [] 0xFFF2 [0x31, 0x00] }
    (fun t => t.s == 0x7FF4 && t.pc == 0x3100 && t.cc.toByte == 0xD0 &&
      cells t 0x7FF4 12 == [0xD0, 0x11, 0x22, 0x33, 0x44, 0x55, 0x66, 0x77, 0x88, 0x99, 0x10, 0x02]) = true := by decide

theorem test_rti : runs [0x3B]
    { regs with cc := CC.ofByte 0x50, s := 0x7FF4, mem := placeBytes [] 0x7FF4 [0x85, 0x01, 0x02, 0x03, 0x04, 0x05, 0x06,
      0x07, 0x08, 0x09, 0x20, 0x00] }
    (fun t => t.a == 0x01 && t.b == 0x02 && t.dp == 0x03 && t.x == 0x0405 && t.y == 0x0607 && t.u == 0x0809 &&
      t.s == 0x8000 && t.pc == 0x2000 && t.cc.toByte == 0x85) = true := by decide

theorem test_rti_2 : runs [0x3B]
    { regs with cc := CC.ofByte 0xD0, s := 0x7FFD, mem := placeBytes [] 0x7FFD [0x05, 0x20, 0x00] }
    (fun t => t.a == 0x11 && t.s == 0x8000 && t.pc == 0x2000 && t.cc.toByte == 0x05) = true := by decide

theorem test_cwai : runs [0x3C, 0xEF] { regs with cc := CC.ofByte 0x55 }
    (fun t => t.s == 0x7FF4 && t.pc == 0x1002 && t.run == Run.cwaiWait && t.cc.toByte == 0xC5 &&
      cells t 0x7FF4 12 == [0xC5, 0x11, 0x22, 0x33, 0x44, 0x55, 0x66, 0x77, 0x88, 0x99, 0x10, 0x02]) = true := by decide

theorem test_sync : runs [0x13] { regs with cc := CC.ofByte 0x50 }
    (fun t => t.s == 0x8000 && t.pc == 0x1001 && t.run == Run.syncWait && t.cc.toByte == 0x50) = true := by decide

theorem test_andcc : runs [0x1C, 0xAF] { start with cc := CC.ofByte 0xFF }
    (fun t => t.pc == 0x1002 && t.cc.toByte == 0xAF) = true := by decide

theorem test_orcc : runs [0x1A, 0x50] { start with cc := CC.ofByte 0x05 }
    (fun t => t.pc == 0x1002 && t.cc.toByte == 0x55) = true := by decide

/-! #### No operations (96_test_vectors_by_family.md, section 3.10) -/

theorem test_nop : runs [0x12] { start with cc := CC.ofByte 0xFF }
    (fun t => t.pc == 0x1001 && t.cc.toByte == 0xFF) = true := by decide

theorem test_brn : runs [0x21, 0x7F] { start with cc := CC.ofByte 0xFF }
    (fun t => t.pc == 0x1002 && t.cc.toByte == 0xFF) = true := by decide

theorem test_lbrn : runs [0x10, 0x21, 0x12, 0x34] start
    (fun t => t.pc == 0x1004 && t.cc.toByte == 0x00) = true := by decide

/-! #### Branches: the truth table of section 3.6 -/

/-- Whether the branch `bytes` at 1000 with displacement 0x10 is taken, for each CC value of the table. -/
def takenFor (bytes : List Byte) (npc : Word) : List Bool :=
  [0x00#8, 0x01#8, 0x02#8, 0x04#8, 0x08#8, 0x0A#8, 0x05#8, 0x0C#8].map fun cc =>
    runs bytes { start with cc := CC.ofByte cc } fun t => t.pc == npc + 0x10#16 && t.cc.toByte == cc

/-- The rows of the table, conditions 2 to F. -/
def branchTable : List (Byte × List Bool) :=
  [(0x22, [true, false, true, false, true, true, false, false]), (0x23, [false, true, false, true, false, false, true, true]),
   (0x24, [true, false, true, true, true, true, false, true]), (0x25, [false, true, false, false, false, false, true, false]),
   (0x26, [true, true, true, false, true, true, false, false]), (0x27, [false, false, false, true, false, false, true, true]),
   (0x28, [true, true, false, true, true, false, true, true]), (0x29, [false, false, true, false, false, true, false, false]),
   (0x2A, [true, true, true, true, false, false, true, false]), (0x2B, [false, false, false, false, true, true, false, true]),
   (0x2C, [true, true, false, true, false, true, true, false]), (0x2D, [false, false, true, false, true, false, false, true]),
   (0x2E, [true, true, false, false, false, true, false, false]), (0x2F, [false, false, true, true, true, false, true, true])]

theorem test_short_branches :
    branchTable.all (fun row => takenFor [row.1, 0x10] 0x1002 == row.2) = true := by decide

theorem test_long_branches :
    branchTable.all (fun row => takenFor [0x10, row.1, 0x00, 0x10] 0x1004 == row.2) = true := by decide

/-- R289, R291, R305, R307: the second names of the branches, taken and not. -/
theorem test_second_names_of_branches :
    exec (.bhs 0x10#8) start = .next { start with pc := 0x1010#16 } ∧
    exec (.blo 0x10#8) start = .next start ∧
    exec (.lbhs 0x0010#16) start = .next { start with pc := 0x1010#16 } ∧
    exec (.lblo 0x0010#16) start = .next start := ⟨rfl, rfl, rfl, rfl⟩

/-! #### Interrupt entry (section 3.9), the waits and RESET -/

/-- The registers of section 3.9 with CC = 05, its vectors, and these inputs at the next step. -/
def asked (i : Inputs) (s : State) : State :=
  { s with
    inputs := [i]
    mem := placeBytes s.mem 0xFFF6#16 [0x36, 0x00, 0x38, 0x00, 0x30, 0x00, 0x3C, 0x00, 0x10, 0x00] }

/-- What the step of a state answers satisfies `p`. -/
def steps (s : State) (p : State → Bool) : Bool :=
  match step s with
  | .next t => p t
  | .refused _ => false

theorem test_irq_entry :
    steps (asked { quiet with irq := true } { regs with cc := CC.ofByte 0x05 })
      (fun t => t.s == 0x7FF4 && t.pc == 0x3800 && t.cc.toByte == 0x95 &&
        cells t 0x7FF4 12 == [0x85, 0x11, 0x22, 0x33, 0x44, 0x55, 0x66, 0x77, 0x88, 0x99, 0x10, 0x00]) = true := by decide

theorem test_firq_entry_goes_before_irq :
    steps (asked { quiet with irq := true, firq := true } { regs with cc := CC.ofByte 0x05 })
      (fun t => t.s == 0x7FFD && t.pc == 0x3600 && t.cc.toByte == 0x55 && cells t 0x7FFD 3 == [0x05, 0x10, 0x00]) = true := by
  decide

theorem test_nmi_entry_goes_first :
    steps (asked { quiet with irq := true, firq := true, nmiEdge := true }
        { regs with cc := CC.ofByte 0x05, nmiArmed := true })
      (fun t => t.s == 0x7FF4 && t.pc == 0x3C00 && t.cc.toByte == 0xD5 && t.nmiRequest == false &&
        cells t 0x7FF4 12 == [0x85, 0x11, 0x22, 0x33, 0x44, 0x55, 0x66, 0x77, 0x88, 0x99, 0x10, 0x00]) = true := by decide

/-- "With CC = 15 before (I = 1) the IRQ line is not accepted and the instruction at 1000 runs"; an edge of a disarmed NMI is
dropped (R392). -/
theorem test_masked_irq_and_disarmed_nmi :
    steps (asked { quiet with irq := true, nmiEdge := true }
        { regs with cc := CC.ofByte 0x15, mem := placeBytes [] 0x1000 [0x12] })
      (fun t => t.s == 0x8000 && t.pc == 0x1001 && t.cc.toByte == 0x15 && t.nmiRequest == false) = true := by decide

/-- 95_test_vectors.md section 4.4: the wake of CWAI by IRQ, CC = C4 before and D4 after, nothing stacked. -/
theorem test_cwai_wake :
    steps (asked { quiet with irq := true, firq := true }
        { regs with cc := CC.ofByte 0xC4, s := 0x7FF4, pc := 0x1009, run := .cwaiWait })
      (fun t => t.s == 0x7FF4 && t.pc == 0x3800 && t.cc.toByte == 0xD4 && t.run == .running) = true := by decide

/-- R400: a masked IRQ ends SYNC and the next instruction runs. -/
theorem test_sync_ends_on_masked_irq :
    steps (asked { quiet with irq := true }
        { regs with cc := CC.ofByte 0x10, run := .syncWait, mem := placeBytes [] 0x1000 [0x12] })
      (fun t => t.pc == 0x1001 && t.run == .running && t.cc.toByte == 0x10 && t.s == 0x8000) = true := by decide

/-- 95_test_vectors.md section 5: RESET with 1000 at FFFE. -/
theorem test_reset_event :
    steps (asked { quiet with reset := true } { regs with run := .cwaiWait, nmiArmed := true, nmiRequest := true })
      (fun t => t.pc == 0x1000 && t.dp == 0x00 && t.cc.i && t.cc.f && t.run == .running && t.nmiArmed == false &&
        t.nmiRequest == false) = true := by decide

/-! #### Memory map -/

/-- A device at 2000, ROM at 3000 that holds 5A, nothing at 4000. -/
def mapped : State :=
  { start with
    memMap := [{ first := 0x2000, last := 0x20FF, kind := .device }, { first := 0x3000, last := 0x30FF, kind := .rom },
      { first := 0x4000, last := 0x40FF, kind := .absent }]
    mem := placeBytes [] 0x3000 [0x5A]
    devIn := [0x81, 0x07] }

/-- R60: INC on a device cell is one read and one write, each an event; the second answer is left for the next read. -/
theorem test_device_read_modify_write :
    runs [0x7C, 0x20, 0x00] mapped (fun t => t.events == [.write 0x2000 0x82, .read 0x2000 0x81] && t.devIn == [0x07] &&
      t.cell 0x2000 == 0x00 && t.cc.n) = true := by decide

/-- R55, R56, R127: STD to device cells writes the high byte first; LDA through a pointer in device cells reads the pointer, high byte
first, and then the operand; TST reads once. -/
theorem test_device_access_order :
    runs [0xFD, 0x20, 0xFE] { mapped with a := 0x12, b := 0x34 }
      (fun t => t.events == [.write 0x20FF 0x34, .write 0x20FE 0x12] && t.devIn == [0x81, 0x07]) = true ∧
    runs [0xA6, 0x9F, 0x20, 0x00] { mapped with devIn := [0x20, 0x10, 0x7F, 0x55] }
      (fun t => t.a == 0x7F && t.events == [.read 0x2010 0x7F, .read 0x2001 0x10, .read 0x2000 0x20] && t.devIn == [0x55]) = true ∧
    runs [0x7D, 0x20, 0x00] mapped (fun t => t.events == [.read 0x2000 0x81] && t.cc.n) = true := by decide

/-- R58, R60: ROM keeps its content, and a write where nothing is does nothing. -/
theorem test_rom_and_absent_writes :
    runs [0x7C, 0x30, 0x00] mapped (fun t => t.cell 0x3000 == 0x5A && t.cc.n == false && t.events == []) = true ∧
    runs [0xB7, 0x40, 0x00] mapped (fun t => t.mem == (placeBytes mapped.mem 0x1000 [0xB7, 0x40]) && t.cc.z) = true := by
  decide

/-- R53: PC and the fetch wrap at FFFF. -/
theorem test_fetch_wraps :
    steps { start with pc := 0xFFFF#16, mem := placeBytes [] 0xFFFF [0x86, 0x42] }
      (fun t => t.a == 0x42 && t.pc == 0x0001) = true := by decide

/-- `withFetchWord`: the very next step from reset runs the word, here SWI2 in the table's numbering. -/
theorem test_withFetchWord :
    steps (State.reset.withFetchWord 16 0x103F) (fun t => t.s == 0xFFF4 && t.cc.e) = true := by decide

/-- `State.holds` as a test on a state that is written out. -/
def holdsAll (s : State) (addr : Word) : List Byte → Bool
  | [] => true
  | v :: rest => readable s.memMap addr 1 && s.cell addr == v && holdsAll s (addr + 1#16) rest

theorem holds_of_holdsAll {s : State} {addr : Word} {bytes : List Byte} (h : holdsAll s addr bytes = true) :
    s.holds addr bytes := by
  induction bytes generalizing addr with
  | nil => trivial
  | cons v rest ih =>
    simp only [holdsAll, Bool.and_eq_true, beq_iff_eq] at h
    exact ⟨h.1.1, h.1.2, ih h.2⟩

/-! ### Witnesses: for each obligation with hypotheses, a state and operands that meet them, at the edges of their ranges -/

/-- A stack that wraps: the bytes pushed lie on both sides of address 0. -/
def wraps : State := { regs with s := 0x0003, u := 0x0003 }

theorem test_witness_DecodeEncode :
    wellFormed (.exg (.wide .pc) (.wide .d)) = true ∧ wellFormed (.tfr (.narrow .dp) (.narrow .a)) = true ∧
    wellFormed (.lblo 0xFFFF#16) = true ∧ wellFormed (.cmps (.mem (.idx (.extInd 0xFFFF#16)))) = true := by decide

theorem test_witness_DecodedIsWellFormed :
    decode [0x1F, 0x8B] = .ok (.tfr (.narrow .a) (.narrow .dp)) ∧ decode [0x12] = .ok .nop ∧
    decode [0x11, 0xAC, 0x9F, 0xFF, 0xFF] = .ok (.cmps (.mem (.idx (.extInd 0xFFFF#16)))) := by decide

/-- Both sides of each equivalence, at the ends of the lists. -/
theorem test_witness_UndefinedOpcodes :
    (0x01#8 ≠ 0x10#8 ∧ 0x01#8 ≠ 0x11#8 ∧ decode [0x01] = .error .undefinedOpcode) ∧
    (0xCF#8 ≠ 0x10#8 ∧ 0xCF#8 ≠ 0x11#8 ∧ decode [0xCF] = .error .undefinedOpcode) ∧
    (decode [0x00] = .ok (.neg (.dir 0x00#8)) ∧ decode [0x12] = .ok .nop) ∧
    (decode [0x10, 0x20] = .error .undefinedOpcode ∧ decode [0x10, 0x21] = .ok (.lbrn 0x0000#16)) ∧
    (decode [0x11, 0xBD] = .error .undefinedOpcode ∧ decode [0x11, 0x3F] = .ok .swi3) := by decide

theorem test_witness_ExtendedIndirect :
    0x9F#8 ∈ ([0x9F, 0xBF, 0xDF, 0xFF] : List Byte) ∧ 0xEF#8 ∈ ([0x8F, 0xAF, 0xCF, 0xEF] : List Byte) := by decide

theorem test_witness_IndirectForms :
    (0x91#8).getLsbD 7 = true ∧ (0x91#8).getLsbD 4 = true ∧ decodeIdx (0x91#8 - 0x10#8) [] = some (.inc2 .x false) ∧
    decodeIdx 0x91#8 [] = some (.inc2 .x true) ∧ (0xFD#8).getLsbD 7 = true ∧ (0xFD#8).getLsbD 4 = true ∧
    decodeIdx (0xFD#8 - 0x10#8) [0xFF, 0xFE] = some (.pcr16 false 0xFFFE#16) ∧
    decodeIdx 0xFD#8 [0xFF, 0xFE] = some (.pcr16 true 0xFFFE#16) := by decide

theorem test_witness_WordsAreBigEndian :
    Memory.wf mapped.mem = true ∧ kindAt mapped.memMap 0xFFFF#16 = .ram ∧ kindAt mapped.memMap (0xFFFF#16 + 1#16) = .ram := by
  decide

theorem test_witness_RomAndDeviceAccesses :
    kindAt mapped.memMap 0x1FFF#16 = .ram ∧ kindAt mapped.memMap 0x2000#16 = .device ∧
    kindAt mapped.memMap 0x40FF#16 = .absent ∧ kindAt mapped.memMap 0x3000#16 = .rom ∧ kindAt mapped.memMap 0x30FF#16 = .rom ∧
    kindAt mapped.memMap 0x4000#16 = .absent ∧ kindAt mapped.memMap 0x20FF#16 = .device ∧
    mapped.devIn = 0x81#8 :: [0x07#8] := by decide

/-- The loads: an effective address in ROM, and its word at the last two cells of the address space. -/
theorem test_witness_Loads :
    readable mapped.memMap (memEa (.ext 0x30FF#16) mapped).1 1 = true ∧
    readable mapped.memMap (memEa (.ext 0xFFFF#16) mapped).1 2 = true := by decide

/-- The accesses that the statements list: forms with and without a pointer; addresses that are and that are not a device's. -/
theorem test_witness_AccessesAtEa :
    readsPointer (.ext 0x20FF#16) = false ∧ readsPointer (.idx (.dec2 .s false)) = false ∧
    readsPointer (.idx (.dec2 .s true)) = true ∧
    onDevices mapped.memMap [.write 0x2000#16 0x82#8, .read 0x2000#16 0x81#8] =
      [.write 0x2000#16 0x82#8, .read 0x2000#16 0x81#8] ∧
    onDevices mapped.memMap [.read 0x2100#16 0x00#8, .read 0x20FF#16 0x81#8, .read 0x1FFF#16 0x00#8] =
      [.read 0x20FF#16 0x81#8] := by decide

/-- The hypothesis of the store statements, of the operations on memory and of the calls. -/
theorem test_witness_canonical_memory : Memory.wf mapped.mem = true ∧ Memory.wf State.reset.mem = true := by decide

theorem test_witness_DecimalAddition :
    9 < 10 ∧ 0 < 10 ∧ ({ start with a := 0x99 }).a = BitVec.ofNat 8 (16 * 9 + 9) ∧
    ({ start with a := 0x00 }).a = BitVec.ofNat 8 (16 * 0 + 0) := by decide

/-- The short and the long displacement are taken and not taken: all flags clear, all set, N apart from V. -/
theorem test_witness_ConditionNumbers :
    (∀ cc : CC, cc = CC.ofByte 0x00 → (cc.c = false ∧ cc.z = false) ∧ cc.v = false ∧ cc.n = false ∧
      (cc.z = false ∧ cc.n = cc.v)) ∧
    (∀ cc : CC, cc = CC.ofByte 0x0D → ¬ (cc.c = false ∧ cc.z = false) ∧ ¬ cc.c = false ∧ ¬ cc.z = false ∧ ¬ cc.n = false ∧
      ¬ cc.n = cc.v ∧ ¬ (cc.z = false ∧ cc.n = cc.v)) ∧
    (∀ cc : CC, cc = CC.ofByte 0x02 → ¬ cc.v = false) := by
  refine ⟨?_, ?_, ?_⟩ <;> (intro cc h; subst h; decide)

/-- A compare of every order, so that each relation is both true and false. -/
theorem test_witness_ComparesReadAsRelations :
    compare (0x10#8).toNat (0x20#8).toNat = .lt ∧ compare (0x80#8).toNat (0x01#8).toNat = .gt ∧
    compare (0x80#8).toInt (0x01#8).toInt = .lt ∧ compare (0x7FFF#16).toInt (0x8000#16).toInt = .gt ∧
    compare (0x42#8).toInt (0x42#8).toInt = .eq := by decide

theorem test_witness_Return :
    readable mapped.memMap 0xFFFF#16 2 = true ∧ readable mapped.memMap 0x30FF#16 2 = true := by decide

theorem test_witness_ReturnUndoesCall : ∃ s t u : State, Memory.wf s.mem = true ∧
    exec (.jsr (.idx (.dec2 .s false))) s = .next t ∧
    ramBelow s.memMap (s.baseMoved (.idx (.dec2 .s false))).s 2 = true ∧ u.s = t.s ∧ u.mem = t.mem ∧
    u.memMap = t.memMap ∧ t.s = 0xFFFF#16 :=
  ⟨wraps, _, _, by decide, rfl, by decide, rfl, rfl, rfl, by decide⟩

theorem test_witness_Exchanges_and_Transfers :
    Reg16.pc ≠ .d ∧ Reg16.pc ≠ .x ∧ Reg16.d ≠ .s ∧ Reg16.x ≠ .s ∧ Reg8.dp ≠ .a ∧ Reg8.dp ≠ .cc := by decide

/-- Both sides of the equivalence, at the corners of the two squares of listed pairs. -/
theorem test_witness_RegisterPairs :
    0x1E#8 ∈ ([0x1E, 0x1F] : List Byte) ∧ decode [0x1E, 0x55] = .ok (.exg (.wide .pc) (.wide .pc)) ∧
    decode [0x1E, 0x56] = .error .undefinedRegpair ∧ decode [0x1F, 0x88] = .ok (.tfr (.narrow .a) (.narrow .a)) ∧
    decode [0x1F, 0xBB] = .ok (.tfr (.narrow .dp) (.narrow .dp)) ∧ decode [0x1F, 0x7B] = .error .undefinedRegpair ∧
    decode [0x1F, 0xC8] = .error .undefinedRegpair := by decide

theorem test_witness_LoadEffectiveAddress : ({ start with nmiArmed := true } : State).nmiArmed = true := by decide

/-- All twelve bytes around address 0; a byte below them, and one above. -/
theorem test_witness_Pushes :
    Memory.wf wraps.mem = true ∧ ramBelow wraps.memMap wraps.s (listCount 0xFF#8) = true ∧
    ramBelow wraps.memMap wraps.u (listCount 0x81#8) = true ∧ isBelow wraps.s 0x0003#16 12 = false ∧
    isBelow wraps.s 0xFFF6#16 12 = false ∧ isBelow wraps.s 0xFFF7#16 12 = true ∧ isBelow wraps.s 0x0002#16 12 = true := by
  decide

theorem test_witness_PullsFromS : ∃ s v : State, s.holds s.s (listBytes .s 0x82#8 v) ∧ v.a ≠ s.a ∧ s.s = 0xFFFE#16 :=
  ⟨{ start with s := 0xFFFE, mem := placeBytes [] 0xFFFE [0x99, 0x12, 0x34] },
    { start with a := 0x99, pc := 0x1234 },
    holds_of_holdsAll (by decide), by decide, by decide⟩

theorem test_witness_PullsFromU : ∃ s v : State, s.holds s.u (listBytes .u 0x41#8 v) ∧ v.s ≠ s.s ∧
    (0x41#8).getLsbD 6 = true ∧ (0x81#8).getLsbD 6 = false :=
  ⟨{ start with u := 0xFFFF, mem := placeBytes [] 0xFFFF [0xD0, 0x80, 0x00] },
    { start with cc := CC.ofByte 0xD0, s := 0x8000 },
    holds_of_holdsAll (by decide), by decide, by decide, by decide⟩

theorem test_witness_PullUndoesPush : ∃ s t u : State, Memory.wf s.mem = true ∧
    ramBelow s.memMap s.s (listCount 0xFF#8) = true ∧ exec (.pshs 0xFF#8) s = .next t ∧ u.s = t.s ∧ u.mem = t.mem ∧
    u.memMap = t.memMap ∧ u.a ≠ s.a ∧ (∀ k, k < 8 → (0xFF#8).getLsbD k = true) :=
  ⟨wraps, _, { (pushList .s 0xFF#8 wraps) with a := 0x00 }, by decide, by decide, rfl, rfl, rfl, rfl, by decide, by decide⟩

theorem test_witness_PushAllIsPshsOfEverything :
    Memory.wf wraps.mem = true ∧ ramBelow wraps.memMap wraps.s 12 = true := by decide

/-- What `Entered` asks: canonical memory, a RAM stack, readable vectors, a byte that is not stacked. -/
theorem test_witness_SoftwareInterrupts :
    Memory.wf wraps.mem = true ∧ ramBelow wraps.memMap wraps.s 12 = true ∧ readable wraps.memMap 0xFFFA#16 2 = true ∧
    readable wraps.memMap 0xFFF4#16 2 = true ∧ readable wraps.memMap 0xFFF2#16 2 = true ∧
    isBelow wraps.s 0x0003#16 12 = false := by decide

/-- A state for each clause: NMI, FIRQ, IRQ, and none, with the others that must not win asserted where they may be. -/
theorem test_witness_InterruptAcceptance :
    (∀ s : State, s = asked { quiet with irq := true, firq := true, nmiEdge := true } { regs with nmiArmed := true } →
      s.run = .running ∧ s.nextInputs.reset = false ∧ (s.consumeInputs.latchNmi s.nextInputs).nmiRequest = true ∧
      (s.consumeInputs.latchNmi s.nextInputs).nmiArmed = true) ∧
    (∀ s : State, s = asked { quiet with irq := true, firq := true, nmiEdge := true } regs →
      s.run = .running ∧ s.nextInputs.reset = false ∧ (s.consumeInputs.latchNmi s.nextInputs).nmiRequest = false ∧
      s.nextInputs.firq = true ∧ s.cc.f = false) ∧
    (∀ s : State, s = asked { quiet with irq := true, firq := true } { regs with cc := CC.ofByte 0x40 } →
      s.run = .running ∧ s.nextInputs.reset = false ∧ s.cc.f = true ∧ s.nextInputs.irq = true ∧ s.cc.i = false) ∧
    (∀ s : State, s = asked { quiet with irq := true, firq := true } { regs with cc := CC.ofByte 0x50 } →
      s.run = .running ∧ s.nextInputs.reset = false ∧ s.cc.f = true ∧ s.cc.i = true) := by
  refine ⟨?_, ?_, ?_, ?_⟩ <;> (intro s h; subst h; decide)

theorem test_witness_StackFrames :
    Memory.wf wraps.mem = true ∧ ramBelow wraps.memMap wraps.s 12 = true ∧ ramBelow wraps.memMap 0x0001#16 3 = true ∧
    Event.irq ≠ .firq := by decide

theorem test_witness_ReturnFromInterrupt :
    (∃ s v : State, v.cc.e = true ∧ s.holds s.s (frameBytes true v) ∧ v.u ≠ s.u) ∧
    (∃ s v : State, v.cc.e = false ∧ s.holds s.s (frameBytes false v) ∧ v.pc ≠ s.pc) :=
  ⟨⟨{ start with s := 0xFFF8, mem := placeBytes [] 0xFFF8 [0x85, 0x11, 0x22, 0x33, 0x44, 0x55, 0x66, 0x77, 0x88, 0x99, 0x20, 0x00] },
    { regs with cc := CC.ofByte 0x85, pc := 0x2000 }, by decide,
    holds_of_holdsAll (by decide), by decide⟩,
   ⟨{ start with s := 0xFFFE, mem := placeBytes [] 0xFFFE [0x05, 0x20, 0x00] },
    { start with cc := CC.ofByte 0x05, pc := 0x2000 }, by decide,
    holds_of_holdsAll (by decide), by decide⟩⟩

theorem test_witness_ReturnUndoesEntry :
    (∃ s u : State, Memory.wf s.mem = true ∧ ramBelow s.memMap s.s 3 = true ∧ u.s = (s.takeEvent .firq).s ∧
      u.mem = (s.takeEvent .firq).mem ∧ u.memMap = s.memMap ∧ u.a ≠ s.a) ∧
    (∃ s u : State, Memory.wf s.mem = true ∧ ramBelow s.memMap s.s 12 = true ∧ u.s = (s.takeEvent .nmi).s ∧
      u.mem = (s.takeEvent .nmi).mem ∧ u.memMap = s.memMap ∧ u.a ≠ s.a) :=
  ⟨⟨wraps, { (wraps.takeEvent .firq) with a := 0x00 }, by decide, by decide, rfl, rfl, rfl, by decide⟩,
   ⟨wraps, { (wraps.takeEvent .nmi) with a := 0x00 }, by decide, by decide, rfl, rfl, rfl, by decide⟩⟩

theorem test_witness_ClearAndWait :
    Memory.wf wraps.mem = true ∧ ramBelow wraps.memMap wraps.s 12 = true ∧ isBelow wraps.s 0x0003#16 12 = false := by decide

/-- CWAI: a state for each clause. -/
theorem test_witness_CwaiWake :
    (∀ s : State, s = asked { quiet with irq := true, nmiEdge := true } { regs with nmiArmed := true, run := .cwaiWait } →
      s.run = .cwaiWait ∧ s.nextInputs.reset = false ∧ (s.consumeInputs.latchNmi s.nextInputs).nmiRequest = true ∧
      (s.consumeInputs.latchNmi s.nextInputs).nmiArmed = true ∧ readable s.memMap 0xFFFC#16 2 = true) ∧
    (∀ s : State, s = asked { quiet with irq := true, firq := true } { regs with run := .cwaiWait } →
      s.run = .cwaiWait ∧ s.nextInputs.reset = false ∧ (s.consumeInputs.latchNmi s.nextInputs).nmiRequest = false ∧
      s.nextInputs.firq = true ∧ s.cc.f = false ∧ readable s.memMap 0xFFF6#16 2 = true) ∧
    (∀ s : State, s = asked { quiet with irq := true } { regs with run := .cwaiWait } →
      s.run = .cwaiWait ∧ s.nextInputs.reset = false ∧ s.nextInputs.firq = false ∧ s.nextInputs.irq = true ∧
      s.cc.i = false ∧ readable s.memMap 0xFFF8#16 2 = true) ∧
    (∀ s : State, s = asked { quiet with irq := true, firq := true } { regs with run := .cwaiWait, cc := CC.ofByte 0x50 } →
      s.run = .cwaiWait ∧ s.nextInputs.reset = false ∧ s.cc.f = true ∧ s.cc.i = true) := by
  refine ⟨?_, ?_, ?_, ?_⟩ <;> (intro s h; subst h; decide)

/-- SYNC: a request that ends the wait, masked, and an edge of a disarmed NMI that does not. -/
theorem test_witness_SyncAndWake :
    (∀ s : State, s = asked { quiet with irq := true } { regs with run := .syncWait, cc := CC.ofByte 0x50 } →
      s.run = .syncWait ∧ s.nextInputs.reset = false ∧ s.nextInputs.irq = true) ∧
    (∀ s : State, s = asked { quiet with nmiEdge := true } { regs with run := .syncWait } →
      s.run = .syncWait ∧ s.nextInputs.reset = false ∧ (s.consumeInputs.latchNmi s.nextInputs).nmiRequest = false ∧
      s.nextInputs.firq = false ∧ s.nextInputs.irq = false) := by
  refine ⟨?_, ?_⟩ <;> (intro s h; subst h; decide)

theorem test_witness_WhatArmsNmi : ∃ s t : State, exec (.lds (.imm 0x8000#16)) s = .next t ∧ s.nmiArmed = false ∧
    t.nmiArmed = true :=
  ⟨start, _, rfl, by decide, by decide⟩

theorem test_witness_ResetEvent :
    (asked { quiet with reset := true, nmiEdge := true, irq := true } regs).nextInputs.reset = true ∧
    readable (asked { quiet with reset := true } regs).memMap 0xFFFE#16 2 = true := by decide

theorem test_witness_StepRunsDecoded : ∃ (s u : State) (i : Instr), boundary s = .execute u ∧ decode u.window = .ok i ∧
    i = .lda (.imm 0x42#8) ∧ s.pc = 0xFFFF#16 :=
  ⟨{ start with pc := 0xFFFF, mem := placeBytes [] 0xFFFF [0x86, 0x42] }, _, .lda (.imm 0x42#8), rfl, by decide, rfl, rfl⟩

theorem test_witness_StepRunsTheInstructionAtPc : ∃ (s : State) (i : Instr), wellFormed i = true ∧ s.executes ∧
    s.holds s.pc (encode i) ∧ i = .lblo 0xFFFE#16 ∧ s.pc = 0xFFFD#16 :=
  ⟨{ start with pc := 0xFFFD, mem := placeBytes [] 0xFFFD [0x10, 0x25, 0xFF, 0xFE] }, .lblo 0xFFFE#16, rfl,
    ⟨by decide, by decide, by decide⟩, holds_of_holdsAll (by decide), rfl, rfl⟩

theorem test_witness_StepKeepsInvariant : ∃ s t : State, s.Inv ∧ step s = .next t ∧ s.nmiRequest = true :=
  ⟨{ regs with nmiArmed := true, nmiRequest := true }, _, ⟨by decide, fun _ => rfl⟩, rfl, rfl⟩

theorem test_witness_RomNeverChanges : ∃ s t : State, Reachable s t ∧ kindAt s.memMap 0x3000#16 ≠ .ram ∧ t ≠ s :=
  ⟨{ mapped with mem := placeBytes mapped.mem 0x1000 [0x12] }, _, .step .refl rfl, by decide, by decide⟩

end Sys2Proof.Tests
end

/-! The addressing forms that read a pointer (spec/40_addressing_modes.md R123, R124). -/

namespace Sys2Proof

/-! ### The fields of a post byte with bit 4 cleared (R114) -/

/-- Subtracting 0x10 from a post byte whose bit 4 is set clears that bit and keeps every other field. -/
theorem postByte_sub_pointerBit {pb : Byte} (h4 : pb.getLsbD 4 = true) :
    (pb - 0x10#8).getLsbD 7 = pb.getLsbD 7 ∧ (pb - 0x10#8).getLsbD 4 = false ∧
    (pb - 0x10#8).extractLsb' 5 2 = pb.extractLsb' 5 2 ∧ (pb - 0x10#8).extractLsb' 0 4 = pb.extractLsb' 0 4 := by
  revert pb; decide

/-! ### Extended indirect (R123) -/

/-- The post bytes `1XX11111` select extended indirect, the address in the two bytes that follow. -/
theorem decodeIdx_extInd {pb : Byte} (h7 : pb.getLsbD 7 = true) (h4 : pb.getLsbD 4 = true)
    (hm : pb.extractLsb' 0 4 = 0xF#4) (rest : List Byte) : decodeIdx pb rest = some (.extInd (wordAt rest 0)) := by
  simp only [decodeIdx, h7, h4, hm]; rfl

/-- The post bytes `1XX01111` select no form: extended indirect has no version without the pointer. -/
theorem decodeIdx_extInd_direct {pb : Byte} (h7 : pb.getLsbD 7 = true) (h4 : pb.getLsbD 4 = false)
    (hm : pb.extractLsb' 0 4 = 0xF#4) (rest : List Byte) : decodeIdx pb rest = none := by
  simp only [decodeIdx, h7, h4, hm]; rfl

/-! ### A form and its indirect version (R124) -/

/-- The indirect version of a form, for the direct forms that have one (the two columns of R126). -/
def Idx.indirectVersion : Idx → Option Idx
  | .noOff r false => some (.noOff r true)
  | .off8 r false n => some (.off8 r true n)
  | .off16 r false n => some (.off16 r true n)
  | .accA r false => some (.accA r true)
  | .accB r false => some (.accB r true)
  | .accD r false => some (.accD r true)
  | .inc2 r false => some (.inc2 r true)
  | .dec2 r false => some (.dec2 r true)
  | .pcr8 false n => some (.pcr8 true n)
  | .pcr16 false n => some (.pcr16 true n)
  | _ => none

/-- Two post bytes that differ only in bit 4, where both select a form, select a form and its indirect version. -/
theorem indirectVersion_of_decodeIdx {pb : Byte} {rest : List Byte} {direct indirect : Idx}
    (h7 : pb.getLsbD 7 = true) (h4 : pb.getLsbD 4 = true)
    (hd : decodeIdx (pb - 0x10#8) rest = some direct) (hi : decodeIdx pb rest = some indirect) :
    direct.indirectVersion = some indirect := by
  obtain ⟨h7', h4', hr, hm⟩ := postByte_sub_pointerBit h4
  simp only [decodeIdx, h7', h4', hr, hm, h7, h4, if_true] at hd hi
  -- Row by row of R126: the rows with one version only contradict `hi` or `hd`, the others differ in `ind`.
  generalize (pb.extractLsb' 0 4).toNat = m at hd hi
  split at hi <;> cases hi <;> cases hd <;> rfl

namespace Machine

/-- The effective address of extended indirect is the word at the address that the instruction names. -/
theorem idxEa_extInd (addr : Word) (s : State) : idxEa (.extInd addr) s = s.read16 addr := rfl

/-- The effective address of an indirect version is the word at the address of the direct form, read after its auto
modification. -/
theorem idxEa_indirectVersion {direct indirect : Idx} (h : direct.indirectVersion = some indirect) (s : State) :
    idxEa indirect s = (idxEa direct s).2.read16 (idxEa direct s).1 := by
  unfold Idx.indirectVersion at h
  split at h <;> cases h <;> rfl

/-! ### The obligations of the family -/

/-- Settles O6, from the decoder's two patterns with `pb[3:0] = 1111`. -/
theorem extendedIndirect : Obligations.ExtendedIndirect := by
  refine ⟨fun pb hpb hi lo rest => ?_, idxEa_extInd, fun pb hpb rest => ?_⟩
  · obtain ⟨h7, h4, hm⟩ : pb.getLsbD 7 = true ∧ pb.getLsbD 4 = true ∧ pb.extractLsb' 0 4 = 0xF#4 := by
      revert pb; decide
    exact decodeIdx_extInd h7 h4 hm (hi :: lo :: rest)
  · obtain ⟨h7, h4, hm⟩ : pb.getLsbD 7 = true ∧ pb.getLsbD 4 = false ∧ pb.extractLsb' 0 4 = 0xF#4 := by
      revert pb; decide
    exact decodeIdx_extInd_direct h7 h4 hm rest

/-- Settles O8: the two post bytes select a form and its indirect version, whose effective addresses R124 relates. -/
theorem indirectForms : Obligations.IndirectForms := by
  intro pb rest direct indirect s h7 h4 hd hi
  exact idxEa_indirectVersion (indirectVersion_of_decodeIdx h7 h4 hd hi) s

end Machine
end Sys2Proof

/-! Compares and the branches that read them (spec/42_accumulator_memory_operate.md R183; 45_branch_on_condition.md R282). -/

namespace Sys2Proof.Machine

/-! ### The flags of a subtraction are the order of its operands -/

/-- Numbers of one sign subtract without signed overflow. -/
theorem toInt_sub_of_msb_eq {n : Nat} {v m : BitVec n} (h : v.msb = m.msb) : (v - m).toInt = v.toInt - m.toInt := by
  have hv := v.two_mul_toInt_lt
  have hv' := v.le_two_mul_toInt
  have hm := m.two_mul_toInt_lt
  have hm' := m.le_two_mul_toInt
  rw [BitVec.msb_eq_toInt, BitVec.msb_eq_toInt, decide_eq_decide] at h
  rw [BitVec.toInt_sub, Int.bmod_eq_of_le_mul_two] <;> push_cast <;> omega

/-- `N xor V` of a subtraction is the signed comparison: without overflow N is the sign of the exact difference, with
overflow it is the opposite of it. -/
theorem subN_msb_xor_vout {n : Nat} (v m : BitVec n) :
    ((subN v m false).r.msb != (subN v m false).vout) = decide (v.toInt < m.toInt) := by
  have hvout : (subN v m false).vout = (v.msb != m.msb && (v - m).msb != v.msb) := by rw [← subN_r]; rfl
  rw [hvout, subN_r]
  by_cases hs : v.msb = m.msb
  · have hN : (v - m).msb = decide (v.toInt < m.toInt) := by
      rw [BitVec.msb_eq_toInt, toInt_sub_of_msb_eq hs, decide_eq_decide]; omega
    simp [hs, hN]
  · have hv : v.msb = decide (v.toInt < m.toInt) := by
      simp only [BitVec.msb_eq_toInt, decide_eq_decide] at hs ⊢; omega
    have hNV : ∀ r v m : Bool, v ≠ m → (r != (v != m && r != v)) = v := by decide
    rw [hNV _ _ _ hs, hv]

/-- Z, C and `N xor V` say how a register `v` stands to the operand `m` it was compared with. -/
structure ComparedFlags {n : Nat} (v m : BitVec n) (cc : CC) : Prop where
  z : cc.z = decide (v = m)
  c : cc.c = decide (v.toNat < m.toNat)
  n_xor_v : (cc.n != cc.v) = decide (v.toInt < m.toInt)

/-- The flags of R172 after `v - m` are those of a compare. -/
theorem comparedFlags_nzvc {n : Nat} (v m : BitVec n) (cc : CC) : ComparedFlags v m (cc.nzvc (subN v m false)) where
  z := by
    change ((subN v m false).r == 0) = _
    rw [subN_r, Bool.beq_eq_decide_eq, decide_eq_decide]
    exact sub_eq_zero
  c := by
    change (subN v m false).cout = _
    rw [subN_cout]; rfl
  n_xor_v := subN_msb_xor_vout v m

/-- CMPA and CMPB leave the flags of a compare, whatever bit H takes. -/
theorem comparedFlags_opSub8 (any : Bool) (v m : Byte) (cc : CC) : ComparedFlags v m (opSub8 any v m cc).2 :=
  let h := comparedFlags_nzvc v m cc
  ⟨h.z, h.c, h.n_xor_v⟩

/-- The 16-bit compares leave the flags of a compare. -/
theorem comparedFlags_opSub16 (v m : Word) (cc : CC) : ComparedFlags v m (opSub16 v m cc).2 :=
  comparedFlags_nzvc v m cc

/-! ### The conditions as relations (R282) -/

namespace ComparedFlags

variable {n : Nat} {v m : BitVec n} {cc : CC}

theorem eq_iff (h : ComparedFlags v m cc) : condHolds .eq cc = true ↔ compare v.toNat m.toNat = .eq := by
  rw [condHolds, h.z, decide_eq_true_iff, compare_eq_iff_eq, BitVec.toNat_inj]

theorem cs_iff (h : ComparedFlags v m cc) : condHolds .cs cc = true ↔ compare v.toNat m.toNat = .lt := by
  rw [condHolds, h.c, decide_eq_true_iff, compare_lt_iff_lt]

theorem hi_iff (h : ComparedFlags v m cc) : condHolds .hi cc = true ↔ compare v.toNat m.toNat = .gt := by
  simp only [condHolds, h.c, h.z, Bool.and_eq_true, Bool.not_eq_true', decide_eq_false_iff_not, compare_gt_iff_gt,
    ← BitVec.toNat_inj]
  omega

theorem lt_iff (h : ComparedFlags v m cc) : condHolds .lt cc = true ↔ compare v.toInt m.toInt = .lt := by
  rw [condHolds, h.n_xor_v, decide_eq_true_iff, compare_lt_iff_lt]

theorem gt_iff (h : ComparedFlags v m cc) : condHolds .gt cc = true ↔ compare v.toInt m.toInt = .gt := by
  have hge : (cc.n == cc.v) = !decide (v.toInt < m.toInt) := by rw [← h.n_xor_v, bne, Bool.not_not]
  simp only [condHolds, hge, h.z, Bool.and_eq_true, Bool.not_eq_true', decide_eq_false_iff_not, compare_gt_iff_gt,
    ← BitVec.toInt_inj]
  omega

end ComparedFlags

/-- The other condition numbers of R282: each is the negation of one above (R281). -/
theorem condHolds_negations (cc : CC) :
    condHolds .ne cc = !condHolds .eq cc ∧ condHolds .cc cc = !condHolds .cs cc ∧
    condHolds .ls cc = !condHolds .hi cc ∧ condHolds .ge cc = !condHolds .lt cc ∧
    condHolds .le cc = !condHolds .gt cc := by
  simp [condHolds, bne]

/-- A condition that negates one which holds just when `p` does holds just when `p` does not. -/
theorem condHolds_iff_not {k k' : Cond} {cc : CC} {p : Prop} (hn : condHolds k' cc = !condHolds k cc)
    (hp : condHolds k cc = true ↔ p) : condHolds k' cc = true ↔ ¬ p := by
  rw [hn, ← hp, Bool.not_eq_true', Bool.not_eq_true]

/-! ### The branches -/

/-- The short and the long branch both go to their target when `taken` holds, and on to the next instruction when not. -/
def BothBranchWhen (mm : Byte) (mmnn : Word) (t : State) (short long : Instr) (taken : Prop) : Prop :=
  ∃ u w, exec short t = .next u ∧ exec long t = .next w ∧
    (taken → u.pc = t.pc + mm.signExtend 16 ∧ w.pc = t.pc + mmnn) ∧ (¬ taken → u.pc = t.pc ∧ w.pc = t.pc)

/-- Two branches on one condition, which holds just when `taken` does. -/
theorem bothBranchWhen_of_condHolds {mm : Byte} {mmnn : Word} {t : State} {short long : Instr} {taken : Prop} {k : Cond}
    (hk : condHolds k t.cc = true ↔ taken) (hs : exec short t = .next (branchIf k (sext16 mm) t))
    (hl : exec long t = .next (branchIf k mmnn t)) : BothBranchWhen mm mmnn t short long taken := by
  refine ⟨_, _, hs, hl, fun h => ?_, fun h => ?_⟩
  · simp [branchIf, hk.mpr h, branchTo, sext16]
  · simp [branchIf, mt hk.mp h]

/-- The table of R282: how the branches read in a state whose last compare found these orders. -/
def BranchesReadAs (mm : Byte) (mmnn : Word) (t : State) (unsignedOrder signedOrder : Ordering) : Prop :=
  let goes := BothBranchWhen mm mmnn t
  goes (.beq mm) (.lbeq mmnn) (unsignedOrder = .eq) ∧ goes (.bne mm) (.lbne mmnn) (unsignedOrder ≠ .eq) ∧
  goes (.bhi mm) (.lbhi mmnn) (unsignedOrder = .gt) ∧ goes (.bhs mm) (.lbhs mmnn) (unsignedOrder ≠ .lt) ∧
  goes (.blo mm) (.lblo mmnn) (unsignedOrder = .lt) ∧ goes (.bls mm) (.lbls mmnn) (unsignedOrder ≠ .gt) ∧
  goes (.bgt mm) (.lbgt mmnn) (signedOrder = .gt) ∧ goes (.bge mm) (.lbge mmnn) (signedOrder ≠ .lt) ∧
  goes (.blt mm) (.lblt mmnn) (signedOrder = .lt) ∧ goes (.ble mm) (.lble mmnn) (signedOrder ≠ .gt)

/-- After a compare of `v` with `m` the branches read as the relations of R282. -/
theorem branchesReadAs_of_comparedFlags {n : Nat} {v m : BitVec n} {t : State} (h : ComparedFlags v m t.cc)
    (mm : Byte) (mmnn : Word) : BranchesReadAs mm mmnn t (compare v.toNat m.toNat) (compare v.toInt m.toInt) := by
  obtain ⟨hne, hcc, hls, hge, hle⟩ := condHolds_negations t.cc
  exact ⟨bothBranchWhen_of_condHolds h.eq_iff rfl rfl, bothBranchWhen_of_condHolds (condHolds_iff_not hne h.eq_iff) rfl rfl,
    bothBranchWhen_of_condHolds h.hi_iff rfl rfl, bothBranchWhen_of_condHolds (condHolds_iff_not hcc h.cs_iff) rfl rfl,
    bothBranchWhen_of_condHolds h.cs_iff rfl rfl, bothBranchWhen_of_condHolds (condHolds_iff_not hls h.hi_iff) rfl rfl,
    bothBranchWhen_of_condHolds h.gt_iff rfl rfl, bothBranchWhen_of_condHolds (condHolds_iff_not hge h.lt_iff) rfl rfl,
    bothBranchWhen_of_condHolds h.lt_iff rfl rfl, bothBranchWhen_of_condHolds (condHolds_iff_not hle h.gt_iff) rfl rfl⟩

/-! ### The compares -/

/-- What is left of a compare once its flags are known: nothing but them is written, and the branches read them. -/
theorem readsAs_of_comparedFlags {n : Nat} {v m : BitVec n} {base t : State} {cc : CC}
    (hsame : SameButDevices { base with cc := cc } t) (hflags : ComparedFlags v m cc) (mm : Byte) (mmnn : Word) :
    SameButDevices { base with cc := t.cc } t ∧
      BranchesReadAs mm mmnn t (compare v.toNat m.toNat) (compare v.toInt m.toInt) := by
  obtain rfl : t.cc = cc := hsame.cc_eq
  exact ⟨hsame, branchesReadAs_of_comparedFlags hflags mm mmnn⟩

/-- An 8-bit compare of a register that holds `v` when the operand has been formed writes flags alone, and the branches
read them as the relations of `v` to the operand. -/
theorem compare8_readsAs {r : Reg8} {src : Src8} {s : State} {v : Byte} (hv : (s.baseMoved8 src).get8 r = v)
    (mm : Byte) (mmnn : Word) :
    SameButDevices { s.baseMoved8 src with cc := (test8Any opSub8 r src s).cc } (test8Any opSub8 r src s) ∧
      BranchesReadAs mm mmnn (test8Any opSub8 r src s) (compare v.toNat (readSrc8 src s).1.toNat)
        (compare v.toInt (readSrc8 src s).1.toInt) := by
  obtain ⟨any, hsame, -⟩ := test8Any_spec opSub8 r src s
  rw [hv] at hsame
  exact readsAs_of_comparedFlags hsame (comparedFlags_opSub8 any v _ s.cc) mm mmnn

/-- A 16-bit compare of a register that holds `v` when the operand has been formed writes flags alone, and the branches
read them as the relations of `v` to the operand. -/
theorem compare16_readsAs {r : Reg16} {src : Src16} {s : State} {v : Word} (hv : (s.baseMoved16 src).get16 r = v)
    (mm : Byte) (mmnn : Word) :
    SameButDevices { s.baseMoved16 src with cc := (test16 opSub16 r src s).cc } (test16 opSub16 r src s) ∧
      BranchesReadAs mm mmnn (test16 opSub16 r src s) (compare v.toNat (readSrc16 src s).1.toNat)
        (compare v.toInt (readSrc16 src s).1.toInt) := by
  obtain ⟨hsame, -⟩ := test16_spec opSub16 r src s
  rw [hv] at hsame
  exact readsAs_of_comparedFlags hsame (comparedFlags_opSub16 v _ s.cc) mm mmnn

/-! ### The obligation of the family -/

/-- Settles O19: each compare leaves the order of register and operand in Z, C and `N xor V`, which the conditions of the
branches read back. -/
theorem comparesReadAsRelations : Obligations.ComparesReadAsRelations := by
  intro src8 src16 s mm mmnn
  refine ⟨⟨_, rfl, compare8_readsAs ?_ mm mmnn⟩, ⟨_, rfl, compare8_readsAs ?_ mm mmnn⟩,
    ⟨_, rfl, compare16_readsAs ?_ mm mmnn⟩, ⟨_, rfl, compare16_readsAs rfl mm mmnn⟩,
    ⟨_, rfl, compare16_readsAs rfl mm mmnn⟩, ⟨_, rfl, compare16_readsAs rfl mm mmnn⟩,
    ⟨_, rfl, compare16_readsAs rfl mm mmnn⟩⟩
  all_goals simp

end Sys2Proof.Machine

/-! The sixteen condition numbers of the branches (spec/45_branch_on_condition.md R280, R281). -/

namespace Sys2Proof

/-! ### The two pages a branch is decoded from (R88) -/

/-- An opcode byte that page 1 lists is no page byte, so what follows it is its operand. -/
theorem decode_of_page1 {op : Byte} {row : Row} (h : page1 op = row) (hrow : row ≠ .undef) (rest : List Byte) :
    decode (op :: rest) = decodeRow row rest := by
  have h10 : op ≠ 0x10#8 := by rintro rfl; exact hrow h.symm
  have h11 : op ≠ 0x11#8 := by rintro rfl; exact hrow h.symm
  simp [decode, byteAt, h10, h11, h]

/-- After the page byte 0x10 the second byte selects a row of page 2. -/
theorem decode_of_page2 {op : Byte} {row : Row} (h : page2 op = row) (rest : List Byte) :
    decode (0x10#8 :: op :: rest) = decodeRow row rest := by
  simp [decode, byteAt, h]

namespace Machine

/-! ### The conditions as they read on CC (R281) -/

/-- The condition of each number of R281 from 2 on: an odd number's is the negation of the even one's below it. -/
def Cond.Reads : Cond → CC → Prop
  | .hi, flags => flags.c = false ∧ flags.z = false
  | .ls, flags => ¬ (flags.c = false ∧ flags.z = false)
  | .cc, flags => flags.c = false
  | .cs, flags => ¬ flags.c = false
  | .ne, flags => flags.z = false
  | .eq, flags => ¬ flags.z = false
  | .vc, flags => flags.v = false
  | .vs, flags => ¬ flags.v = false
  | .pl, flags => flags.n = false
  | .mi, flags => ¬ flags.n = false
  | .ge, flags => flags.n = flags.v
  | .lt, flags => ¬ flags.n = flags.v
  | .gt, flags => flags.z = false ∧ flags.n = flags.v
  | .le, flags => ¬ (flags.z = false ∧ flags.n = flags.v)

/-- The model's condition holds just when the flags read as the table says. -/
theorem condHolds_iff_reads (k : Cond) (cc : CC) : condHolds k cc = true ↔ k.Reads cc := by
  cases k with
  | hi | cc | ne | vc | pl | ge | gt => simp [condHolds, Cond.Reads]
  | ls | cs | eq | vs | mi | lt | le => simp [condHolds, Cond.Reads, or_iff_not_imp_left]

/-! ### What a branch does (R280) -/

/-- An instruction that goes to its target when `taken` holds of CC, and does nothing when not, branches when `taken`
holds. -/
theorem branchesWhen_of_exec {n : Nat} {i : BitVec n → Instr} {taken : CC → Bool} {cond : CC → Prop}
    (hexec : ∀ disp s, exec (i disp) s = .next (if taken s.cc then branchTo (sext16 disp) s else s))
    (hcond : ∀ cc, taken cc = true ↔ cond cc) : BranchesWhen i cond := by
  intro disp s
  refine ⟨_, hexec disp s, ?_⟩
  rw [← hcond s.cc]
  cases taken s.cc <;> simp [branchTo, sext16]

/-- A long displacement is added as it is: extending sixteen bits to sixteen changes nothing. -/
theorem branchesWhen_of_exec_long {i : Word → Instr} {taken : CC → Bool} {cond : CC → Prop}
    (hexec : ∀ disp s, exec (i disp) s = .next (if taken s.cc then branchTo disp s else s))
    (hcond : ∀ cc, taken cc = true ↔ cond cc) : BranchesWhen i cond :=
  branchesWhen_of_exec (fun disp s => by rw [hexec, sext16, BitVec.signExtend_eq]) hcond

/-- A short branch on the condition `k` branches when the table's condition holds. -/
theorem branchesWhen_of_branchIf {i : Byte → Instr} (k : Cond)
    (hexec : ∀ disp s, exec (i disp) s = .next (branchIf k (sext16 disp) s)) : BranchesWhen i k.Reads :=
  branchesWhen_of_exec hexec (condHolds_iff_reads k)

/-- A long branch on the condition `k` branches when the table's condition holds. -/
theorem branchesWhen_of_branchIf_long {i : Word → Instr} (k : Cond)
    (hexec : ∀ disp s, exec (i disp) s = .next (branchIf k disp s)) : BranchesWhen i k.Reads :=
  branchesWhen_of_exec_long hexec (condHolds_iff_reads k)

/-! ### The rows of the table -/

/-- A row of R281: the short and the long encoding decode to the two branches, and both branch when `cond` holds. -/
def ConditionRow (op : Byte) (short : Byte → Instr) (long : Word → Instr) (longOp : List Byte) (cond : CC → Prop) : Prop :=
  (∀ mm rest, decode (op :: mm :: rest) = .ok (short mm)) ∧
  (∀ mm nn rest, decode (longOp ++ mm :: nn :: rest) = .ok (long (wordOf mm nn))) ∧
  BranchesWhen short cond ∧ BranchesWhen long cond

/-- A row whose long branch stands on page 2 under the opcode of the short one: all but the first. -/
theorem conditionRow_of_pages {op : Byte} {short : Byte → Instr} {long : Word → Instr} {cond : CC → Prop}
    (hpage1 : page1 op = .rel8 short) (hpage2 : page2 op = .rel16 long)
    (hshort : BranchesWhen short cond) (hlong : BranchesWhen long cond) :
    ConditionRow op short long [0x10#8, op] cond :=
  ⟨fun mm rest => decode_of_page1 hpage1 Row.noConfusion (mm :: rest),
    fun mm nn rest => decode_of_page2 hpage2 (mm :: nn :: rest), hshort, hlong⟩

/-- A row of the table from number 2 on. -/
theorem conditionRow_of_branchIf {op : Byte} {short : Byte → Instr} {long : Word → Instr} (k : Cond)
    (hpage1 : page1 op = .rel8 short) (hpage2 : page2 op = .rel16 long)
    (hshort : ∀ disp s, exec (short disp) s = .next (branchIf k (sext16 disp) s))
    (hlong : ∀ disp s, exec (long disp) s = .next (branchIf k disp s)) :
    ConditionRow op short long [0x10#8, op] k.Reads :=
  conditionRow_of_pages hpage1 hpage2 (branchesWhen_of_branchIf k hshort) (branchesWhen_of_branchIf_long k hlong)

/-- Number 0, always: LBRA has an opcode of its own on page 1. -/
theorem conditionRow_always : ConditionRow 0x20#8 .bra .lbra [0x16#8] fun _ => True :=
  ⟨fun mm rest => decode_of_page1 (row := .rel8 .bra) rfl Row.noConfusion (mm :: rest),
    fun mm nn rest => decode_of_page1 (row := .rel16 .lbra) rfl Row.noConfusion (mm :: nn :: rest),
    branchesWhen_of_exec (taken := fun _ => true) (fun _ _ => rfl) (by simp),
    branchesWhen_of_exec_long (taken := fun _ => true) (fun _ _ => rfl) (by simp)⟩

/-- Number 1, never. -/
theorem conditionRow_never : ConditionRow 0x21#8 .brn .lbrn [0x10#8, 0x21#8] fun _ => ¬ True :=
  conditionRow_of_pages rfl rfl
    (branchesWhen_of_exec (taken := fun _ => false) (fun _ _ => rfl) (by simp))
    (branchesWhen_of_exec_long (taken := fun _ => false) (fun _ _ => rfl) (by simp))

/-! ### The obligation of the family -/

/-- Settles O31, row by row of R281, then the second names BHS, LBHS, BLO and LBLO of numbers 4 and 5, whose
words decode to the first names (log 13). -/
theorem conditionNumbers : Obligations.ConditionNumbers := by
  unfold Obligations.ConditionNumbers
  exact ⟨conditionRow_always, conditionRow_never,
    conditionRow_of_branchIf .hi rfl rfl (fun _ _ => rfl) (fun _ _ => rfl),
    conditionRow_of_branchIf .ls rfl rfl (fun _ _ => rfl) (fun _ _ => rfl),
    conditionRow_of_branchIf .cc rfl rfl (fun _ _ => rfl) (fun _ _ => rfl),
    conditionRow_of_branchIf .cs rfl rfl (fun _ _ => rfl) (fun _ _ => rfl),
    conditionRow_of_branchIf .ne rfl rfl (fun _ _ => rfl) (fun _ _ => rfl),
    conditionRow_of_branchIf .eq rfl rfl (fun _ _ => rfl) (fun _ _ => rfl),
    conditionRow_of_branchIf .vc rfl rfl (fun _ _ => rfl) (fun _ _ => rfl),
    conditionRow_of_branchIf .vs rfl rfl (fun _ _ => rfl) (fun _ _ => rfl),
    conditionRow_of_branchIf .pl rfl rfl (fun _ _ => rfl) (fun _ _ => rfl),
    conditionRow_of_branchIf .mi rfl rfl (fun _ _ => rfl) (fun _ _ => rfl),
    conditionRow_of_branchIf .ge rfl rfl (fun _ _ => rfl) (fun _ _ => rfl),
    conditionRow_of_branchIf .lt rfl rfl (fun _ _ => rfl) (fun _ _ => rfl),
    conditionRow_of_branchIf .gt rfl rfl (fun _ _ => rfl) (fun _ _ => rfl),
    conditionRow_of_branchIf .le rfl rfl (fun _ _ => rfl) (fun _ _ => rfl),
    branchesWhen_of_branchIf .cc fun _ _ => rfl, branchesWhen_of_branchIf .cs fun _ _ => rfl,
    branchesWhen_of_branchIf_long .cc fun _ _ => rfl, branchesWhen_of_branchIf_long .cs fun _ _ => rfl⟩

end Machine
end Sys2Proof

/-! `PushAll`, the push of the entire frame (spec/48_interrupt_and_status.md R351). -/

namespace Sys2Proof.Machine

/-! ### A list of bytes as single pushes -/

/-- Pushing a list is pushing its bytes one at a time, the last one first. -/
theorem State.pushBytes_eq_foldl (s : State) (p : Stk) (l : List Byte) :
    s.pushBytes p l = l.reverse.foldl (fun t v => t.push8 p v) s := by
  induction l with
  | nil => rfl
  | cons v rest ih => simp only [State.pushBytes_cons, ih, List.reverse_cons, List.foldl_append, List.foldl_cons, List.foldl_nil]

/-- A push on S stores at the lowered pointer (R14). -/
theorem State.push8_s_eq_write8 (s : State) (v : Byte) :
    s.push8 .s v = State.write8 { s with s := s.s - 1#16 } (s.s - 1#16) v := rfl

/-! ### The entire frame -/

/-- `PushAll` is twelve single pushes, from the low byte of PC to CC. -/
theorem State.pushAll_eq_foldl (s : State) : s.pushAll =
    [loByte s.pc, hiByte s.pc, loByte s.u, hiByte s.u, loByte s.y, hiByte s.y, loByte s.x, hiByte s.x,
      s.dp, s.b, s.a, s.cc.toByte].foldl (fun t v => t.push8 .s v) s := by
  rw [State.pushAll_eq, State.pushBytes_eq_foldl]
  rfl

/-- `PushAll` is the push of the register list 0xFF on S. -/
theorem State.pushAll_eq_pushList (s : State) : s.pushAll = pushList .s 0xFF#8 s := by
  rw [State.pushAll_eq, frameBytes_entire, pushList_eq]

/-- `PushAll` lowers S by the length of the entire frame. -/
theorem State.pushAll_s (s : State) : s.pushAll.s = s.s - 12#16 := by
  have h := s.pushBytes_sp .s (frameBytes true s)
  rw [frameBytes_length] at h
  rw [State.pushAll_eq]
  exact h

/-- Where the stack is RAM, the entire frame lies from the new S up. -/
theorem State.holds_pushAll {s : State} (hw : Memory.wf s.mem = true) (hr : ramBelow s.memMap s.s 12 = true) :
    s.pushAll.holds s.pushAll.s (frameBytes true s) := by
  have hlen : (frameBytes true s).length = 12 := frameBytes_length true s
  rw [State.pushAll_eq]
  exact State.holds_pushBytes hw .s (frameBytes true s) (by omega) (hlen.symm ▸ hr)

/-- Settles O42: `PushAll` pushes the bytes of the entire frame, the last one first, so that the first one, CC, lies
where S ends. -/
theorem pushAllIsPshsOfEverything : Obligations.PushAllIsPshsOfEverything := by
  intro s
  refine ⟨State.push8_s_eq_write8, s.pushAll_eq_foldl, s.pushAll_eq_pushList, s.pushAll_s, fun hw hr => ?_⟩
  have hframe := State.holds_pushAll hw hr
  have ⟨_, hcc, _⟩ := hframe
  exact ⟨s.pushAll_s ▸ hframe, hcc⟩

end Sys2Proof.Machine

/-! The two stack frames, byte by byte (spec/60_exceptions.md R396). -/

namespace Sys2Proof.Machine

/-! ### The bytes of a frame in memory -/

/-- The byte at each place of a list that memory holds. -/
theorem State.cell_of_holds {t : State} {addr : Word} {l : List Byte} (h : t.holds addr l) {i : Nat}
    (hi : i < l.length) : t.cell (addr + BitVec.ofNat 16 i) = l[i] := by
  induction l generalizing addr i with
  | nil => cases hi
  | cons v rest ih =>
    obtain ⟨-, hv, hrest⟩ := h
    cases i with
    | zero => simpa using hv
    | succ i =>
      have hcell := ih hrest (Nat.lt_of_succ_lt_succ hi)
      rwa [show addr + 1#16 + BitVec.ofNat 16 i = addr + BitVec.ofNat 16 (i + 1) by bv_omega] at hcell

/-- What memory holds does not depend on whether the machine runs or waits. -/
theorem State.holds_setRun (t : State) (run : Run) (addr : Word) (l : List Byte) :
    State.holds { t with run := run } addr l ↔ t.holds addr l :=
  State.holds_congr (s := t) (t := { t with run := run }) rfl rfl addr l

/-- The entire frame: CC, A, B, DP, X, Y, U, PC from its address up. -/
theorem State.cells_of_holds_entire {t v : State} {addr : Word} (h : t.holds addr (frameBytes true v)) :
    t.cell addr = v.cc.toByte ∧ t.cell (addr + 1#16) = v.a ∧ t.cell (addr + 2#16) = v.b ∧ t.cell (addr + 3#16) = v.dp ∧
      t.cell (addr + 4#16) = hiByte v.x ∧ t.cell (addr + 5#16) = loByte v.x ∧
      t.cell (addr + 6#16) = hiByte v.y ∧ t.cell (addr + 7#16) = loByte v.y ∧
      t.cell (addr + 8#16) = hiByte v.u ∧ t.cell (addr + 9#16) = loByte v.u ∧
      t.cell (addr + 10#16) = hiByte v.pc ∧ t.cell (addr + 11#16) = loByte v.pc := by
  have byte := fun (i : Nat) (hi : i < 12) => State.cell_of_holds h (i := i) hi
  exact ⟨h.2.1, byte 1 (by decide), byte 2 (by decide), byte 3 (by decide), byte 4 (by decide), byte 5 (by decide),
    byte 6 (by decide), byte 7 (by decide), byte 8 (by decide), byte 9 (by decide), byte 10 (by decide),
    byte 11 (by decide)⟩

/-- The short frame: CC, then PC. -/
theorem State.cells_of_holds_short {t v : State} {addr : Word} (h : t.holds addr (frameBytes false v)) :
    t.cell addr = v.cc.toByte ∧ t.cell (addr + 1#16) = hiByte v.pc ∧ t.cell (addr + 2#16) = loByte v.pc := by
  have byte := fun (i : Nat) (hi : i < 3) => State.cell_of_holds h (i := i) hi
  exact ⟨h.2.1, byte 1 (by decide), byte 2 (by decide)⟩

/-! ### What stacking a frame and taking an event leave in S, CC and memory -/

/-- A frame lowers S by its length. -/
theorem State.stackFrame_s (s : State) (entire : Bool) :
    (s.stackFrame entire).s = s.s - BitVec.ofNat 16 (if entire then 12 else 3) := by
  rw [s.stackFrame_same entire]

/-- A frame leaves in CC the E that it stacks. -/
theorem State.stackFrame_cc (s : State) (entire : Bool) :
    (s.stackFrame entire).cc = { s.cc with e := entire } := by
  rw [s.stackFrame_same entire]

/-- An event writes no flag but the masks after its frame. -/
theorem eventMasks_keeps (ev : Event) (cc : CC) :
    { eventMasks ev cc with i := cc.i, f := cc.f } = cc := by
  cases ev <;> rfl

/-- FIRQ alone stacks the short frame (R381). -/
theorem eventEntire_of_ne_firq {ev : Event} (h : ev ≠ .firq) : eventEntire ev = true := by
  cases ev with
  | firq => exact absurd rfl h
  | _ => rfl

/-- S after an event is S after its frame. -/
theorem State.takeEvent_s (s : State) (ev : Event) :
    (s.takeEvent ev).s = s.s - BitVec.ofNat 16 (if eventEntire ev then 12 else 3) := by
  rw [State.takeEvent, State.enterHandler_same, State.stackFrame_s]

/-- CC after an event has the E of its frame and the masks set. -/
theorem State.takeEvent_cc (s : State) (ev : Event) :
    (s.takeEvent ev).cc = eventMasks ev { s.cc with e := eventEntire ev } := by
  rw [State.takeEvent, State.enterHandler_same, State.stackFrame_cc]

/-- Where the stack is RAM, the frame of an event lies from the new S up: the part after stacking writes no memory. -/
theorem State.holds_takeEvent {s : State} (hw : Memory.wf s.mem = true) (ev : Event)
    (hr : ramBelow s.memMap s.s (if eventEntire ev then 12 else 3) = true) :
    (s.takeEvent ev).holds (s.takeEvent ev).s
      (frameBytes (eventEntire ev) { s with cc := { s.cc with e := eventEntire ev } }) := by
  have hsame := (s.stackFrame (eventEntire ev)).enterHandler_same ev
  rw [State.takeEvent_s]
  exact (State.holds_congr (s := s.stackFrame (eventEntire ev)) hsame.mem_eq hsame.memMap_eq _ _).2
    (State.holds_stackFrame hw (eventEntire ev) hr)

/-- CWAI with all mask bits set stacks the entire frame and waits (48_interrupt_and_status.md R356). -/
theorem exec_cwai_allBits (s : State) :
    exec (.cwai 0xFF#8) s = .next { s.stackFrame true with run := .cwaiWait } := by
  have hcc : CC.ofByte (s.cc.toByte &&& 0xFF#8) = s.cc := by
    rw [show s.cc.toByte &&& 0xFF#8 = s.cc.toByte from BitVec.and_allOnes, CC.ofByte_toByte]
  change execCwai 0xFF#8 s = _
  rw [execCwai, hcc]

/-- Settles O45: an event and CWAI each leave S at the frame they stacked, and the bytes of the frame lie there. -/
theorem stackFrames : Obligations.StackFrames := by
  intro s hw entire
  have entire_of_holds : ∀ t : State, t.s = s.s - 12#16 →
      { t.cc with i := s.cc.i, f := s.cc.f } = { s.cc with e := true } →
      t.holds t.s (frameBytes true { s with cc := { s.cc with e := true } }) → entire t := by
    intro t hs hcc hframe
    obtain ⟨hccByte, hrest⟩ := State.cells_of_holds_entire hframe
    exact ⟨hs, hcc ▸ hccByte, congrArg CC.e hcc, hrest⟩
  refine ⟨fun hr => ⟨fun ev hev => ?event, ?cwai, s.pushAll_eq_pushList⟩, fun hr => ?firq⟩
  case event =>
    have hentire := eventEntire_of_ne_firq hev
    have hs := s.takeEvent_s ev
    have hcc := s.takeEvent_cc ev
    have hframe := State.holds_takeEvent hw ev (by rwa [hentire])
    rw [hentire] at hs hcc hframe
    exact entire_of_holds _ hs (hcc ▸ eventMasks_keeps ev { s.cc with e := true }) hframe
  case cwai =>
    have hs : (s.stackFrame true).s = s.s - 12#16 := s.stackFrame_s true
    have hcc := s.stackFrame_cc true
    have hframe := State.holds_stackFrame hw true hr
    refine ⟨_, exec_cwai_allBits s, entire_of_holds _ ?_ ?_ ?_⟩
    · simp only [hs]
    · simp only [hcc]
    · rw [State.holds_setRun, hs]
      exact hframe
  case firq =>
    have hs : (s.takeEvent .firq).s = s.s - 3#16 := s.takeEvent_s .firq
    have hframe := State.holds_takeEvent hw .firq hr
    obtain ⟨hcc, hhi, hlo⟩ := State.cells_of_holds_short hframe
    rw [hs] at hcc hhi hlo
    rw [show s.s - 3#16 + 1#16 = s.s - 2#16 by bv_omega] at hhi
    rw [show s.s - 3#16 + 2#16 = s.s - 1#16 by bv_omega] at hlo
    exact ⟨hs, hcc, hhi, hlo⟩

end Sys2Proof.Machine

/-! The encoding of instructions read back (spec/30_encoding.md R82, R88, R90, R94, R97 to R102). -/

namespace Sys2Proof

/-! ### Opcode bytes and the rows they select (R88) -/

/-- After the page byte 0x11 the second byte selects a row of page 3. -/
theorem decode_of_page3 {op : Byte} {row : Row} (h : page3 op = row) (rest : List Byte) :
    decode (0x11#8 :: op :: rest) = decodeRow row rest := by
  simp [decode, byteAt, h]

/-- The page bytes `page` and the opcode byte `op` select `row`, whatever follows them. -/
def SelectsRow (page : List Byte) (op : Byte) (row : Row) : Prop :=
  ∀ rest, decode (page ++ op :: rest) = decodeRow row rest

theorem SelectsRow.page1 {op : Byte} {row : Row} (h : page1 op = row) (hrow : row ≠ .undef := by nofun) :
    SelectsRow [] op row :=
  decode_of_page1 h hrow

theorem SelectsRow.page2 {op : Byte} {row : Row} (h : page2 op = row) : SelectsRow [0x10#8] op row :=
  decode_of_page2 h

theorem SelectsRow.page3 {op : Byte} {row : Row} (h : page3 op = row) : SelectsRow [0x11#8] op row :=
  decode_of_page3 h

/-! ### Post bytes (R114, R94) -/

/-- The fields of a post byte with bit 7 set are those it was made from. -/
theorem postByte_fields (rr : BitVec 2) (ind : Bool) (m : BitVec 4) :
    (postByte rr ind m).getLsbD 7 = true ∧ (postByte rr ind m).getLsbD 4 = ind ∧
    (postByte rr ind m).extractLsb' 5 2 = rr ∧ (postByte rr ind m).extractLsb' 0 4 = m := by
  revert rr ind m; decide

/-- The fields of a post byte with a 5-bit offset. -/
theorem postByte_off5_fields (rr : BitVec 2) (n : BitVec 5) :
    (0#1 ++ rr ++ n : Byte).getLsbD 7 = false ∧ (0#1 ++ rr ++ n : Byte).extractLsb' 5 2 = rr ∧
    (0#1 ++ rr ++ n : Byte).extractLsb' 0 5 = n := by
  revert rr n; decide

/-- Field `RR` names the base register whose code it holds. -/
theorem ptrOf_ptrBits (r : Ptr) : ptrOf (ptrBits r) = r := by cases r <;> rfl

/-- The post byte of a form, with what follows it, selects the form. -/
theorem decodeIdx_encIdx (form : Idx) (rest : List Byte) :
    decodeIdx (byteAt (encIdx form ++ rest) 0) ((encIdx form ++ rest).drop 1) = some form := by
  cases form with
  | off5 r n =>
    obtain ⟨h7, hr, hn⟩ := postByte_off5_fields (ptrBits r) n
    simp [encIdx, decodeIdx, byteAt, h7, hr, hn, ptrOf_ptrBits, -BitVec.getLsbD_eq_getElem]
  | _ => simp [encIdx, decodeIdx, byteAt, wordAt, postByte_fields, ptrOf_ptrBits, -BitVec.getLsbD_eq_getElem]

/-- The nibbles of the post byte of EXG and TFR. -/
theorem regPair_fields (k j : BitVec 4) :
    (k ++ j : Byte).extractLsb' 4 4 = k ∧ (k ++ j : Byte).extractLsb' 0 4 = j := by
  revert k j; decide

/-- A register code names the register it was made from. -/
theorem regOfCode_regCode (r : Reg) : regOfCode (regCode r) = some r := by
  cases r with
  | wide r => cases r <;> rfl
  | narrow r => cases r <;> rfl

/-! ### Each format read back (R82) -/

section
variable {page : List Byte}

theorem decode_inh {op : Byte} {i : Instr} (h : SelectsRow page op (.inh i)) (rest : List Byte) :
    decode (page ++ [op] ++ rest) = .ok i := by
  rw [List.append_assoc]; exact h rest

theorem decode_byteOperand {op : Byte} {row : Row} {f : Byte → Instr}
    (hrow : row = .imm8 f ∨ row = .rel8 f ∨ row = .reglist f) (h : SelectsRow page op row) (v : Byte)
    (rest : List Byte) : decode (page ++ [op, v] ++ rest) = .ok (f v) := by
  rw [List.append_assoc]
  exact (h (v :: rest)).trans (by rcases hrow with rfl | rfl | rfl <;> rfl)

theorem decode_wordOperand {op : Byte} {row : Row} {f : Word → Instr} (hrow : row = .imm16 f ∨ row = .rel16 f)
    (h : SelectsRow page op row) (v : Word) (rest : List Byte) :
    decode (page ++ [op, hiByte v, loByte v] ++ rest) = .ok (f v) := by
  rw [List.append_assoc]
  exact (h (hiByte v :: loByte v :: rest)).trans
    (by rcases hrow with rfl | rfl <;> simp [decodeRow, wordAt, byteAt])

theorem decode_idxOnly {op : Byte} {f : Idx → Instr} (h : SelectsRow page op (.idxOnly f)) (form : Idx)
    (rest : List Byte) : decode (page ++ op :: encIdx form ++ rest) = .ok (f form) := by
  rw [List.append_assoc]
  exact (h (encIdx form ++ rest)).trans (by simp only [decodeRow, decodeIdx_encIdx])

theorem decode_regpair {op : Byte} {f : Reg → Reg → Instr} (h : SelectsRow page op (.regpair f)) {r1 r2 : Reg}
    (hw : sameWidth r1 r2 = true) (rest : List Byte) :
    decode (page ++ [op, regCode r1 ++ regCode r2] ++ rest) = .ok (f r1 r2) := by
  rw [List.append_assoc]
  exact (h _).trans (by simp [decodeRow, byteAt, regPair_fields, regOfCode_regCode, hw])

theorem decode_encMem {dir idx ext : Byte} {f : MemOp → Instr} (hd : SelectsRow page dir (.dir f))
    (hi : SelectsRow page idx (.idx f)) (he : SelectsRow page ext (.ext f)) (m : MemOp) (rest : List Byte) :
    decode (page ++ encMem dir idx ext m ++ rest) = .ok (f m) := by
  rw [List.append_assoc]
  cases m with
  | dir adr8 => exact hd (adr8 :: rest)
  | ext adr16 => exact (he _).trans (by simp [decodeRow, wordAt, byteAt])
  | idx form => exact (hi (encIdx form ++ rest)).trans (by simp only [decodeRow, decodeIdx_encIdx])

theorem decode_encSrc8 {imm dir idx ext : Byte} {f : Src8 → Instr} (hm : SelectsRow page imm (imm8 f))
    (hd : SelectsRow page dir (dir8 f)) (hi : SelectsRow page idx (idx8 f)) (he : SelectsRow page ext (ext8 f))
    (src : Src8) (rest : List Byte) : decode (page ++ encSrc8 imm dir idx ext src ++ rest) = .ok (f src) := by
  cases src with
  | imm data => exact decode_byteOperand (.inl rfl) hm data rest
  | mem m => exact decode_encMem hd hi he m rest

theorem decode_encSrc16 {imm dir idx ext : Byte} {f : Src16 → Instr} (hm : SelectsRow page imm (imm16 f))
    (hd : SelectsRow page dir (dir16 f)) (hi : SelectsRow page idx (idx16 f)) (he : SelectsRow page ext (ext16 f))
    (src : Src16) (rest : List Byte) : decode (page ++ encSrc16 imm dir idx ext src ++ rest) = .ok (f src) := by
  cases src with
  | imm data => exact decode_wordOperand (.inl rfl) hm data rest
  | mem m => exact decode_encMem hd hi he m rest

end

/-- Settles O1, format by format: each opcode selects the row of the first name of its words, and each format's operand
bytes give the operand back. -/
theorem decodeEncode : Obligations.DecodeEncode := by
  intro i rest hw
  cases i with
  | lda src | ldb src | adca src | adcb src | adda src | addb src | suba src | subb src | sbca src | sbcb src
  | cmpa src | cmpb src | anda src | andb src | bita src | bitb src | eora src | eorb src | ora src | orb src =>
    exact decode_encSrc8 (.page1 rfl) (.page1 rfl) (.page1 rfl) (.page1 rfl) src rest
  | ldd src | ldx src | ldu src | addd src | subd src | cmpx src =>
    exact decode_encSrc16 (.page1 rfl) (.page1 rfl) (.page1 rfl) (.page1 rfl) src rest
  | ldy src | lds src | cmpd src | cmpy src =>
    exact decode_encSrc16 (.page2 rfl) (.page2 rfl) (.page2 rfl) (.page2 rfl) src rest
  | cmps src | cmpu src =>
    exact decode_encSrc16 (.page3 rfl) (.page3 rfl) (.page3 rfl) (.page3 rfl) src rest
  | sta dst | stb dst | std dst | stx dst | stu dst | jmp dst | jsr dst | asl dst | lsl dst | asr dst | lsr dst
  | rol dst | ror dst | neg dst | com dst | clr dst | dec dst | inc dst | tst dst =>
    exact decode_encMem (.page1 rfl) (.page1 rfl) (.page1 rfl) dst rest
  | sty dst | sts dst => exact decode_encMem (.page2 rfl) (.page2 rfl) (.page2 rfl) dst rest
  | asla | aslb | lsla | lslb | asra | asrb | lsra | lsrb | rola | rolb | rora | rorb | nega | negb | coma | comb
  | clra | clrb | deca | decb | inca | incb | tsta | tstb | daa | rts | abx | mul | sex | swi | rti | sync | nop =>
    exact decode_inh (.page1 rfl) rest
  | swi2 => exact decode_inh (.page2 rfl) rest
  | swi3 => exact decode_inh (.page3 rfl) rest
  | bra disp | bsr disp | bcc disp | bcs disp | beq disp | bge disp | bgt disp | bhi disp | bhs disp | ble disp
  | blo disp | bls disp | blt disp | bmi disp | bne disp | bpl disp | bvc disp | bvs disp | brn disp =>
    exact decode_byteOperand (.inr (.inl rfl)) (.page1 rfl) disp rest
  | lbra disp | lbsr disp => exact decode_wordOperand (.inr rfl) (.page1 rfl) disp rest
  | lbcc disp | lbcs disp | lbeq disp | lbge disp | lbgt disp | lbhi disp | lbhs disp | lble disp | lblo disp
  | lbls disp | lblt disp | lbmi disp | lbne disp | lbpl disp | lbvc disp | lbvs disp | lbrn disp =>
    exact decode_wordOperand (.inr rfl) (.page2 rfl) disp rest
  | exg r1 r2 | tfr r1 r2 => exact decode_regpair (.page1 rfl) hw rest
  | leax form | leay form | leas form | leau form => exact decode_idxOnly (.page1 rfl) form rest
  | pshs list | pshu list | puls list | pulu list => exact decode_byteOperand (.inr (.inr rfl)) (.page1 rfl) list rest
  | cwai data | andcc data | orcc data => exact decode_byteOperand (.inl rfl) (.page1 rfl) data rest

end Sys2Proof

/-! What the decoder answers, and what it refuses (R80, R97 to R99, R322). -/

namespace Sys2Proof

/-! ### A property of every instruction that the opcode map makes -/

/-- Every instruction that a row makes of its operand bytes has `P`. -/
def Row.All (P : Instr → Prop) : Row → Prop
  | .undef => True
  | .inh i => P i
  | .imm8 f => ∀ v, P (f v)
  | .imm16 f => ∀ v, P (f v)
  | .dir f => ∀ m, P (f m)
  | .ext f => ∀ m, P (f m)
  | .idx f => ∀ m, P (f m)
  | .idxOnly f => ∀ form, P (f form)
  | .rel8 f => ∀ v, P (f v)
  | .rel16 f => ∀ v, P (f v)
  | .regpair f => ∀ r1 r2, sameWidth r1 r2 = true → P (f r1 r2)
  | .reglist f => ∀ v, P (f v)

/-- What a row answers is one of the instructions it makes. -/
theorem Row.All.of_decodeRow {P : Instr → Prop} {row : Row} (hrow : row.All P) {rest : List Byte} {i : Instr}
    (h : decodeRow row rest = .ok i) : P i := by
  cases row with
  | undef => cases h
  | inh j => cases h; exact hrow
  | imm8 f | imm16 f | dir f | ext f | rel8 f | rel16 f | reglist f => cases h; exact hrow _
  | idx f | idxOnly f =>
    simp only [decodeRow] at h
    split at h <;> cases h
    exact hrow _
  | regpair f =>
    simp only [decodeRow] at h
    split at h
    · split at h <;> cases h
      exact hrow _ _ ‹_›
    · cases h

/-- Well formed, and the first name of its words. -/
def FirstNamed (i : Instr) : Prop := wellFormed i = true ∧ canonical i = i

/-- The rows of the three pages make well-formed instructions under their first names. -/
theorem pages_firstNamed :
    (∀ line ∈ page1Grid, ∀ row ∈ line, row.All FirstNamed) ∧
    (∀ entry ∈ page2Table, entry.2.All FirstNamed) ∧ (∀ entry ∈ page3Table, entry.2.All FirstNamed) := by
  refine ⟨?_, ?_, ?_⟩ <;>
    simp [page1Grid, page1Row0, page1Row1, page1Row2, page1Row3, page1Row4, page1Row5, page1Row6, page1Row7, page1Row8,
      page1Row9, page1RowA, page1RowB, page1RowC, page1RowD, page1RowE, page1RowF, page2Table, page3Table, imm8, dir8, idx8,
      ext8, imm16, dir16, idx16, ext16, idxOnly, Row.All, FirstNamed, wellFormed, canonical]

/-- An entry of a list, or the default. -/
theorem getD_mem_or_eq {α : Type} (l : List α) (k : Nat) (d : α) : l.getD k d ∈ l ∨ l.getD k d = d := by
  rcases Nat.lt_or_ge k l.length with h | h
  · exact .inl (by rw [List.getD_eq_getElem _ _ h]; exact List.getElem_mem h)
  · exact .inr (List.getD_eq_default _ _ h)

theorem page1_all {P : Instr → Prop} (h : ∀ line ∈ page1Grid, ∀ row ∈ line, row.All P) (op : Byte) :
    (page1 op).All P := by
  rcases getD_mem_or_eq (page1Grid.getD (op.toNat / 16) []) (op.toNat % 16) .undef with hrow | hrow
  · rcases getD_mem_or_eq page1Grid (op.toNat / 16) [] with hline | hline
    · exact h _ hline _ hrow
    · rw [hline] at hrow; cases hrow
  · rw [page1, hrow]; trivial

theorem lookupRow_all {P : Instr → Prop} {table : List (Nat × Row)} (h : ∀ entry ∈ table, entry.2.All P) (op : Nat) :
    (lookupRow table op).All P := by
  induction table with
  | nil => trivial
  | cons entry rest ih =>
    rw [List.forall_mem_cons] at h
    simp only [lookupRow]
    split
    · exact h.1
    · exact ih h.2

/-- What the decoder answers is well formed and bears its first name. -/
theorem firstNamed_of_decode {bytes : List Byte} {i : Instr} (h : decode bytes = .ok i) : FirstNamed i := by
  obtain ⟨h1, h2, h3⟩ := pages_firstNamed
  unfold decode at h
  split at h
  · exact (lookupRow_all h2 _).of_decodeRow h
  · split at h
    · exact (lookupRow_all h3 _).of_decodeRow h
    · exact (page1_all h1 _).of_decodeRow h

/-! ### The length of an instruction (R80) -/

open Laws.EncodeBounds in
/-- Every instruction has one to five bytes. -/
theorem instrLength_bounds (i : Instr) : 1 ≤ instrLength i ∧ instrLength i ≤ 5 := by
  cases i with
  | lda src | ldb src | adca src | adcb src | adda src | addb src | suba src | subb src | sbca src | sbcb src
  | cmpa src | cmpb src | anda src | andb src | bita src | bitb src | eora src | eorb src | ora src | orb src =>
    exact short (encSrc8_length _ _ _ _ src)
  | ldd src | ldx src | ldu src | addd src | subd src | cmpx src => exact short (encSrc16_length _ _ _ _ src)
  | ldy src | lds src | cmpd src | cmpy src | cmps src | cmpu src => exact paged _ (encSrc16_length _ _ _ _ src)
  | sta dst | stb dst | std dst | stx dst | stu dst | jmp dst | jsr dst | asl dst | lsl dst | asr dst | lsr dst
  | rol dst | ror dst | neg dst | com dst | clr dst | dec dst | inc dst | tst dst =>
    exact short (encMem_length _ _ _ dst)
  | sty dst | sts dst => exact paged _ (encMem_length _ _ _ dst)
  | leax form | leay form | leas form | leau form => exact indexed _ form
  | _ => exact ⟨Nat.le_of_ble_eq_true rfl, Nat.le_of_ble_eq_true rfl⟩

/-- Settles O2: the rows of the opcode map make nothing else, and no encoding is longer. -/
theorem decodedIsWellFormed : Obligations.DecodedIsWellFormed := by
  intro bytes i h
  obtain ⟨hw, hc⟩ := firstNamed_of_decode h
  exact ⟨hw, hc, instrLength_bounds i⟩

/-! ### Undefined opcodes (R97, R98) -/

/-- Whether a cell of the opcode map is empty. -/
def Row.isUndef : Row → Bool
  | .undef => true
  | _ => false

/-- Only an empty cell is refused as an undefined opcode. -/
theorem decodeRow_undefinedOpcode_iff (row : Row) (rest : List Byte) :
    decodeRow row rest = .error .undefinedOpcode ↔ row.isUndef = true := by
  cases row with
  | idx f | idxOnly f => simp only [decodeRow, Row.isUndef]; split <;> simp
  | regpair f =>
    simp only [decodeRow, Row.isUndef]
    split
    · split <;> simp
    · simp
  | _ => simp [decodeRow, Row.isUndef]

theorem decode_page1_undefined_iff {op : Byte} (h10 : op ≠ 0x10#8) (h11 : op ≠ 0x11#8) (rest : List Byte) :
    decode (op :: rest) = .error .undefinedOpcode ↔ (page1 op).isUndef = true := by
  rw [← decodeRow_undefinedOpcode_iff (page1 op) rest]
  simp [decode, byteAt, h10, h11]

/-- Where every listed row is defined, the empty cells of a page are the bytes that its table does not list. -/
theorem lookupRow_isUndef_iff {table : List (Nat × Row)} (h : ∀ entry ∈ table, entry.2.isUndef = false) (op : Nat) :
    (lookupRow table op).isUndef = true ↔ op ∉ table.map Prod.fst := by
  induction table with
  | nil => simp [lookupRow, Row.isUndef]
  | cons entry rest ih =>
    rw [List.forall_mem_cons] at h
    simp only [lookupRow, List.map_cons, List.mem_cons, not_or]
    split
    · simp [h.1, *]
    · simp [ih h.2, *]

/-- A byte is listed among bytes just when its number is listed among theirs. -/
theorem toNat_mem_map_iff (op : Byte) (l : List Byte) : op.toNat ∈ l.map BitVec.toNat ↔ op ∈ l :=
  List.mem_map_of_injective fun _ _ => BitVec.eq_of_toNat_eq

/-- Settles O4: a refusal for the opcode is an empty cell of the map, and the cells are listed. -/
theorem undefinedOpcodes : Obligations.UndefinedOpcodes := by
  refine ⟨fun op rest h10 h11 => ?_, fun op rest => ?_, fun op rest => ?_⟩
  · rw [decode_page1_undefined_iff h10 h11]
    revert op; decide
  · rw [decode_of_page2 rfl, decodeRow_undefinedOpcode_iff, page2, lookupRow_isUndef_iff (by decide),
      ← toNat_mem_map_iff]
    rfl
  · rw [decode_of_page3 rfl, decodeRow_undefinedOpcode_iff, page3, lookupRow_isUndef_iff (by decide),
      ← toNat_mem_map_iff]
    rfl

/-! ### Undefined post bytes and register pairs (R99, R322) -/

/-- Whether a post byte selects a form does not depend on what follows it. -/
theorem decodeIdx_isNone (pb : Byte) (rest : List Byte) : (decodeIdx pb rest).isNone = (decodeIdx pb []).isNone := by
  simp only [decodeIdx]
  split
  · cases pb.getLsbD 4 <;> split <;> rfl
  · rfl

/-- Settles O5: what follows a post byte does not matter, and the 256 post bytes are gone through. -/
theorem undefinedPostBytes : Obligations.UndefinedPostBytes := by
  intro pb rest
  rw [← Option.isNone_iff_eq_none, decodeIdx_isNone]
  revert pb; decide

/-- Whether the two nibbles of a post byte name registers of one width. -/
def namesPair (pb : Byte) : Bool :=
  match regOfCode (pb.extractLsb' 4 4), regOfCode (pb.extractLsb' 0 4) with
  | some r1, some r2 => sameWidth r1 r2
  | _, _ => false

/-- EXG and TFR are refused just on the post bytes that name no pair. -/
theorem decodeRow_regpair_undefined_iff (f : Reg → Reg → Instr) (pb : Byte) (rest : List Byte) :
    decodeRow (.regpair f) (pb :: rest) = .error .undefinedRegpair ↔ namesPair pb = false := by
  simp only [decodeRow, namesPair, byteAt, List.getD_cons_zero]
  split
  · split <;> simp_all
  · simp

/-- The post bytes that name a pair are those of the two squares of R322. -/
theorem namesPair_eq_false_iff (pb : Byte) : namesPair pb = false ↔
    ¬ (pb.toNat / 16 < 6 ∧ pb.toNat % 16 < 6 ∨
      8 ≤ pb.toNat / 16 ∧ pb.toNat / 16 < 12 ∧ 8 ≤ pb.toNat % 16 ∧ pb.toNat % 16 < 12) := by
  revert pb; decide

/-- Settles O35: the decoder refuses the pairs outside the two squares, and the meanings refuse unlike widths. -/
theorem registerPairs : Obligations.RegisterPairs := by
  refine ⟨fun op hop pb rest => ?_, fun p q s => ⟨rfl, rfl, rfl, rfl⟩⟩
  rw [← namesPair_eq_false_iff]
  simp only [List.mem_cons, List.not_mem_nil, or_false] at hop
  rcases hop with rfl | rfl
  · rw [decode_of_page1 (row := .regpair .exg) rfl nofun, decodeRow_regpair_undefined_iff]
  · rw [decode_of_page1 (row := .regpair .tfr) rfl nofun, decodeRow_regpair_undefined_iff]

/-- Settles O3: the decoder evaluated on the eleven words. -/
theorem decodesSpecWords : Obligations.DecodesSpecWords := by
  unfold Obligations.DecodesSpecWords
  decide

end Sys2Proof


/-! What no instruction disturbs: the memory map, the cells that are not RAM, the canonical form of memory, the NMI latch
(spec/20_memory.md R58, R60; 60_exceptions.md R392). -/

namespace Sys2Proof.Machine

/-! ### `KeepsMemory` and `Conserves` -/

/-- The memory map is the old one, a cell that is not RAM holds what it held, and a canonical memory stays canonical. -/
structure KeepsMemory (s t : State) : Prop where
  memMap : t.memMap = s.memMap
  cell : ∀ k : Word, kindAt s.memMap k ≠ .ram → t.cell k = s.cell k
  canonical : Memory.wf s.mem = true → Memory.wf t.mem = true

theorem KeepsMemory.of_mem_eq {s t : State} (hmem : t.mem = s.mem) (hmap : t.memMap = s.memMap) : KeepsMemory s t :=
  ⟨hmap, fun k _ => by rw [State.cell, State.cell, hmem], fun hw => by rwa [hmem]⟩

theorem KeepsMemory.trans {s t u : State} (h : KeepsMemory s t) (k : KeepsMemory t u) : KeepsMemory s u :=
  ⟨k.memMap.trans h.memMap, fun j hj => (k.cell j (by rwa [h.memMap])).trans (h.cell j hj),
    fun hw => k.canonical (h.canonical hw)⟩

/-- A write stores in RAM or nowhere. -/
theorem State.write8_keepsMemory (s : State) (addr : Word) (v : Byte) : KeepsMemory s (s.write8 addr v) := by
  refine ⟨State.write8_memMap s addr v, fun k hk => ?_, fun hw => State.write8_wf hw addr v⟩
  by_cases ha : k = addr
  · subst ha
    unfold State.write8
    split
    · contradiction
    all_goals rfl
  · exact s.cell_write8_other v ha

/-- What every instruction but the loaders of S keeps: memory as in `KeepsMemory`, and both NMI latches. -/
structure Conserves (s t : State) : Prop extends KeepsMemory s t where
  nmiArmed : t.nmiArmed = s.nmiArmed
  nmiRequest : t.nmiRequest = s.nmiRequest

/-- Memory, its map and the NMI latches are all that `Conserves` looks at. -/
theorem Conserves.of_fields {s t : State} (hmem : t.mem = s.mem) (hmap : t.memMap = s.memMap)
    (harmed : t.nmiArmed = s.nmiArmed) (hrequest : t.nmiRequest = s.nmiRequest) : Conserves s t :=
  ⟨.of_mem_eq hmem hmap, harmed, hrequest⟩

theorem Conserves.refl (s : State) : Conserves s s := .of_fields rfl rfl rfl rfl

theorem Conserves.trans {s t u : State} (h : Conserves s t) (k : Conserves t u) : Conserves s u :=
  ⟨h.toKeepsMemory.trans k.toKeepsMemory, k.nmiArmed.trans h.nmiArmed, k.nmiRequest.trans h.nmiRequest⟩

/-- `trans` with the second part first: it says which state stands between. -/
theorem Conserves.of_base {s base t : State} (k : Conserves base t) (h : Conserves s base) : Conserves s t := h.trans k

theorem Conserves.setRun {s t : State} (h : Conserves s t) {run : Run} : Conserves s { t with run := run } :=
  h.trans (.of_fields rfl rfl rfl rfl)

/-- Device traffic is conservative, after a change of registers that is. -/
theorem SameButDevices.conserves {s base t : State} (h : SameButDevices base t) (hbase : Conserves s base) :
    Conserves s t := by
  obtain ⟨-, -, -, -, -, -, -, -, -, hmem, -, harmed, hrequest, -, hmap⟩ := h.fields
  exact hbase.trans (.of_fields hmem hmap harmed hrequest)

theorem State.write8_conserves (s : State) (addr : Word) (v : Byte) : Conserves s (s.write8 addr v) :=
  ⟨s.write8_keepsMemory addr v, State.write8_nmiArmed s addr v, State.write8_nmiRequest s addr v⟩

theorem State.set8_conserves (s : State) (r : Reg8) (v : Byte) : Conserves s (s.set8 r v) :=
  .of_fields (by simp) (by simp) (by simp) (by simp)

theorem State.set16_conserves (s : State) (r : Reg16) (v : Word) : Conserves s (s.set16 r v) :=
  .of_fields (by simp) (by simp) (by simp) (by simp)

/-! ### The shapes of operation -/

theorem memEa_conserves (m : MemOp) (s : State) : Conserves s (memEa m s).2 :=
  (memEa_same m s).conserves (.of_fields (by simp) (by simp) (by simp) (by simp))

theorem load8_conserves (r : Reg8) (src : Src8) (s : State) : Conserves s (load8 r src s) :=
  (load8_spec r src s).1.conserves (.of_fields (by simp) (by simp) (by simp) (by simp))

theorem load16_conserves (r : Reg16) (src : Src16) (s : State) : Conserves s (load16 r src s) :=
  (load16_spec r src s).1.conserves (.of_fields (by simp) (by simp) (by simp) (by simp))

theorem store8_conserves (r : Reg8) (dst : MemOp) (s : State) : Conserves s (store8 r dst s) :=
  (memEa_conserves dst s).trans ((State.write8_conserves _ _ _).trans (.of_fields rfl rfl rfl rfl))

theorem store16_conserves (r : Reg16) (dst : MemOp) (s : State) : Conserves s (store16 r dst s) :=
  (memEa_conserves dst s).trans
    ((State.write8_conserves _ _ _).trans ((State.write8_conserves _ _ _).trans (.of_fields rfl rfl rfl rfl)))

theorem alu8_conserves (f : Byte → Byte → CC → Byte × CC) (r : Reg8) (src : Src8) (s : State) :
    Conserves s (alu8 f r src s) :=
  (alu8_spec f r src s).1.conserves (.of_fields (by simp) (by simp) (by simp) (by simp))

theorem alu8Any_conserves (f : Bool → Byte → Byte → CC → Byte × CC) (r : Reg8) (src : Src8) (s : State) :
    Conserves s (alu8Any f r src s) := by
  obtain ⟨any, h, -⟩ := alu8Any_spec f r src s
  exact h.conserves (.of_fields (by simp) (by simp) (by simp) (by simp))

theorem test8_conserves (f : Byte → Byte → CC → Byte × CC) (r : Reg8) (src : Src8) (s : State) :
    Conserves s (test8 f r src s) :=
  (test8_spec f r src s).1.conserves (.of_fields (by simp) (by simp) (by simp) (by simp))

theorem test8Any_conserves (f : Bool → Byte → Byte → CC → Byte × CC) (r : Reg8) (src : Src8) (s : State) :
    Conserves s (test8Any f r src s) := by
  obtain ⟨any, h, -⟩ := test8Any_spec f r src s
  exact h.conserves (.of_fields (by simp) (by simp) (by simp) (by simp))

theorem alu16_conserves (f : Word → Word → CC → Word × CC) (r : Reg16) (src : Src16) (s : State) :
    Conserves s (alu16 f r src s) :=
  (alu16_spec f r src s).1.conserves (.of_fields (by simp) (by simp) (by simp) (by simp))

theorem test16_conserves (f : Word → Word → CC → Word × CC) (r : Reg16) (src : Src16) (s : State) :
    Conserves s (test16 f r src s) :=
  (test16_spec f r src s).1.conserves (.of_fields (by simp) (by simp) (by simp) (by simp))

/-- A read at the effective address and a write there, registers changed between them. -/
theorem readThenWrite_conserves {dst : MemOp} {s t : State} {addr : Word} {v : Byte}
    (h : Conserves ((memEa dst s).2.read8 (memEa dst s).1).2 t) : Conserves s (t.write8 addr v) :=
  (memEa_conserves dst s).trans
    (((State.read8_same _ _).conserves (.refl _)).trans (h.trans (t.write8_conserves addr v)))

theorem rmw8_conserves (f : Byte → CC → Byte × CC) (dst : MemOp) (s : State) : Conserves s (rmw8 f dst s) :=
  readThenWrite_conserves (dst := dst) (.of_fields rfl rfl rfl rfl)

theorem rmw8Any_conserves (f : Bool → Byte → CC → Byte × CC) (dst : MemOp) (s : State) :
    Conserves s (rmw8Any f dst s) :=
  readThenWrite_conserves (dst := dst) (.of_fields rfl rfl rfl rfl)

theorem acc8_conserves (f : Byte → CC → Byte × CC) (r : Reg8) (s : State) : Conserves s (acc8 f r s) :=
  (s.set8_conserves r _).trans (.of_fields rfl rfl rfl rfl)

theorem acc8Any_conserves (f : Bool → Byte → CC → Byte × CC) (r : Reg8) (s : State) : Conserves s (acc8Any f r s) :=
  (s.set8_conserves r _).trans (.of_fields rfl rfl rfl rfl)

theorem tstMem_conserves (dst : MemOp) (s : State) : Conserves s (tstMem dst s) :=
  (tstMem_spec dst s).1.conserves (.of_fields (by simp) (by simp) (by simp) (by simp))

theorem branchIf_conserves (k : Cond) (disp : Word) (s : State) : Conserves s (branchIf k disp s) := by
  unfold branchIf
  split
  · exact .of_fields rfl rfl rfl rfl
  · exact .refl s

/-! ### The stacks and the events -/

theorem State.pushBytes_conserves (s : State) (p : Stk) (l : List Byte) : Conserves s (s.pushBytes p l) := by
  induction l with
  | nil => exact .refl s
  | cons v rest ih => exact ih.trans ((State.set16_conserves _ _ _).trans (State.write8_conserves _ _ _))

theorem callTo_conserves (target : Word) (s : State) : Conserves s (callTo target s) :=
  (s.pushBytes_conserves .s [hiByte s.pc, loByte s.pc]).trans (.of_fields rfl rfl rfl rfl)

theorem pushList_conserves (p : Stk) (list : Byte) (s : State) : Conserves s (pushList p list s) := by
  rw [pushList_eq]; exact s.pushBytes_conserves p _

theorem pullList_conserves (p : Stk) (list : Byte) (s : State) : Conserves s (pullList p list s) := by
  cases p with
  | s =>
    obtain ⟨w, h⟩ := pullList_s_any s list
    exact h.conserves (.of_fields rfl rfl rfl rfl)
  | u =>
    obtain ⟨w, h⟩ := pullList_u_any s list
    exact h.conserves (.of_fields rfl rfl rfl rfl)

theorem State.pullTo16_conserves (s : State) (p : Stk) (r : Reg16) : Conserves s (s.pullTo16 p r) := by
  obtain ⟨v, h⟩ := s.pullTo16_same p r
  exact h.conserves ((s.set16_conserves _ _).trans (State.set16_conserves _ _ _))

theorem State.returnFromEvent_conserves (s : State) : Conserves s s.returnFromEvent := by
  obtain ⟨w, h⟩ := s.returnFromEvent_any
  refine h.conserves ?_
  split <;> exact .of_fields rfl rfl rfl rfl

theorem State.stackFrame_conserves (s : State) (entire : Bool) : Conserves s (s.stackFrame entire) := by
  rw [State.stackFrame_eq]
  exact .of_base (State.pushBytes_conserves _ _ _) (.of_fields rfl rfl rfl rfl)

/-- A handler is entered without a write, and every event but NMI leaves its request latched. -/
theorem State.enterHandler_conserves (s : State) (ev : Event) :
    Conserves { s with nmiRequest := s.nmiRequest && ev != Event.nmi } (s.enterHandler ev) :=
  (s.enterHandler_same ev).conserves (.of_fields rfl rfl rfl rfl)

theorem State.takeEvent_conserves (s : State) (ev : Event) :
    Conserves { s with nmiRequest := s.nmiRequest && ev != Event.nmi } (s.takeEvent ev) := by
  have hframe := s.stackFrame_conserves (eventEntire ev)
  have henter := (s.stackFrame (eventEntire ev)).enterHandler_conserves ev
  exact ⟨⟨henter.memMap.trans hframe.memMap,
      fun k hk => (henter.cell k (hframe.memMap ▸ hk)).trans (hframe.cell k hk),
      fun hw => henter.canonical (hframe.canonical hw)⟩,
    henter.nmiArmed.trans hframe.nmiArmed, henter.nmiRequest.trans (by simp only [hframe.nmiRequest])⟩

/-- An event other than NMI conserves what an instruction does. -/
theorem State.takeEvent_conserves_of_ne_nmi (s : State) {ev : Event} (hev : ev ≠ .nmi) :
    Conserves s (s.takeEvent ev) :=
  .of_base (s.takeEvent_conserves ev) (.of_fields rfl rfl rfl (by simp [hev]))

/-! ### Every instruction -/

/-- The instructions that load S and so may arm NMI (R392). -/
def LoadsS (i : Instr) : Prop :=
  (∃ src, i = .lds src) ∨ (∃ form, i = .leas form) ∨ (∃ r, i = .tfr r (.wide .s)) ∨
  (∃ r, i = .exg r (.wide .s) ∨ i = .exg (.wide .s) r) ∨ (∃ list, i = .pulu list ∧ list.getLsbD 6 = true)

/-- The instruction completes, conservatively but for the arming of NMI, which only a loader of S does; or it is one that is
not well formed, and is refused. -/
def Answers (i : Instr) (s : State) : Prop :=
  (∃ u arms, exec i s = .next (u.armNmi arms) ∧ Conserves s u ∧ (arms = true → LoadsS i)) ∨
  (wellFormed i = false ∧ exec i s = .refused .undefinedRegpair)

theorem State.armNmi_false (s : State) : s.armNmi false = s := by simp [State.armNmi]

/-- An instruction that arms nothing. -/
theorem Answers.of_conserves {i : Instr} {s u : State} (h : exec i s = .next u) (hc : Conserves s u) : Answers i s :=
  .inl ⟨u, false, by rw [h, u.armNmi_false], hc, nofun⟩

theorem exg_answers (r1 r2 : Reg) (s : State) : Answers (.exg r1 r2) s := by
  match r1, r2 with
  | .wide p, .wide q =>
    refine .inl ⟨_, _, rfl, (s.set16_conserves p _).trans (State.set16_conserves _ q _), fun h => ?_⟩
    simp only [Bool.and_eq_true, Bool.or_eq_true, beq_iff_eq] at h
    obtain ⟨rfl | rfl, -⟩ := h
    · exact .inr (.inr (.inr (.inl ⟨_, .inr rfl⟩)))
    · exact .inr (.inr (.inr (.inl ⟨_, .inl rfl⟩)))
  | .narrow p, .narrow q => exact .of_conserves rfl ((s.set8_conserves p _).trans (State.set8_conserves _ q _))
  | .wide p, .narrow q => exact .inr ⟨rfl, rfl⟩
  | .narrow p, .wide q => exact .inr ⟨rfl, rfl⟩

theorem tfr_answers (r1 r2 : Reg) (s : State) : Answers (.tfr r1 r2) s := by
  match r1, r2 with
  | .wide p, .wide q =>
    refine .inl ⟨_, _, rfl, s.set16_conserves q _, fun h => ?_⟩
    simp only [Bool.and_eq_true, beq_iff_eq] at h
    obtain ⟨rfl, -⟩ := h
    exact .inr (.inr (.inl ⟨_, rfl⟩))
  | .narrow p, .narrow q => exact .of_conserves rfl (s.set8_conserves q _)
  | .wide p, .narrow q => exact .inr ⟨rfl, rfl⟩
  | .narrow p, .wide q => exact .inr ⟨rfl, rfl⟩

theorem clr_answers (dst : MemOp) (s : State) : Answers (.clr dst) s :=
  .of_conserves rfl ((memEa_conserves dst s).trans (((clrRead_same _ _).conserves (.refl _)).trans
    (.of_base (State.write8_conserves _ _ _) (.of_fields rfl rfl rfl rfl))))

/-- CWAI stacks the entire frame with the masked CC and waits (48_interrupt_and_status.md R356). -/
theorem exec_cwai (data : Byte) (s : State) : exec (.cwai data) s = .next
    { State.stackFrame { s with cc := CC.ofByte (s.cc.toByte &&& data) } true with run := .cwaiWait } := rfl

/-- What every instruction answers, shape by shape. -/
theorem exec_answers (i : Instr) (s : State) : Answers i s := by
  cases i with
  | lda src | ldb src => exact .of_conserves rfl (load8_conserves _ src s)
  | ldd src | ldx src | ldy src | ldu src => exact .of_conserves rfl (load16_conserves _ src s)
  | lds src => exact .inl ⟨_, _, rfl, load16_conserves .s src s, fun _ => .inl ⟨_, rfl⟩⟩
  | sta dst | stb dst => exact .of_conserves rfl (store8_conserves _ dst s)
  | std dst | stx dst | sty dst | stu dst | sts dst => exact .of_conserves rfl (store16_conserves _ dst s)
  | adca src | adcb src | adda src | addb src | anda src | andb src | eora src | eorb src | ora src | orb src =>
    exact .of_conserves rfl (alu8_conserves _ _ src s)
  | suba src | subb src | sbca src | sbcb src => exact .of_conserves rfl (alu8Any_conserves _ _ src s)
  | bita src | bitb src => exact .of_conserves rfl (test8_conserves _ _ src s)
  | cmpa src | cmpb src => exact .of_conserves rfl (test8Any_conserves _ _ src s)
  | addd src | subd src => exact .of_conserves rfl (alu16_conserves _ _ src s)
  | cmpd src | cmps src | cmpu src | cmpx src | cmpy src => exact .of_conserves rfl (test16_conserves _ _ src s)
  | asl dst | lsl dst | asr dst | neg dst => exact .of_conserves rfl (rmw8Any_conserves _ dst s)
  | lsr dst | rol dst | ror dst | com dst | dec dst | inc dst => exact .of_conserves rfl (rmw8_conserves _ dst s)
  | asla | aslb | lsla | lslb | asra | asrb | nega | negb | daa => exact .of_conserves rfl (acc8Any_conserves _ _ s)
  | lsra | lsrb | rola | rolb | rora | rorb | coma | comb | clra | clrb | deca | decb | inca | incb =>
    exact .of_conserves rfl (acc8_conserves _ _ s)
  | clr dst => exact clr_answers dst s
  | tst dst => exact .of_conserves rfl (tstMem_conserves dst s)
  | bcc disp | bcs disp | beq disp | bge disp | bgt disp | bhi disp | bhs disp | ble disp | blo disp | bls disp | blt disp
  | bmi disp | bne disp | bpl disp | bvc disp | bvs disp | lbcc disp | lbcs disp | lbeq disp | lbge disp | lbgt disp
  | lbhi disp | lbhs disp | lble disp | lblo disp | lbls disp | lblt disp | lbmi disp | lbne disp | lbpl disp | lbvc disp
  | lbvs disp => exact .of_conserves rfl (branchIf_conserves _ _ s)
  | bra disp | lbra disp | tsta | tstb | abx | sync | andcc data | orcc data | nop | brn disp | lbrn disp | mul | sex =>
    exact .of_conserves rfl (.of_fields rfl rfl rfl rfl)
  | jmp dst => exact .of_conserves rfl ((memEa_conserves dst s).trans (.of_fields rfl rfl rfl rfl))
  | bsr disp | lbsr disp => exact .of_conserves rfl (callTo_conserves _ s)
  | jsr dst => exact .of_conserves rfl ((memEa_conserves dst s).trans (callTo_conserves _ _))
  | rts => exact .of_conserves rfl (s.pullTo16_conserves .s .pc)
  | exg r1 r2 => exact exg_answers r1 r2 s
  | tfr r1 r2 => exact tfr_answers r1 r2 s
  | leax form | leay form | leau form =>
    exact .of_conserves rfl ((memEa_conserves (.idx form) s).trans (.of_fields rfl rfl rfl rfl))
  | leas form =>
    exact .inl ⟨_, _, rfl, (memEa_conserves (.idx form) s).trans (.of_fields rfl rfl rfl rfl), fun _ => .inr (.inl ⟨_, rfl⟩)⟩
  | pshs list | pshu list => exact .of_conserves rfl (pushList_conserves _ list s)
  | puls list => exact .of_conserves rfl (pullList_conserves .s list s)
  | pulu list =>
    refine .inl ⟨_, _, rfl, pullList_conserves .u list s, fun h => ?_⟩
    exact .inr (.inr (.inr (.inr ⟨_, rfl, (Bool.and_eq_true _ _ ▸ h).1⟩)))
  | swi | swi2 | swi3 => exact .of_conserves rfl (s.takeEvent_conserves_of_ne_nmi (by decide))
  | rti => exact .of_conserves rfl s.returnFromEvent_conserves
  | cwai data =>
    have hmask : Conserves s { s with cc := CC.ofByte (s.cc.toByte &&& data) } := .of_fields rfl rfl rfl rfl
    exact .of_conserves (exec_cwai data s) (hmask.trans (State.stackFrame_conserves _ true)).setRun

/-- The same, of an instruction that answers a next state. -/
theorem exec_conserves {i : Instr} {s t : State} (h : exec i s = .next t) :
    ∃ u arms, t = u.armNmi arms ∧ Conserves s u ∧ (arms = true → LoadsS i) := by
  rcases exec_answers i s with ⟨u, arms, he, hc, hl⟩ | ⟨-, he⟩
  · rw [he] at h
    injection h with h
    exact ⟨u, arms, h.symm, hc, hl⟩
  · rw [he] at h
    cases h

/-- LDS arms NMI. -/
theorem exec_lds_arms {src : Src16} {s t : State} (h : exec (.lds src) s = .next t) : t.nmiArmed = true := by
  obtain rfl : (load16 .s src s).armNmi true = t := by injection h
  exact Bool.or_true _

/-- Settles O52: an instruction arms NMI or leaves it as it was, and arming is of the loaders of S. -/
theorem whatArmsNmi : Obligations.WhatArmsNmi := by
  intro i s t h
  obtain ⟨u, arms, ht, hc, hl⟩ := exec_conserves h
  have harmed : t.nmiArmed = (s.nmiArmed || arms) := by rw [ht, State.armNmi_nmiArmed, hc.nmiArmed]
  refine ⟨fun hs => by simp [harmed, hs], ?_, fun hs ht => hl (by simpa [harmed, hs] using ht)⟩
  rintro ⟨src, rfl⟩
  exact exec_lds_arms h

end Sys2Proof.Machine


/-! The machine as a whole: what every step keeps, what it runs and where it stops (spec/60_exceptions.md R382, R392, R402, R403;
70_reset_and_hazards.md R420, R421; 20_memory.md R53, R58, R60). -/

namespace Sys2Proof.Machine

/-! ### The step up to the instruction, by what the machine is doing -/

theorem boundary_of_reset {s : State} (h : s.nextInputs.reset = true) :
    boundary s = .settled s.consumeInputs.resetEvent := by simp [boundary, h]

theorem boundary_of_running {s : State} (hrun : s.run = .running) (h : s.nextInputs.reset = false) :
    boundary s = boundaryRunning s.nextInputs (s.consumeInputs.latchNmi s.nextInputs) := by
  simp [boundary, h, hrun]

theorem boundary_of_syncWait {s : State} (hrun : s.run = .syncWait) (h : s.nextInputs.reset = false) :
    boundary s = boundarySync s.nextInputs (s.consumeInputs.latchNmi s.nextInputs) := by
  simp [boundary, h, hrun]

theorem boundary_of_cwaiWait {s : State} (hrun : s.run = .cwaiWait) (h : s.nextInputs.reset = false) :
    boundary s = boundaryCwai s.nextInputs (s.consumeInputs.latchNmi s.nextInputs) := by
  simp [boundary, h, hrun]

theorem step_of_settled {s t : State} (h : boundary s = .settled t) : step s = .next t := by simp [step, h]

theorem boundaryRunning_settled {inp : Inputs} {u t : State} (h : boundaryRunning inp u = .settled t) :
    ∃ ev, t = u.takeEvent ev := by
  unfold boundaryRunning at h
  split at h <;> cases h
  exact ⟨_, rfl⟩

/-- Everything a boundary that settles the step can be: a reset, the entry of an event, a wake from CWAI, or a wait that goes on. -/
theorem boundary_settled {s t : State} (h : boundary s = .settled t) :
    t = s.consumeInputs.resetEvent ∨
    (∃ ev run, t = State.takeEvent { s.consumeInputs.latchNmi s.nextInputs with run := run } ev) ∨
    (∃ ev, t = { (s.consumeInputs.latchNmi s.nextInputs).enterHandler ev with run := .running }) ∨
    t = s.consumeInputs.latchNmi s.nextInputs := by
  cases hreset : s.nextInputs.reset with
  | true =>
    rw [boundary_of_reset hreset] at h
    cases h
    exact .inl rfl
  | false =>
    cases hrun : s.run with
    | running =>
      rw [boundary_of_running hrun hreset] at h
      obtain ⟨ev, rfl⟩ := boundaryRunning_settled h
      exact .inr (.inl ⟨ev, _, rfl⟩)
    | syncWait =>
      rw [boundary_of_syncWait hrun hreset, boundarySync] at h
      split at h
      · obtain ⟨ev, rfl⟩ := boundaryRunning_settled h
        exact .inr (.inl ⟨ev, _, rfl⟩)
      · cases h
        exact .inr (.inr (.inr rfl))
    | cwaiWait =>
      rw [boundary_of_cwaiWait hrun hreset, boundaryCwai] at h
      split at h <;> cases h
      · exact .inr (.inr (.inl ⟨_, rfl⟩))
      · exact .inr (.inr (.inr rfl))

/-! ### Going through a vector, and RESET -/

/-- PC from a vector in RAM or ROM: nothing else changes. -/
theorem State.loadVector_plain {s : State} {vec : Word} (h : readable s.memMap vec 2 = true) :
    s.loadVector vec = { s with pc := wordOf (s.cell vec) (s.cell (vec + 1#16)) } := by
  simp only [State.loadVector, State.read16_plain h]

/-- What a reset sets, and that it leaves memory alone (R420). -/
theorem State.resetEvent_fields (s : State) :
    s.resetEvent.dp = 0x00#8 ∧ s.resetEvent.cc.i = true ∧ s.resetEvent.cc.f = true ∧ s.resetEvent.nmiArmed = false ∧
    s.resetEvent.nmiRequest = false ∧ s.resetEvent.run = .running ∧ s.resetEvent.mem = s.mem ∧
    s.resetEvent.memMap = s.memMap := by
  unfold State.resetEvent
  obtain ⟨-, -, -, -, -, -, -, hdp, hcc, hmem, hrun, harmed, hrequest, -, hmap⟩ := (State.loadVector_same _ 0xFFFE#16).fields
  exact ⟨hdp, hcc ▸ rfl, hcc ▸ rfl, harmed, hrequest, hrun, hmem, hmap⟩

/-- PC after a reset, where the reset vector lies in RAM or ROM. -/
theorem State.resetEvent_pc {s : State} (h : readable s.memMap 0xFFFE#16 2 = true) :
    s.resetEvent.pc = wordOf (s.cell 0xFFFE#16) (s.cell 0xFFFF#16) := by
  unfold State.resetEvent
  refine (congrArg State.pc (State.loadVector_plain ?_)).trans ?_
  · exact h
  · rfl

/-- Settles O54: the boundary settles the step with the reset event. -/
theorem resetEvent : Obligations.ResetEvent := by
  intro s hreset
  obtain ⟨hdp, hi, hf, harmed, hrequest, hrun, hmem, hmap⟩ := s.consumeInputs.resetEvent_fields
  exact ⟨_, step_of_settled (boundary_of_reset hreset), hdp, hi, hf, harmed, hrequest, hrun, hmem, hmap,
    fun hv => State.resetEvent_pc (s := s.consumeInputs) hv⟩

/-- Settles O53: the reset state evaluated. -/
theorem resetState : Obligations.ResetState := by
  unfold Obligations.ResetState
  decide

/-! ### What every step keeps -/

/-- A step is a reset, or it latches an NMI edge, perhaps consumes the request, goes on conservatively and perhaps arms NMI. -/
theorem step_effect {s t : State} (h : step s = .next t) :
    (KeepsMemory s t ∧ t.nmiRequest = false) ∨
    ∃ keeps u arms, t = u.armNmi arms ∧
      Conserves { s.consumeInputs.latchNmi s.nextInputs with
        nmiRequest := (s.consumeInputs.latchNmi s.nextInputs).nmiRequest && keeps } u := by
  rcases step_cases h with hb | ⟨u, i, hb, -, he⟩
  · rcases boundary_settled hb with rfl | ⟨ev, run, rfl⟩ | ⟨ev, rfl⟩ | rfl
    · obtain ⟨-, -, -, -, hrequest, -, hmem, hmap⟩ := s.consumeInputs.resetEvent_fields
      exact .inl ⟨.of_mem_eq hmem hmap, hrequest⟩
    · exact .inr ⟨ev != .nmi, _, false, (State.armNmi_false _).symm,
        (State.takeEvent_conserves _ ev).of_base (.of_fields rfl rfl rfl rfl)⟩
    · exact .inr ⟨ev != .nmi, _, false, (State.armNmi_false _).symm, (State.enterHandler_conserves _ ev).setRun⟩
    · exact .inr ⟨true, _, false, (State.armNmi_false _).symm, .of_fields rfl rfl rfl (Bool.and_true _).symm⟩
  · obtain ⟨-, rfl, -⟩ := boundary_execute hb
    obtain ⟨v, arms, rfl, hc, -⟩ := exec_conserves he
    exact .inr ⟨true, v, arms, rfl, .of_base (.of_base hc ((State.afterFetch_same _ _).conserves (.of_fields rfl rfl rfl rfl)))
      (.of_fields rfl rfl rfl (Bool.and_true _).symm)⟩

/-- No step changes the memory map or a cell that is not RAM, or makes canonical memory another. -/
theorem step_keepsMemory {s t : State} (h : step s = .next t) : KeepsMemory s t := by
  rcases step_effect h with ⟨hm, -⟩ | ⟨keeps, u, arms, rfl, hc⟩
  · exact hm
  · exact ⟨hc.memMap, hc.cell, hc.canonical⟩

/-- Settles O60, by induction on the run. -/
theorem romNeverChanges : Obligations.RomNeverChanges := by
  intro s t h
  have hkeeps : KeepsMemory s t :=
    reachable_induction (.of_mem_eq rfl rfl) (fun u v hu huv => hu.trans (step_keepsMemory huv)) h
  exact ⟨hkeeps.memMap, hkeeps.cell⟩

/-- Settles O58: the empty memory is canonical, and nothing is latched. -/
theorem invariantAtReset : Obligations.InvariantAtReset := ⟨Memory.wf_nil, nofun⟩

/-- Settles O59: a request is latched while NMI is armed, and then only a reset, which drops it, disarms. -/
theorem stepKeepsInvariant : Obligations.StepKeepsInvariant := by
  rintro s t ⟨hw, hnmi⟩ h
  refine ⟨(step_keepsMemory h).canonical hw, fun ht => ?_⟩
  rcases step_effect h with ⟨-, hrequest⟩ | ⟨keeps, u, arms, rfl, hc⟩
  · rw [hrequest] at ht
    cases ht
  · have hlatched : s.nmiRequest = true ∨ s.nextInputs.nmiEdge = true ∧ s.nmiArmed = true := by
      rw [State.armNmi_nmiRequest, hc.nmiRequest, Bool.and_eq_true] at ht
      simpa using ht.1
    have harmed : s.nmiArmed = true := hlatched.elim hnmi And.right
    rw [State.armNmi_nmiArmed, hc.nmiArmed]
    simp [harmed]

/-! ### What a step runs, and where it stops -/

/-- Settles O55: the step unfolds to the fetch and `exec`. -/
theorem stepRunsDecoded : Obligations.StepRunsDecoded := by
  intro s u i hb hd
  exact ⟨by simp [step, fetch, hb, hd], rfl⟩

/-- Settles O57: what the decoder answers is well formed, and every well-formed instruction completes. -/
theorem stepStopsOnlyOnUndefinedEncodings : Obligations.StepStopsOnlyOnUndefinedEncodings := by
  intro s
  cases hb : boundary s with
  | settled t => exact .inl ⟨t, step_of_settled hb⟩
  | execute u =>
    cases hd : decode u.window with
    | error e => exact .inr ⟨u, e, rfl, hd, by simp [step, fetch, hb, hd]⟩
    | ok i =>
      refine .inl ?_
      rw [(stepRunsDecoded s u i hb hd).1]
      rcases exec_answers i (u.afterFetch (instrLength i)) with ⟨v, arms, he, -⟩ | ⟨hw, -⟩
      · exact ⟨_, he⟩
      · rw [(firstNamed_of_decode hd).1] at hw
        cases hw

/-- A second name has the words of the first. -/
theorem encode_canonical (i : Instr) : encode (canonical i) = encode i := by
  cases i <;> rfl

/-- The state in which a step takes its instruction. -/
theorem boundary_of_executes {s : State} (h : s.executes) :
    boundary s = .execute (s.consumeInputs.latchNmi s.nextInputs) := by
  obtain ⟨hrun, hreset, haccepted⟩ := h
  rw [boundary_of_running hrun hreset, boundaryRunning, haccepted]

/-- The five bytes the decoder looks at begin with the encoding that memory holds at PC. -/
theorem decode_window_of_holds {u : State} {i : Instr} (hw : wellFormed i = true) (h : u.holds u.pc (encode i)) :
    decode u.window = .ok (canonical i) := by
  have hlen : (encode i).length ≤ 5 := (instrLength_bounds i).2
  obtain ⟨rest, hrest⟩ := State.readBytes_begins h (5 - (encode i).length)
  rw [Nat.add_sub_cancel' hlen] at hrest
  rw [State.window, hrest]
  exact decodeEncode i rest hw

/-- The fetch of an encoding that memory holds changes PC alone. -/
theorem State.afterFetch_of_holds {u : State} {i : Instr} (h : u.holds u.pc (encode i)) :
    u.afterFetch (instrLength i) = { u with pc := u.pc + BitVec.ofNat 16 (instrLength i) } := by
  rw [State.afterFetch, instrLength, State.readBytes_holds h]

/-- Settles O56: the fetch reads the encoding that memory holds, and the decoder gives its instruction back. -/
theorem stepRunsTheInstructionAtPc : Obligations.StepRunsTheInstructionAtPc := by
  intro s i hw hx hs
  have hu : (s.consumeInputs.latchNmi s.nextInputs).holds s.pc (encode i) :=
    (State.holds_congr (s := s) (t := s.consumeInputs.latchNmi s.nextInputs) rfl rfl _ _).2 hs
  have hlen : instrLength (canonical i) = instrLength i := congrArg List.length (encode_canonical i)
  rw [(stepRunsDecoded s _ _ (boundary_of_executes hx) (decode_window_of_holds hw hu)).1, hlen,
    State.afterFetch_of_holds hu]
  rfl

end Sys2Proof.Machine


/-! Memory accesses, effective addresses, loads and stores (spec/20_memory.md R51 to R60; 40_addressing_modes.md R110 to R121;
41_load_store.md). -/

namespace Sys2Proof.Machine

/-! ### Accesses and effective addresses -/

/-- Settles O9: each half by the law of a word write, the word back by a read of two RAM cells. -/
theorem wordsAreBigEndian : Obligations.WordsAreBigEndian := by
  intro s addr v hw h0 h1
  have hwrote := State.write16_wrote hw addr v
  have hhi : (s.write16 addr v).cell addr = hiByte v := by rw [hwrote]; simp [h0]
  have hlo : (s.write16 addr v).cell (addr + 1#16) = loByte v := by
    rw [hwrote, if_neg (fun h => addr_ne_next addr h.1.symm)]; simp [h1]
  have hmap : (s.write16 addr v).memMap = s.memMap := by rw [s.write16_same addr v]
  have hread : readable (s.write16 addr v).memMap addr 2 = true := by simp [readable, hmap, h0, h1]
  refine ⟨hhi, hlo, ?_, fun k hk0 hk1 => ?_⟩
  · rw [State.read16_plain hread, hhi, hlo, wordOf_hiByte_loByte]
  · rw [hwrote]; simp [hk0, hk1]

/-- Settles O10, cell kind by cell kind. -/
theorem romAndDeviceAccesses : Obligations.RomAndDeviceAccesses := by
  intro s addr v
  refine ⟨fun h => State.read8_plain ?_, State.write8_ignored v, State.read8_absent,
    fun h => ⟨State.write8_device v h, s.read8_same addr, s.read8_accessed addr, fun w rest hd => ?_⟩, rfl, fun w => rfl⟩
  · simpa [readable] using h
  · rw [State.read8_device h hd]
    exact ⟨rfl, rfl⟩

/-- Settles O7: `memEa` evaluated on each form. -/
theorem effectiveAddresses : Obligations.EffectiveAddresses := by
  intro s p
  refine ⟨fun adr8 => ⟨?_, rfl⟩, fun _ => rfl, fun _ => rfl, rfl, fun _ => rfl, fun _ => rfl, rfl, rfl, rfl, rfl, rfl, rfl, rfl,
    fun _ => rfl, fun _ => rfl⟩
  rw [memEa, wordOf_toNat, Nat.mul_comm]

/-! ### N and Z of a value, V cleared (R141) -/

/-- A word is zero just when its number is. -/
theorem beq_zero_eq {n : Nat} (r : BitVec n) : (r == 0) = decide (r.toNat = 0) := by
  rw [Bool.beq_eq_decide_eq, decide_eq_decide, ← BitVec.toNat_inj]; rfl

/-- The flags of a move, a test or a logic operation, in whole numbers. -/
theorem CC.nzv0_eq {n : Nat} (cc : CC) (r : BitVec n) :
    cc.nzv0 r = { cc with n := decide (r.toInt < 0), z := decide (r.toNat = 0), v := false } := by
  rw [CC.nzv0, CC.nz, beq_zero_eq, BitVec.msb_eq_toInt]

/-! ### Loads -/

/-- Settles O11: both accumulators by the law of an 8-bit load. -/
theorem loadsOfEightBits : Obligations.LoadsOfEightBits := by
  refine ⟨fun _ _ => rfl, fun m s => ⟨rfl, memByte_plain⟩, fun src s => ?_⟩
  have hload := fun r => load8_spec r src s
  simp only [CC.nzv0_eq] at hload
  exact ⟨⟨_, rfl, hload .a⟩, ⟨_, rfl, hload .b⟩⟩

/-- Arming NMI commutes with device traffic. -/
theorem SameButDevices.armNmi {s t : State} (h : SameButDevices s t) (arms : Bool) :
    SameButDevices (s.armNmi arms) (t.armNmi arms) := by
  unfold SameButDevices at *
  rw [h]; rfl

/-- Settles O12: the five registers by the law of a 16-bit load, S armed after it. -/
theorem loadsOfSixteenBits : Obligations.LoadsOfSixteenBits := by
  refine ⟨fun _ _ => rfl, fun m s => ⟨rfl, readSrc16_plain⟩, fun src s => ?_⟩
  have hload := fun r => load16_spec r src s
  simp only [CC.nzv0_eq] at hload
  obtain ⟨hs, hreads⟩ := hload .s
  refine ⟨⟨_, rfl, hload .d⟩, ⟨_, rfl, hload .x⟩, ⟨_, rfl, hload .y⟩, ⟨_, rfl, hload .u⟩,
    ⟨_, rfl, ?_, hreads.congr ⟨rfl, rfl⟩⟩⟩
  simpa [State.armNmi] using hs.armNmi true

/-! ### Stores -/

/-- Settles O13: both accumulators by the law of an 8-bit store. -/
theorem storesOfEightBits : Obligations.StoresOfEightBits := by
  intro dst s hw
  have hstore : ∀ r v, (s.baseMoved dst).get8 r = v → WroteByte s (memEa dst s).1 v (store8 r dst s) ∧
      SameButMemory { s.baseMoved dst with
        cc := { s.cc with n := decide (v.toInt < 0), z := decide (v.toNat = 0), v := false } } (store8 r dst s) ∧
      AccessesAtEa dst [.write (memEa dst s).1 v] s (store8 r dst s) := by
    rintro r _ rfl
    obtain ⟨hsame, hwrote, hacc⟩ := store8_spec hw r dst
    exact ⟨hwrote, CC.nzv0_eq s.cc _ ▸ hsame, hacc⟩
  exact ⟨⟨_, rfl, hstore .a s.a (by simp)⟩, ⟨_, rfl, hstore .b s.b (by simp)⟩⟩

/-- Settles O14: the five registers by the law of a 16-bit store. -/
theorem storesOfSixteenBits : Obligations.StoresOfSixteenBits := by
  intro dst s hw
  have hstore : ∀ r v, (s.baseMoved dst).get16 r = v → WroteWord s (memEa dst s).1 v (store16 r dst s) ∧
      SameButMemory { s.baseMoved dst with
        cc := { s.cc with n := decide (v.toInt < 0), z := decide (v.toNat = 0), v := false } } (store16 r dst s) ∧
      AccessesAtEa dst (wordWrite (memEa dst s).1 v) s (store16 r dst s) := by
    rintro r _ rfl
    obtain ⟨hsame, hwrote, hacc⟩ := store16_spec hw r dst
    exact ⟨hwrote, CC.nzv0_eq s.cc _ ▸ hsame, hacc⟩
  exact ⟨⟨_, rfl, hstore .d _ (by simp)⟩, ⟨_, rfl, hstore .x _ rfl⟩, ⟨_, rfl, hstore .y _ rfl⟩,
    ⟨_, rfl, hstore .u _ rfl⟩, ⟨_, rfl, hstore .s _ rfl⟩⟩

end Sys2Proof.Machine


/-! Register operate: additions, subtractions, compares and logic operations (spec/42_accumulator_memory_operate.md;
00_scope.md R16, R17). -/

namespace Sys2Proof.Machine

/-! ### The flags of `add_n` and `sub_n` in whole numbers -/

/-- `setNZ_n` in whole numbers. -/
theorem SignAndZeroOf.of_nz {n : Nat} {r : BitVec n} {cc : CC} (hn : cc.n = r.msb) (hz : cc.z = (r == 0)) :
    SignAndZeroOf r cc :=
  ⟨hn.trans r.msb_eq_toInt, hz.trans (beq_zero_eq r)⟩

/-- Twice the weight of the sign bit is the modulus. -/
theorem two_pow_eq_double {n : Nat} (hn : 0 < n) : 2 ^ n = 2 * 2 ^ (n - 1) := by
  rw [← Nat.pow_succ', Nat.succ_eq_add_one, Nat.sub_add_cancel hn]

/-- The signed value from the unsigned one. -/
theorem toInt_cases {n : Nat} (hn : 0 < n) (v : BitVec n) :
    (v.msb = false ∧ v.toNat < 2 ^ (n - 1) ∧ v.toInt = v.toNat) ∨
    (v.msb = true ∧ (2 ^ (n - 1) ≤ v.toNat ∧ v.toNat < 2 * 2 ^ (n - 1)) ∧
      v.toInt = (v.toNat : Int) - 2 * (2 ^ (n - 1) : Nat)) := by
  have hpow := two_pow_eq_double hn
  have hlt := v.isLt
  rw [BitVec.msb_eq_decide, BitVec.toInt_eq_toNat_cond, hpow]
  rcases Nat.lt_or_ge v.toNat (2 ^ (n - 1)) with h | h
  · exact .inl ⟨by simpa using h, h, by rw [if_pos (by omega)]⟩
  · exact .inr ⟨by simpa using h, ⟨h, by omega⟩, by rw [if_neg (by omega)]; push_cast; rfl⟩

/-- The signed range in terms of the weight of the sign bit. -/
theorem fitsSigned_iff (n : Nat) (k : Int) :
    FitsSigned n k ↔ -((2 ^ (n - 1) : Nat) : Int) ≤ k ∧ k < (2 ^ (n - 1) : Nat) := by
  rw [FitsSigned]; push_cast; rfl

/-- V of an addition is clear just when the signed sum fits. -/
theorem addN_vout_eq_false_iff {n : Nat} (hn : 0 < n) (a m : BitVec n) (carry : Bool) :
    (addN a m carry).vout = false ↔ FitsSigned n (a.toInt + m.toInt + carry.toNat) := by
  have hv : (addN a m carry).vout = (a.msb == m.msb && (addN a m carry).r.msb != a.msb) := rfl
  have hexact := addN_exact a m carry
  have hcarry := Bool.toNat_le carry
  have hcout := Bool.toNat_le (addN a m carry).cout
  have ha := toInt_cases hn a
  have hm := toInt_cases hn m
  have hr := toInt_cases hn (addN a m carry).r
  rw [hv, fitsSigned_iff]
  rw [two_pow_eq_double hn] at hexact
  generalize 2 ^ (n - 1) = q at *
  generalize (addN a m carry).cout.toNat = c at *
  obtain rfl | rfl : c = 0 ∨ c = 1 := by omega
  all_goals
    rcases ha with ⟨ha, ha', hai⟩ | ⟨ha, ha', hai⟩ <;> rcases hm with ⟨hm, hm', hmi⟩ | ⟨hm, hm', hmi⟩ <;>
      rcases hr with ⟨hr, hr', -⟩ | ⟨hr, hr', -⟩ <;> simp [ha, hm, hr, hai, hmi] <;> omega

/-- The difference and its borrow together are the exact difference. -/
theorem subN_exact {n : Nat} (a m : BitVec n) (borrow : Bool) :
    (subN a m borrow).r.toNat + m.toNat + borrow.toNat = a.toNat + 2 ^ n * (subN a m borrow).cout.toNat := by
  have ha := a.isLt
  have hm := m.isLt
  have hb := Bool.toNat_le borrow
  have hr : ((subN a m borrow).r.toNat : Int) = ((a.toNat : Int) - m.toNat - borrow.toNat) % (2 ^ n : Nat) := by
    simp only [subN, BitVec.toNat_ofInt]
    exact Int.toNat_of_nonneg (Int.emod_nonneg _ (by positivity))
  rw [subN_cout]
  by_cases h : a.toNat < m.toNat + borrow.toNat
  · rw [← Int.add_emod_right, Int.emod_eq_of_lt (by omega) (by omega)] at hr
    simp [h]; omega
  · rw [Int.emod_eq_of_lt (by omega) (by omega)] at hr
    simp [h]; omega

/-- V of a subtraction is clear just when the signed difference fits. -/
theorem subN_vout_eq_false_iff {n : Nat} (hn : 0 < n) (a m : BitVec n) (borrow : Bool) :
    (subN a m borrow).vout = false ↔ FitsSigned n (a.toInt - m.toInt - borrow.toNat) := by
  have hv : (subN a m borrow).vout = (a.msb != m.msb && (subN a m borrow).r.msb != a.msb) := rfl
  have hexact := subN_exact a m borrow
  have hborrow := Bool.toNat_le borrow
  have hcout := Bool.toNat_le (subN a m borrow).cout
  have ha := toInt_cases hn a
  have hm := toInt_cases hn m
  have hr := toInt_cases hn (subN a m borrow).r
  rw [hv, fitsSigned_iff]
  rw [two_pow_eq_double hn] at hexact
  generalize 2 ^ (n - 1) = q at *
  generalize (subN a m borrow).cout.toNat = c at *
  obtain rfl | rfl : c = 0 ∨ c = 1 := by omega
  all_goals
    rcases ha with ⟨ha, ha', hai⟩ | ⟨ha, ha', hai⟩ <;> rcases hm with ⟨hm, hm', hmi⟩ | ⟨hm, hm', hmi⟩ <;>
      rcases hr with ⟨hr, hr', -⟩ | ⟨hr, hr', -⟩ <;> simp [ha, hm, hr, hai, hmi] <;> omega

/-- An addition leaves the exact sum and its flags (R172). -/
theorem addN_isSum {n : Nat} (hn : 0 < n) (a m : BitVec n) (carry : Bool) (cc : CC) :
    IsSum a m carry cc (addN a m carry).r (cc.nzvc (addN a m carry)) := by
  refine ⟨?_, rfl, addN_vout_eq_false_iff hn a m carry, SignAndZeroOf.of_nz rfl rfl, rfl, rfl, rfl⟩
  simp [addN]

/-- A subtraction leaves the exact difference and its flags (R172). -/
theorem subN_isDifference {n : Nat} (hn : 0 < n) (a m : BitVec n) (borrow : Bool) (cc : CC) :
    IsDifference a m borrow cc (subN a m borrow).r (cc.nzvc (subN a m borrow)) := by
  refine ⟨?_, subN_cout a m borrow, subN_vout_eq_false_iff hn a m borrow, SignAndZeroOf.of_nz rfl rfl, rfl, rfl, rfl⟩
  simp only [subN, BitVec.toNat_ofInt]
  rw [Int.toNat_of_nonneg (Int.emod_nonneg _ (by positivity))]
  push_cast; rfl

/-- The 8-bit additions: the sum, and in H the carry out of bit 3. -/
theorem addFlags8_isSum {a m r : Byte} {carry : Bool} {old new : CC} (h : (r, new) = addFlags8 a m carry old) :
    IsSum a m carry old r new ∧ new.h = decide (16 ≤ a.toNat % 16 + m.toNat % 16 + carry.toNat) := by
  cases h
  exact ⟨addN_isSum (by decide) a m carry old, rfl⟩

/-- The 8-bit subtractions: the difference; nothing is said of H. -/
theorem subFlags8_isDifference {any : Bool} {a m r : Byte} {borrow : Bool} {old new : CC}
    (h : (r, new) = subFlags8 any a m borrow old) : IsDifference a m borrow old r new := by
  cases h
  exact subN_isDifference (by decide) a m borrow old

/-- The 16-bit addition: the sum; H is kept. -/
theorem opAdd16_isSum {a m r : Word} {old new : CC} (h : (r, new) = opAdd16 a m old) :
    IsSum a m false old r new ∧ new.h = old.h := by
  cases h
  exact ⟨addN_isSum (by decide) a m false old, rfl⟩

/-- The 16-bit subtraction: the difference; H is kept. -/
theorem opSub16_isDifference {a m r : Word} {old new : CC} (h : (r, new) = opSub16 a m old) :
    IsDifference a m false old r new ∧ new.h = old.h := by
  cases h
  exact ⟨subN_isDifference (by decide) a m false old, rfl⟩

/-! ### The shapes of operation, with the result read off the new state -/

/-- An accumulator as an operand is formed: no auto form moves it. -/
theorem State.baseMoved8_get8 {r : Reg8} (hr : r = .a ∨ r = .b) (s : State) (src : Src8) :
    (s.baseMoved8 src).get8 r = s.get8 r := by
  rcases hr with rfl | rfl <;> simp

/-- Where A or B and the flags were written, they are what the new state has. -/
theorem SameButDevices.written8 {r : Reg8} (hr : r = .a ∨ r = .b) {base t : State} {o : Byte × CC}
    (h : SameButDevices { base.set8 r o.1 with cc := o.2 } t) :
    SameButDevices { base.set8 r (t.get8 r) with cc := t.cc } t ∧ (t.get8 r, t.cc) = o := by
  have hv : t.get8 r = o.1 := (h.get8 r).trans (by rcases hr with rfl | rfl <;> rfl)
  have hc : t.cc = o.2 := h.cc_eq
  rw [hv, hc]
  exact ⟨h, rfl⟩

theorem alu8_result {r : Reg8} (hr : r = .a ∨ r = .b) (f : Byte → Byte → CC → Byte × CC) (src : Src8) (s : State) :
    SameButDevices { (s.baseMoved8 src).set8 r ((alu8 f r src s).get8 r) with cc := (alu8 f r src s).cc }
      (alu8 f r src s) ∧ ReadsOperand8 src s (alu8 f r src s) ∧
    ((alu8 f r src s).get8 r, (alu8 f r src s).cc) = f (s.get8 r) (readSrc8 src s).1 s.cc := by
  obtain ⟨hsame, hreads⟩ := alu8_spec f r src s
  rw [State.baseMoved8_get8 hr] at hsame
  obtain ⟨hwritten, hresult⟩ := hsame.written8 hr
  exact ⟨hwritten, hreads, hresult⟩

theorem alu8Any_result {r : Reg8} (hr : r = .a ∨ r = .b) (f : Bool → Byte → Byte → CC → Byte × CC) (src : Src8)
    (s : State) :
    SameButDevices { (s.baseMoved8 src).set8 r ((alu8Any f r src s).get8 r) with cc := (alu8Any f r src s).cc }
      (alu8Any f r src s) ∧ ReadsOperand8 src s (alu8Any f r src s) ∧
    ∃ any, ((alu8Any f r src s).get8 r, (alu8Any f r src s).cc) = f any (s.get8 r) (readSrc8 src s).1 s.cc := by
  obtain ⟨any, hsame, hreads⟩ := alu8Any_spec f r src s
  rw [State.baseMoved8_get8 hr] at hsame
  obtain ⟨hwritten, hresult⟩ := hsame.written8 hr
  exact ⟨hwritten, hreads, any, hresult⟩

/-! ### The 8-bit obligations -/

/-- ADD and ADC of either accumulator. -/
theorem alu8_adds {r : Reg8} (hr : r = .a ∨ r = .b) {f : Byte → Byte → CC → Byte × CC} {carry : Bool} (src : Src8)
    (s : State) (hf : ∀ a m, f a m s.cc = addFlags8 a m carry s.cc) :
    SameButDevices { (s.baseMoved8 src).set8 r ((alu8 f r src s).get8 r) with cc := (alu8 f r src s).cc }
      (alu8 f r src s) ∧ ReadsOperand8 src s (alu8 f r src s) ∧
    IsSum (s.get8 r) (readSrc8 src s).1 carry s.cc ((alu8 f r src s).get8 r) (alu8 f r src s).cc ∧
    (alu8 f r src s).cc.h = decide (16 ≤ (s.get8 r).toNat % 16 + (readSrc8 src s).1.toNat % 16 + carry.toNat) := by
  obtain ⟨hsame, hreads, hresult⟩ := alu8_result hr f src s
  exact ⟨hsame, hreads, addFlags8_isSum (hresult.trans (hf _ _))⟩

/-- Settles O15: the exact sum of `addFlags8`, on either accumulator. -/
theorem additionsOfEightBits : Obligations.AdditionsOfEightBits := by
  intro src s
  have hA := fun f carry => alu8_adds (.inl rfl) (f := f) (carry := carry) src s
  have hB := fun f carry => alu8_adds (.inr rfl) (f := f) (carry := carry) src s
  exact ⟨⟨_, rfl, hA opAdd8 false fun _ _ => rfl⟩, ⟨_, rfl, hB opAdd8 false fun _ _ => rfl⟩,
    ⟨_, rfl, hA opAdc8 s.cc.c fun _ _ => rfl⟩, ⟨_, rfl, hB opAdc8 s.cc.c fun _ _ => rfl⟩⟩

/-- SUB and SBC of either accumulator. -/
theorem alu8Any_subtracts {r : Reg8} (hr : r = .a ∨ r = .b) {f : Bool → Byte → Byte → CC → Byte × CC} {borrow : Bool}
    (src : Src8) (s : State) (hf : ∀ any a m, f any a m s.cc = subFlags8 any a m borrow s.cc) :
    SameButDevices { (s.baseMoved8 src).set8 r ((alu8Any f r src s).get8 r) with cc := (alu8Any f r src s).cc }
      (alu8Any f r src s) ∧ ReadsOperand8 src s (alu8Any f r src s) ∧
    IsDifference (s.get8 r) (readSrc8 src s).1 borrow s.cc ((alu8Any f r src s).get8 r) (alu8Any f r src s).cc := by
  obtain ⟨hsame, hreads, any, hresult⟩ := alu8Any_result hr f src s
  exact ⟨hsame, hreads, subFlags8_isDifference (hresult.trans (hf any _ _))⟩

/-- CMP of either accumulator. -/
theorem test8Any_compares {r : Reg8} (hr : r = .a ∨ r = .b) (src : Src8) (s : State) :
    ∃ d, SameButDevices { s.baseMoved8 src with cc := (test8Any opSub8 r src s).cc } (test8Any opSub8 r src s) ∧
      ReadsOperand8 src s (test8Any opSub8 r src s) ∧
      IsDifference (s.get8 r) (readSrc8 src s).1 false s.cc d (test8Any opSub8 r src s).cc := by
  obtain ⟨any, hsame, hreads⟩ := test8Any_spec opSub8 r src s
  rw [State.baseMoved8_get8 hr] at hsame
  have hcc : (test8Any opSub8 r src s).cc = (opSub8 any (s.get8 r) (readSrc8 src s).1 s.cc).2 := hsame.cc_eq
  rw [hcc]
  exact ⟨_, hsame, hreads, subFlags8_isDifference (any := any) rfl⟩

/-- Settles O16: the exact difference of `subFlags8`, on either accumulator. -/
theorem subtractionsOfEightBits : Obligations.SubtractionsOfEightBits := by
  intro src s
  have hA := fun f borrow => alu8Any_subtracts (.inl rfl) (f := f) (borrow := borrow) src s
  have hB := fun f borrow => alu8Any_subtracts (.inr rfl) (f := f) (borrow := borrow) src s
  obtain ⟨da, hcmpa⟩ := test8Any_compares (.inl rfl) src s
  obtain ⟨db, hcmpb⟩ := test8Any_compares (.inr rfl) src s
  exact ⟨⟨_, rfl, hA opSub8 false fun _ _ _ => rfl⟩, ⟨_, rfl, hB opSub8 false fun _ _ _ => rfl⟩,
    ⟨_, rfl, hA opSbc8 s.cc.c fun _ _ _ => rfl⟩, ⟨_, rfl, hB opSbc8 s.cc.c fun _ _ _ => rfl⟩,
    ⟨_, da, rfl, hcmpa⟩, ⟨_, db, rfl, hcmpb⟩⟩

/-- AND, EOR and OR of either accumulator. -/
theorem alu8_logic {r : Reg8} (hr : r = .a ∨ r = .b) {f : Byte → Byte → CC → Byte × CC} {op : Byte → Byte → Byte}
    (hf : ∀ a m cc, f a m cc = (op a m, cc.nzv0 (op a m))) (src : Src8) (s : State) :
    let v := op (s.get8 r) (readSrc8 src s).1
    SameButDevices
      { (s.baseMoved8 src).set8 r v with
        cc := { s.cc with n := decide (v.toInt < 0), z := decide (v.toNat = 0), v := false } } (alu8 f r src s) ∧
    ReadsOperand8 src s (alu8 f r src s) := by
  have h := alu8_spec f r src s
  rwa [State.baseMoved8_get8 hr, hf, CC.nzv0_eq] at h

/-- BIT of either accumulator. -/
theorem test8_logic {r : Reg8} (hr : r = .a ∨ r = .b) (src : Src8) (s : State) :
    let v := s.get8 r &&& (readSrc8 src s).1
    SameButDevices
      { s.baseMoved8 src with
        cc := { s.cc with n := decide (v.toInt < 0), z := decide (v.toNat = 0), v := false } } (test8 opAnd8 r src s) ∧
    ReadsOperand8 src s (test8 opAnd8 r src s) := by
  have h := test8_spec opAnd8 r src s
  rwa [State.baseMoved8_get8 hr, opAnd8, CC.nzv0_eq] at h

/-- Settles O18: each operation gives its result with the flags of a move. -/
theorem logicOperations : Obligations.LogicOperations := by
  intro src s
  have hA := fun f op => alu8_logic (.inl rfl) (f := f) (op := op) (src := src) (s := s)
  have hB := fun f op => alu8_logic (.inr rfl) (f := f) (op := op) (src := src) (s := s)
  exact ⟨⟨_, rfl, hA opAnd8 (· &&& ·) fun _ _ _ => rfl⟩, ⟨_, rfl, hB opAnd8 (· &&& ·) fun _ _ _ => rfl⟩,
    ⟨_, rfl, hA opEor8 (· ^^^ ·) fun _ _ _ => rfl⟩, ⟨_, rfl, hB opEor8 (· ^^^ ·) fun _ _ _ => rfl⟩,
    ⟨_, rfl, hA opOr8 (· ||| ·) fun _ _ _ => rfl⟩, ⟨_, rfl, hB opOr8 (· ||| ·) fun _ _ _ => rfl⟩,
    ⟨_, rfl, test8_logic (.inl rfl) src s⟩, ⟨_, rfl, test8_logic (.inr rfl) src s⟩⟩

/-! ### The 16-bit obligation -/

/-- ADDD and SUBD: D and the flags are those of the operation on D and the operand. -/
theorem alu16_d_result (f : Word → Word → CC → Word × CC) (src : Src16) (s : State) :
    SameButDevices
      { s.baseMoved16 src with a := (alu16 f .d src s).a, b := (alu16 f .d src s).b, cc := (alu16 f .d src s).cc }
      (alu16 f .d src s) ∧ ReadsOperand16 src s (alu16 f .d src s) ∧
    (wordOf (alu16 f .d src s).a (alu16 f .d src s).b, (alu16 f .d src s).cc) =
      f (wordOf s.a s.b) (readSrc16 src s).1 s.cc := by
  obtain ⟨hsame, hreads⟩ := alu16_spec f .d src s
  rw [State.get16_at_d, State.baseMoved16_a, State.baseMoved16_b, State.set16_at_d] at hsame
  obtain ⟨ha, hb, -, -, -, -, -, -, hcc, -⟩ := hsame.fields
  rw [ha, hb, hcc]
  exact ⟨hsame, hreads, by simp⟩

/-- The 16-bit compares. -/
theorem test16_compares {r : Reg16} {v : Word} (src : Src16) (s : State) (hv : (s.baseMoved16 src).get16 r = v) :
    ∃ d, SameButDevices { s.baseMoved16 src with cc := (test16 opSub16 r src s).cc } (test16 opSub16 r src s) ∧
      ReadsOperand16 src s (test16 opSub16 r src s) ∧
      IsDifference v (readSrc16 src s).1 false s.cc d (test16 opSub16 r src s).cc ∧
      (test16 opSub16 r src s).cc.h = s.cc.h := by
  obtain ⟨hsame, hreads⟩ := test16_spec opSub16 r src s
  rw [hv] at hsame
  have hcc : (test16 opSub16 r src s).cc = (opSub16 v (readSrc16 src s).1 s.cc).2 := hsame.cc_eq
  rw [hcc]
  exact ⟨_, hsame, hreads, opSub16_isDifference rfl⟩

/-- Settles O17: `addN` and `subN` at 16 bits, on D and on the compared registers. -/
theorem arithmeticOfSixteenBits : Obligations.ArithmeticOfSixteenBits := by
  intro src s
  obtain ⟨hadd, haddReads, hsum⟩ := alu16_d_result opAdd16 src s
  obtain ⟨hsub, hsubReads, hdiff⟩ := alu16_d_result opSub16 src s
  obtain ⟨dd, hd⟩ := test16_compares (r := .d) (v := wordOf s.a s.b) src s (by simp)
  obtain ⟨dx, hx⟩ := test16_compares (r := .x) src s rfl
  obtain ⟨dy, hy⟩ := test16_compares (r := .y) src s rfl
  obtain ⟨du, hu⟩ := test16_compares (r := .u) src s rfl
  obtain ⟨ds, hs⟩ := test16_compares (r := .s) src s rfl
  exact ⟨⟨_, rfl, hadd, haddReads, opAdd16_isSum hsum⟩, ⟨_, rfl, hsub, hsubReads, opSub16_isDifference hdiff⟩,
    ⟨_, dd, rfl, hd⟩, ⟨_, dx, rfl, hx⟩, ⟨_, dy, rfl, hy⟩, ⟨_, du, rfl, hu⟩, ⟨_, ds, rfl, hs⟩⟩

end Sys2Proof.Machine


/-! One-operand operations on memory and on accumulators, TST and DAA (spec/43_memory_and_register_operate.md R211, R213, R250). -/

namespace Sys2Proof.Machine

/-! ### Bits and signs of a byte in whole numbers -/

/-- A bit of a byte. -/
theorem getLsbD_eq_decide {n : Nat} (v : BitVec n) (i : Nat) : v.getLsbD i = decide (v.toNat / 2 ^ i % 2 = 1) :=
  Nat.testBit_eq_decide_div_mod_eq

/-- The signed value of a byte. -/
theorem byte_toInt (v : Byte) : v.toInt = if v.toNat < 128 then (v.toNat : Int) else v.toNat - 256 := by
  have := v.isLt
  rw [BitVec.toInt_eq_toNat_cond]
  split <;> split <;> omega

/-- The signed range of a byte. -/
theorem fitsSigned_byte (k : Int) : FitsSigned 8 k ↔ -128 ≤ k ∧ k < 128 := Iff.rfl

/-- V of a left shift: doubling the signed value overflows just when bits 7 and 6 differ. -/
theorem doubling_overflow_iff (v : Byte) :
    (v.getLsbD 7 ^^ v.getLsbD 6) = false ↔ FitsSigned 8 (2 * v.toInt) := by
  have := v.isLt
  simp only [getLsbD_eq_decide, fitsSigned_byte, byte_toInt, bne_eq_false_iff_eq, decide_eq_decide]
  split <;> omega

/-- The bit shifted out on the left. -/
theorem bit7_eq (v : Byte) : v.getLsbD 7 = decide (128 ≤ v.toNat) := by
  have := v.isLt
  rw [getLsbD_eq_decide, decide_eq_decide]; omega

/-- The bit shifted out on the right. -/
theorem bit0_eq (v : Byte) : v.getLsbD 0 = decide (v.toNat % 2 = 1) := by
  rw [getLsbD_eq_decide, Nat.pow_zero, Nat.div_one]

/-! ### Each operation of R213 -/

theorem opAsl_isAsl (any : Bool) (v : Byte) (cc : CC) : IsAsl v cc (opAsl any v cc).1 (opAsl any v cc).2 :=
  ⟨by simp [opAsl, Nat.mul_comm], bit7_eq v, doubling_overflow_iff v, .of_nz rfl rfl, rfl, rfl, rfl⟩

theorem opAsr_isAsr (any : Bool) (v : Byte) (cc : CC) : IsAsr v cc (opAsr any v cc).1 (opAsr any v cc).2 := by
  refine ⟨?_, bit0_eq v, rfl, .of_nz rfl rfl, rfl, rfl, rfl⟩
  have := v.isLt
  simp only [opAsr, byte_toInt, bit7_eq, BitVec.toNat_ofNat]
  by_cases h : 128 ≤ v.toNat <;> simp [h] <;> omega

theorem opLsr_isLsr (v : Byte) (cc : CC) : IsLsr v cc (opLsr v cc).1 (opLsr v cc).2 := by
  refine ⟨?_, bit0_eq v, rfl, beq_zero_eq _, rfl, rfl, rfl, rfl, rfl⟩
  have := v.isLt
  simp only [opLsr, BitVec.toNat_ofNat]; omega

theorem opRol_isRol (v : Byte) (cc : CC) : IsRol v cc (opRol v cc).1 (opRol v cc).2 := by
  refine ⟨?_, doubling_overflow_iff v, .of_nz rfl rfl, rfl, rfl, rfl, rfl⟩
  have := v.isLt
  have := Bool.toNat_le cc.c
  simp only [opRol, bit7_eq, BitVec.toNat_ofNat]
  by_cases h : 128 ≤ v.toNat <;> simp [h] <;> omega

theorem opRor_isRor (v : Byte) (cc : CC) : IsRor v cc (opRor v cc).1 (opRor v cc).2 := by
  refine ⟨?_, .of_nz rfl rfl, rfl, rfl, rfl, rfl, rfl⟩
  have := v.isLt
  have := Bool.toNat_le cc.c
  simp only [opRor, bit0_eq, BitVec.toNat_ofNat]
  by_cases h : v.toNat % 2 = 1 <;> simp [h] <;> omega

theorem opNeg_isNeg (any : Bool) (v : Byte) (cc : CC) : IsNeg v cc (opNeg any v cc).1 (opNeg any v cc).2 := by
  have := v.isLt
  refine ⟨by simp [opNeg], ?_, ?_, .of_nz rfl rfl, rfl, rfl, rfl⟩
  · simp only [opNeg, bne, beq_zero_eq, BitVec.toNat_ofNat, ← decide_not, decide_eq_decide]; omega
  · simp only [opNeg, fitsSigned_byte, byte_toInt, beq_eq_false_iff_ne, ne_eq, ← BitVec.toNat_inj, BitVec.toNat_ofNat]
    split <;> omega

theorem opCom_isCom (v : Byte) (cc : CC) : IsCom v cc (opCom v cc).1 (opCom v cc).2 := by
  refine ⟨?_, rfl, rfl, .of_nz rfl rfl, rfl, rfl, rfl, rfl⟩
  have := v.isLt
  simp only [opCom, BitVec.toNat_ofNat]; omega

theorem opClr_isClr (v : Byte) (cc : CC) : IsClr v cc (opClr v cc).1 (opClr v cc).2 := ⟨rfl, rfl⟩

theorem opDec_isDec (v : Byte) (cc : CC) : IsDec v cc (opDec v cc).1 (opDec v cc).2 := by
  have := v.isLt
  have hr : (v - 1#8).toNat = (v.toNat + 255) % 256 := by bv_omega
  refine ⟨hr, ?_, rfl, .of_nz rfl rfl, rfl, rfl, rfl, rfl⟩
  simp only [opDec, fitsSigned_byte, byte_toInt, beq_eq_false_iff_ne, ne_eq, ← BitVec.toNat_inj, hr, BitVec.toNat_ofNat]
  split <;> omega

theorem opInc_isInc (v : Byte) (cc : CC) : IsInc v cc (opInc v cc).1 (opInc v cc).2 := by
  have := v.isLt
  have hr : (v + 1#8).toNat = (v.toNat + 1) % 256 := by bv_omega
  refine ⟨hr, ?_, rfl, .of_nz rfl rfl, rfl, rfl, rfl, rfl⟩
  simp only [opInc, fitsSigned_byte, byte_toInt, beq_eq_false_iff_ne, ne_eq, ← BitVec.toNat_inj, hr, BitVec.toNat_ofNat]
  split <;> omega

/-! ### Where they are done -/

section
variable {op : Byte → CC → Byte → CC → Prop}

theorem onA_acc8 {i : Instr} {f : Byte → CC → Byte × CC} (hop : ∀ v cc, op v cc (f v cc).1 (f v cc).2)
    (h : ∀ s, exec i s = .next (acc8 f .a s)) : OnA i op :=
  fun s => ⟨_, h s, rfl, hop s.a s.cc⟩

theorem onB_acc8 {i : Instr} {f : Byte → CC → Byte × CC} (hop : ∀ v cc, op v cc (f v cc).1 (f v cc).2)
    (h : ∀ s, exec i s = .next (acc8 f .b s)) : OnB i op :=
  fun s => ⟨_, h s, rfl, hop s.b s.cc⟩

theorem onA_acc8Any {i : Instr} {f : Bool → Byte → CC → Byte × CC}
    (hop : ∀ any v cc, op v cc (f any v cc).1 (f any v cc).2) (h : ∀ s, exec i s = .next (acc8Any f .a s)) : OnA i op :=
  fun s => ⟨_, h s, rfl, hop _ s.a s.cc⟩

theorem onB_acc8Any {i : Instr} {f : Bool → Byte → CC → Byte × CC}
    (hop : ∀ any v cc, op v cc (f any v cc).1 (f any v cc).2) (h : ∀ s, exec i s = .next (acc8Any f .b s)) : OnB i op :=
  fun s => ⟨_, h s, rfl, hop _ s.b s.cc⟩

theorem onMemory_rmw8 {i : MemOp → Instr} {f : Byte → CC → Byte × CC} (hop : ∀ v cc, op v cc (f v cc).1 (f v cc).2)
    (h : ∀ dst s, exec (i dst) s = .next (rmw8 f dst s)) : OnMemory true i op := by
  intro dst s hw
  obtain ⟨hsame, hwrote, hacc⟩ := rmw8_spec hw f dst
  have hcc : (rmw8 f dst s).cc = (f (memByte dst s) s.cc).2 := hsame.fields.2.2.2.2.2.2.2.2.1
  refine ⟨_, _, h dst s, ?_, hwrote, ?_, hacc⟩
  · rw [hcc]; exact hsame
  · rw [hcc]; exact hop _ _

theorem onMemory_rmw8Any {i : MemOp → Instr} {f : Bool → Byte → CC → Byte × CC}
    (hop : ∀ any v cc, op v cc (f any v cc).1 (f any v cc).2)
    (h : ∀ dst s, exec (i dst) s = .next (rmw8Any f dst s)) : OnMemory true i op := by
  intro dst s hw
  obtain ⟨any, hsame, hwrote, hacc⟩ := rmw8Any_spec hw f dst
  have hcc : (rmw8Any f dst s).cc = (f any (memByte dst s) s.cc).2 := hsame.fields.2.2.2.2.2.2.2.2.1
  refine ⟨_, _, h dst s, ?_, hwrote, ?_, hacc⟩
  · rw [hcc]; exact hsame
  · rw [hcc]; exact hop any _ _

end

/-- CLR on memory: the read of `clr_reads` or none, then the write of zero. -/
theorem onMemory_clr : OnMemory Config.clrReads .clr IsClr := by
  intro dst s hw
  have hread := (memEa_same dst s).trans (clrRead_same (memEa dst s).1 (memEa dst s).2)
  generalize hu : clrRead (memEa dst s).1 (memEa dst s).2 = u at hread
  have hcc : u.cc = s.cc := by rw [hread.cc_eq]; simp
  have hmem : u.mem = s.mem := by rw [hread.mem_eq]; simp
  have hmap : u.memMap = s.memMap := by rw [hread.memMap_eq]; simp
  have hexec : exec (.clr dst) s = .next (State.write8 { u with cc := (opClr 0x00#8 s.cc).2 } (memEa dst s).1 0x00#8) := by
    rw [← hcc, ← hu]; rfl
  have hsame := State.write8_same { u with cc := (opClr 0x00#8 s.cc).2 } (memEa dst s).1 0x00#8
  have hwrote := State.write8_wrote (s := { u with cc := (opClr 0x00#8 s.cc).2 }) (hmem ▸ hw) (memEa dst s).1 0x00#8
  refine ⟨_, 0x00#8, hexec, ?_, fun k => ?_, ?_, .intro ?_⟩
  · simp only [State.write8_cc]
    exact (hread.flags _).toMemory.trans hsame
  · simpa only [State.cell, hmem, hmap] using hwrote k
  · simp only [State.write8_cc]
    exact opClr_isClr 0x00#8 s.cc
  · have hacc := clrRead_accessed (memEa dst s).1 (memEa dst s).2
    rw [hu] at hacc
    have hwrite := State.write8_accessed { u with cc := (opClr 0x00#8 s.cc).2 } (memEa dst s).1 0x00#8
    exact hacc.trans (hwrite.congr ⟨rfl, rfl, rfl⟩ ⟨rfl, rfl⟩)
      (hread.memMap_eq.trans (memEa_same dst s).memMap_eq.symm)

/-- Settles O20: each operation of R213, read, done and written back. -/
theorem shiftsOnMemory : Obligations.ShiftsOnMemory :=
  ⟨onMemory_rmw8Any opAsl_isAsl fun _ _ => rfl, onMemory_rmw8Any opAsl_isAsl fun _ _ => rfl,
    onMemory_rmw8Any opAsr_isAsr fun _ _ => rfl, onMemory_rmw8 opLsr_isLsr fun _ _ => rfl,
    onMemory_rmw8 opRol_isRol fun _ _ => rfl, onMemory_rmw8 opRor_isRor fun _ _ => rfl⟩

/-- Settles O21: each operation of R213 on an accumulator. -/
theorem shiftsOnAccumulators : Obligations.ShiftsOnAccumulators :=
  ⟨onA_acc8Any opAsl_isAsl fun _ => rfl, onB_acc8Any opAsl_isAsl fun _ => rfl, onA_acc8Any opAsl_isAsl fun _ => rfl,
    onB_acc8Any opAsl_isAsl fun _ => rfl, onA_acc8Any opAsr_isAsr fun _ => rfl, onB_acc8Any opAsr_isAsr fun _ => rfl,
    onA_acc8 opLsr_isLsr fun _ => rfl, onB_acc8 opLsr_isLsr fun _ => rfl, onA_acc8 opRol_isRol fun _ => rfl,
    onB_acc8 opRol_isRol fun _ => rfl, onA_acc8 opRor_isRor fun _ => rfl, onB_acc8 opRor_isRor fun _ => rfl⟩

/-- Settles O22: each operation of R213, read, done and written back; CLR apart, for its read. -/
theorem unaryArithmeticOnMemory : Obligations.UnaryArithmeticOnMemory :=
  ⟨onMemory_rmw8Any opNeg_isNeg fun _ _ => rfl, onMemory_rmw8 opCom_isCom fun _ _ => rfl, onMemory_clr,
    onMemory_rmw8 opDec_isDec fun _ _ => rfl, onMemory_rmw8 opInc_isInc fun _ _ => rfl⟩

/-- Settles O23: each operation of R213 on an accumulator. -/
theorem unaryArithmeticOnAccumulators : Obligations.UnaryArithmeticOnAccumulators :=
  ⟨onA_acc8Any opNeg_isNeg fun _ => rfl, onB_acc8Any opNeg_isNeg fun _ => rfl, onA_acc8 opCom_isCom fun _ => rfl,
    onB_acc8 opCom_isCom fun _ => rfl, onA_acc8 opClr_isClr fun _ => rfl, onB_acc8 opClr_isClr fun _ => rfl,
    onA_acc8 opDec_isDec fun _ => rfl, onB_acc8 opDec_isDec fun _ => rfl, onA_acc8 opInc_isInc fun _ => rfl,
    onB_acc8 opInc_isInc fun _ => rfl⟩

/-- Settles O24: the flags of a move, from the byte read. -/
theorem tests : Obligations.Tests := by
  intro dst s
  have htst := tstMem_spec dst s
  rw [CC.nzv0_eq] at htst
  refine ⟨⟨_, rfl, htst⟩, ⟨_, rfl, ?_⟩, ⟨_, rfl, ?_⟩⟩
  · rw [CC.nzv0_eq, State.get8_at_a]
  · rw [CC.nzv0_eq, State.get8_at_b]

/-! ### DAA (R250) -/

/-- DAA in whole numbers: the digits' correction by R250, C, N and Z. -/
theorem opDaa_spec (any : Bool) (v : Byte) (cc : CC) :
    let corrected := v.toNat + (if cc.h = true ∨ 9 < v.toNat % 16 then 6 else 0) +
      (if cc.c = true ∨ 9 < v.toNat / 16 ∨ (8 < v.toNat / 16 ∧ 9 < v.toNat % 16) then 96 else 0)
    (opDaa any v cc).1.toNat = corrected % 256 ∧
    ((opDaa any v cc).2.c = true ↔ cc.c = true ∨ 256 ≤ corrected) ∧
    SignAndZeroOf (opDaa any v cc).1 (opDaa any v cc).2 ∧ (opDaa any v cc).2.h = cc.h ∧
    KeepsMasks cc (opDaa any v cc).2 :=
  ⟨by simp [opDaa], by simp [opDaa], .of_nz rfl rfl, rfl, rfl, rfl, rfl⟩

/-- Settles O25: `opDaa` in whole numbers, on A. -/
theorem decimalAdjust : Obligations.DecimalAdjust := onA_acc8Any opDaa_spec fun _ => rfl

/-- After the binary sum of two packed decimal bytes and a carry, with its C and H, DAA leaves the packed decimal sum, and in C the
decimal carry. -/
theorem opDaa_after_sum {x1 x0 y1 y0 c : Nat} (hx1 : x1 < 10) (hx0 : x0 < 10) (hy1 : y1 < 10) (hy0 : y0 < 10)
    (hc : c ≤ 1) (any : Bool) {v : Byte} {cc : CC}
    (hv : v.toNat = (16 * x1 + x0 + (16 * y1 + y0) + c) % 256)
    (hC : cc.c = decide (256 ≤ 16 * x1 + x0 + (16 * y1 + y0) + c)) (hH : cc.h = decide (16 ≤ x0 + y0 + c)) :
    let sum := 10 * x1 + x0 + (10 * y1 + y0) + c
    (opDaa any v cc).1.toNat = 16 * (sum / 10 % 10) + sum % 10 ∧ (opDaa any v cc).2.c = decide (100 ≤ sum) := by
  obtain ⟨hr, hcarry, -⟩ := opDaa_spec any v cc
  -- The low digit is corrected when the digits carry, the high digit when the numbers do.
  have hlow : (cc.h = true ∨ 9 < v.toNat % 16) ↔ 10 ≤ x0 + y0 + c := by
    rw [hH, hv, decide_eq_true_eq]; omega
  have hhigh : (cc.c = true ∨ 9 < v.toNat / 16 ∨ (8 < v.toNat / 16 ∧ 9 < v.toNat % 16)) ↔
      100 ≤ 10 * x1 + x0 + (10 * y1 + y0) + c := by
    rw [hC, hv, decide_eq_true_eq]; omega
  simp only [hlow, hhigh] at hr hcarry
  dsimp only
  rw [hr, Bool.eq_iff_iff, hcarry, hC, hv, decide_eq_true_eq, decide_eq_true_eq]
  split <;> split <;> omega

/-- An addition of packed decimal bytes, with `carry`, and then DAA. -/
theorem daa_after_addition {s t : State} {x1 x0 y1 y0 : Nat} {carry : Bool} (hx1 : x1 < 10) (hx0 : x0 < 10)
    (hy1 : y1 < 10) (hy0 : y0 < 10) (ha : s.a = BitVec.ofNat 8 (16 * x1 + x0))
    (ht : (t.a, t.cc) = addFlags8 s.a (BitVec.ofNat 8 (16 * y1 + y0)) carry s.cc) :
    ∃ u, exec .daa t = .next u ∧
      u.a.toNat = 16 * ((10 * x1 + x0 + (10 * y1 + y0) + carry.toNat) / 10 % 10) +
        (10 * x1 + x0 + (10 * y1 + y0) + carry.toNat) % 10 ∧
      u.cc.c = decide (100 ≤ 10 * x1 + x0 + (10 * y1 + y0) + carry.toNat) := by
  obtain ⟨⟨hsum, hcarry, -⟩, hhalf⟩ := addFlags8_isSum ht
  have hxn : s.a.toNat = 16 * x1 + x0 := by rw [ha, BitVec.toNat_ofNat]; omega
  have hyn : (BitVec.ofNat 8 (16 * y1 + y0)).toNat = 16 * y1 + y0 := by rw [BitVec.toNat_ofNat]; omega
  rw [hxn, hyn] at hsum hcarry hhalf
  rw [show (16 * x1 + x0) % 16 = x0 by omega, show (16 * y1 + y0) % 16 = y0 by omega] at hhalf
  exact ⟨_, rfl, opDaa_after_sum hx1 hx0 hy1 hy0 (Bool.toNat_le carry) _ hsum hcarry hhalf⟩

/-- Settles O26: the binary sum has the C and H that DAA corrects by. -/
theorem decimalAddition : Obligations.DecimalAddition := by
  intro s x1 x0 y1 y0 hx1 hx0 hy1 hy0 ha
  obtain ⟨u, hu⟩ := daa_after_addition (t := alu8 opAdd8 .a (.imm (BitVec.ofNat 8 (16 * y1 + y0))) s) (carry := false)
    hx1 hx0 hy1 hy0 ha rfl
  obtain ⟨w, hw⟩ := daa_after_addition (t := alu8 opAdc8 .a (.imm (BitVec.ofNat 8 (16 * y1 + y0))) s) (carry := s.cc.c)
    hx1 hx0 hy1 hy0 ha rfl
  exact ⟨⟨_, u, rfl, hu⟩, ⟨_, w, rfl, hw⟩⟩

end Sys2Proof.Machine


/-! Jumps, calls and returns (spec/44_jump_call_return.md), and the no operations (spec/49_no_operations.md). -/

namespace Sys2Proof.Machine

/-! ### A call -/

/-- Everything a push of a byte does to memory. -/
theorem State.push8_wrote {s : State} (hw : Memory.wf s.mem = true) (p : Stk) (v : Byte) :
    WroteByte s (s.sp p - 1#16) v (s.push8 p v) := by
  intro k
  have h := State.write8_wrote (s := s.set16 (stkReg p) (s.sp p - 1#16)) (by simpa using hw) (s.sp p - 1#16) v k
  simp only [State.cell, State.set16_mem, State.set16_memMap] at h
  exact h

/-- Everything a push of a word does to memory: the word lies at the new stack pointer, high byte first. -/
theorem State.push16_wrote {s : State} (hw : Memory.wf s.mem = true) (p : Stk) (v : Word) :
    WroteWord s (s.sp p - 2#16) v (s.push16 p v) := by
  intro k
  have hlo := State.push8_wrote hw p (loByte v) k
  have hhi := State.push8_wrote (State.push8_wf hw p (loByte v)) p (hiByte v) k
  have hmap : (s.push8 p (loByte v)).memMap = s.memMap := (s.pushBytes_memMap p [loByte v])
  rw [State.push8_sp, hmap, hlo, show s.sp p - 1#16 - 1#16 = s.sp p - 2#16 by bv_omega] at hhi
  rw [show s.sp p - 2#16 + 1#16 = s.sp p - 1#16 by bv_omega]
  exact hhi

/-- A call stacks `npc`, lowers S by 2 and goes to its target. -/
theorem callTo_spec {s : State} (hw : Memory.wf s.mem = true) (target : Word) :
    WroteWord s (s.s - 2#16) s.pc (callTo target s) ∧
    SameButMemory { s with s := s.s - 2#16, pc := target } (callTo target s) ∧
    Accessed [.write (s.s - 2#16) (hiByte s.pc), .write (s.s - 1#16) (loByte s.pc)] s (callTo target s) := by
  refine ⟨State.push16_wrote hw .s s.pc, ?_, (s.push16_accessed .s s.pc).congr ⟨rfl, rfl, rfl⟩ ⟨rfl, rfl⟩⟩
  have h : SameButMemory { s with s := s.s - 2#16 } (s.push16 .s s.pc) := s.pushBytes_same .s [hiByte s.pc, loByte s.pc]
  rw [callTo]
  unfold SameButMemory at *
  rw [h]

/-- A call leaves its return address where S points, if that is RAM. -/
theorem callTo_holds {s : State} (hw : Memory.wf s.mem = true) (hr : ramBelow s.memMap s.s 2 = true) (target : Word) :
    (callTo target s).holds (callTo target s).s [hiByte s.pc, loByte s.pc] :=
  (State.holds_congr (s := s.push16 .s s.pc) (t := callTo target s) rfl rfl _ _).2
    (State.holds_pushBytes hw .s [hiByte s.pc, loByte s.pc] (by simp) hr)

/-- Settles O28: JSR calls from the state in which its target was formed. -/
theorem calls : Obligations.Calls := by
  intro s hw
  refine ⟨fun disp => ⟨_, rfl, callTo_spec hw _⟩, fun disp => ⟨_, rfl, callTo_spec hw _⟩, fun dst => ⟨_, rfl, ?_⟩⟩
  have hea := memEa_same dst s
  have hmem : (memEa dst s).2.mem = s.mem := by rw [hea.mem_eq]; simp
  have hmap : (memEa dst s).2.memMap = s.memMap := by rw [hea.memMap_eq]; simp
  have hs : (memEa dst s).2.s = (s.baseMoved dst).s := hea.get16 .s
  have hpc : (memEa dst s).2.pc = s.pc := (hea.get16 .pc).trans (State.baseMoved_pc s dst)
  obtain ⟨hwrote, hsame, hacc⟩ := callTo_spec (s := (memEa dst s).2) (hmem ▸ hw) (memEa dst s).1
  rw [hs, hpc] at hwrote hacc
  rw [hs] at hsame
  refine ⟨fun k => ?_, ?_, .intro hacc⟩
  · simpa only [State.cell, hmem, hmap] using hwrote k
  · refine SameButMemory.trans (SameButDevices.toMemory ?_) hsame
    exact (hea.set16 .s ((s.baseMoved dst).s - 2#16)).set16 .pc (memEa dst s).1

/-! ### The return -/

/-- RTS from a stack that holds a return address. -/
theorem exec_rts_of_holds {s : State} {v : Word} (h : s.holds s.s [hiByte v, loByte v]) :
    exec .rts s = .next { s with s := s.s + 2#16, pc := v } :=
  congrArg Host.Outcome.next (State.pullTo16_holds (s := s) (p := .s) (r := .pc) h)

/-- The word that two RAM or ROM cells hold. -/
theorem State.holds_word {s : State} {addr : Word} (h : readable s.memMap addr 2 = true) :
    s.holds addr [hiByte (wordOf (s.cell addr) (s.cell (addr + 1#16))),
      loByte (wordOf (s.cell addr) (s.cell (addr + 1#16)))] := by
  simp only [readable, Bool.and_true, Bool.and_eq_true] at h
  simp [State.holds, readable, h]

/-- Settles O29: any pull is a word from the stack, and a readable stack holds one. -/
theorem return_ : Obligations.Return := by
  intro s
  obtain ⟨v, hsame⟩ := s.pullTo16_same .s .pc
  have hpc : (s.pullTo16 .s .pc).pc = v := hsame.get16 .pc
  refine ⟨_, rfl, ?_, ?_, fun hr => ?_⟩
  · rw [hpc]; exact hsame
  · exact (s.pull16_accessed .s).congr ⟨rfl, rfl, rfl⟩ ⟨rfl, rfl⟩
  · exact Host.Outcome.next.inj (exec_rts_of_holds (State.holds_word hr))

/-- Settles O30: the return address that the call left is what RTS finds. -/
theorem returnUndoesCall : Obligations.ReturnUndoesCall := by
  intro dst s t u hw hjsr hr hus humem humap
  obtain rfl : callTo (memEa dst s).1 (memEa dst s).2 = t := Host.Outcome.next.inj hjsr
  have hea := memEa_same dst s
  have hs : (memEa dst s).2.s = (s.baseMoved dst).s := hea.get16 .s
  have hpc : (memEa dst s).2.pc = s.pc := (hea.get16 .pc).trans (State.baseMoved_pc s dst)
  have hmem : (memEa dst s).2.mem = s.mem := by rw [hea.mem_eq]; simp
  have hmap : (memEa dst s).2.memMap = s.memMap := by rw [hea.memMap_eq]; simp
  obtain ⟨-, hsame, -⟩ := callTo_spec (s := (memEa dst s).2) (hmem ▸ hw) (memEa dst s).1
  have hts : (callTo (memEa dst s).1 (memEa dst s).2).s = (s.baseMoved dst).s - 2#16 := by rw [hsame, ← hs]
  have hstack := callTo_holds (s := (memEa dst s).2) (hmem ▸ hw) (by rw [hmap, hs]; exact hr) (memEa dst s).1
  rw [← hus, hpc] at hstack
  refine ⟨_, exec_rts_of_holds ((State.holds_congr humem humap _ _).2 hstack), ?_⟩
  rw [hus, hts, show (s.baseMoved dst).s - 2#16 + 2#16 = (s.baseMoved dst).s by bv_omega]

/-! ### Jumps and no operations -/

/-- Settles O27: JMP is the effective address and then a write of PC. -/
theorem jumps : Obligations.Jumps := by
  refine ⟨fun _ _ => ⟨_, rfl, rfl⟩, fun _ _ => ⟨_, rfl, rfl⟩, fun dst s => ⟨_, rfl, ?_, .intro ?_⟩⟩
  · exact (memEa_same dst s).set16 .pc _
  · exact (Accessed.refl (memEa dst s).2).congr ⟨rfl, rfl, rfl⟩ ⟨rfl, rfl⟩

/-- Settles O32: these meanings are the identity. -/
theorem noOperations : Obligations.NoOperations :=
  fun _ => ⟨⟨_, rfl, rfl⟩, fun _ => ⟨_, rfl, rfl⟩, fun _ => ⟨_, rfl, rfl⟩⟩

end Sys2Proof.Machine

/-! Register moves and operations, load effective address (spec/46_register_move_and_operate.md). -/

namespace Sys2Proof.Machine

/-! ### Registers of one width, written and read -/

/-- A write to a 16-bit register leaves the others, D among them, as they were. -/
theorem State.get16_set16_other (s : State) {p r : Reg16} (v : Word) (h : r ≠ p) :
    (s.set16 p v).get16 r = s.get16 r := by
  cases p with
  | d =>
    cases r
    case d => exact absurd rfl h
    all_goals rfl
  | _ => exact s.get16_set16_ptr r _ v h.symm nofun

/-- A write to an 8-bit register is read back. -/
theorem State.get8_set8_same (s : State) (r : Reg8) (v : Byte) : (s.set8 r v).get8 r = v := by
  cases r <;> simp

/-- A write to an 8-bit register leaves the others as they were. -/
theorem State.get8_set8_other (s : State) {p r : Reg8} (v : Byte) (h : r ≠ p) : (s.set8 p v).get8 r = s.get8 r := by
  cases p <;> cases r
  case a.a | b.b | cc.cc | dp.dp => exact absurd rfl h
  all_goals rfl

/-- `t` is `s` but for the 16-bit registers and the arming of NMI. -/
def OnlyWide (s t : State) : Prop :=
  t = { s with a := t.a, b := t.b, x := t.x, y := t.y, u := t.u, s := t.s, pc := t.pc, nmiArmed := t.nmiArmed }

/-- `t` is `s` but for the 8-bit registers. -/
def OnlyNarrow (s t : State) : Prop := t = { s with a := t.a, b := t.b, cc := t.cc, dp := t.dp }

theorem OnlyWide.trans {s t u : State} (h : OnlyWide s t) (k : OnlyWide t u) : OnlyWide s u := by
  unfold OnlyWide at *
  rw [k, h]

theorem OnlyNarrow.trans {s t u : State} (h : OnlyNarrow s t) (k : OnlyNarrow t u) : OnlyNarrow s u := by
  unfold OnlyNarrow at *
  rw [k, h]

theorem State.set16_onlyWide (s : State) (r : Reg16) (v : Word) : OnlyWide s (s.set16 r v) := by cases r <;> rfl

theorem State.set8_onlyNarrow (s : State) (r : Reg8) (v : Byte) : OnlyNarrow s (s.set8 r v) := by cases r <;> rfl

theorem State.armNmi_onlyWide (s : State) (arms : Bool) : OnlyWide s (s.armNmi arms) := rfl

/-- Arming NMI leaves the registers readable as before. -/
theorem State.get16_armNmi (s : State) (arms : Bool) (r : Reg16) : (s.armNmi arms).get16 r = s.get16 r := by
  cases r <;> rfl

/-! ### EXG and TFR -/

/-- Settles O33: two writes, each read back from its own register and invisible in the others. -/
theorem exchanges : Obligations.Exchanges := by
  refine ⟨fun p q s => ⟨_, rfl, ?_, ?_, fun r hp hq => ?_, ?_, fun hp hq => ?_⟩,
    fun p q s => ⟨_, rfl, ?_, ?_, fun r hp hq => ?_, ?_⟩⟩
  · rw [State.get16_armNmi]
    by_cases h : p = q
    · rw [h, State.get16_set16_same]
    · rw [State.get16_set16_other _ _ h, State.get16_set16_same]
  · rw [State.get16_armNmi, State.get16_set16_same]
  · rw [State.get16_armNmi, State.get16_set16_other _ _ hq, State.get16_set16_other _ _ hp]
  · exact ((s.set16_onlyWide p _).trans (State.set16_onlyWide _ q _)).trans (State.armNmi_onlyWide _ _)
  · simp [hp, hq]
  · by_cases h : p = q
    · rw [h, State.get8_set8_same]
    · rw [State.get8_set8_other _ _ h, State.get8_set8_same]
  · rw [State.get8_set8_same]
  · rw [State.get8_set8_other _ _ hq, State.get8_set8_other _ _ hp]
  · exact (s.set8_onlyNarrow p _).trans (State.set8_onlyNarrow _ q _)

/-- Settles O34: one write, read back from its register and invisible in the others. -/
theorem transfers : Obligations.Transfers := by
  refine ⟨fun p q s => ⟨_, rfl, ?_, fun r hq => ?_, ?_, fun hq => ?_⟩, fun p q s => ⟨_, rfl, ?_, fun r hq => ?_, ?_⟩⟩
  · rw [State.get16_armNmi, State.get16_set16_same]
  · rw [State.get16_armNmi, State.get16_set16_other _ _ hq]
  · exact (s.set16_onlyWide q _).trans (State.armNmi_onlyWide _ _)
  · simp [hq]
  · rw [State.get8_set8_same]
  · rw [State.get8_set8_other _ _ hq]
  · exact s.set8_onlyNarrow q _

/-! ### ABX, MUL, SEX -/

/-- The low byte of a word has its bits 7 to 0. -/
theorem loByte_getLsbD_7 (v : Word) : (loByte v).getLsbD 7 = v.getLsbD 7 := by simp [loByte]

/-- A byte with its sign extended into the byte above. -/
theorem wordOf_sign_toInt (v : Byte) :
    (wordOf (if v.getLsbD 7 then 0xFF#8 else 0x00#8) v).toInt = v.toInt := by
  have := v.isLt
  rw [byte_toInt, BitVec.toInt_eq_toNat_cond, wordOf_toNat, bit7_eq]
  by_cases h : 128 ≤ v.toNat <;> simp [h] <;> omega

/-- A product of two bytes is below 2^16. -/
theorem byte_mul_lt (v w : Byte) : v.toNat * w.toNat < 65536 := Nat.mul_lt_mul'' v.isLt w.isLt

/-- Settles O36: each result in whole numbers. -/
theorem abxMulSex : Obligations.AbxMulSex := by
  intro s
  have hmul : (BitVec.ofNat 16 (s.a.toNat * s.b.toNat)).toNat = s.a.toNat * s.b.toNat := by
    rw [BitVec.toNat_ofNat, Nat.mod_eq_of_lt (byte_mul_lt s.a s.b)]
  have hsex := wordOf_sign_toInt s.b
  refine ⟨⟨_, rfl, rfl, ?_⟩, ⟨_, rfl, rfl, ?_, ?_, ?_⟩, ⟨_, rfl, rfl, hsex, ?_, ?_⟩⟩
  · simp [zext16, BitVec.toNat_add]
  · simp only [State.set16_at_d, hiByte_toNat, loByte_toNat, hmul]; omega
  · simp only [beq_zero_eq, hmul]
  · exact (loByte_getLsbD_7 _).symm
  · simp only [hsex, ← BitVec.msb_eq_toInt]; rfl
  · simp only [beq_zero_eq, wordOf_toNat, bit7_eq, decide_eq_decide, decide_eq_true_eq]
    split <;> simp only [BitVec.toNat_ofNat] <;> omega

/-! ### Load effective address -/

/-- LEAX and LEAY load the effective address after the base register has moved, and set Z from it. -/
theorem lea_same (m : MemOp) (s : State) (r : Reg16) :
    SameButDevices { (s.baseMoved m).set16 r (memEa m s).1 with cc := { s.cc with z := decide ((memEa m s).1.toNat = 0) } }
      { (memEa m s).2.set16 r (memEa m s).1 with cc := { (memEa m s).2.cc with z := (memEa m s).1 == 0 } } := by
  have hea := memEa_same m s
  have hcc : (memEa m s).2.cc = s.cc := by rw [hea.cc_eq]; simp
  rw [hcc, beq_zero_eq]
  exact hea.regs16 r _ _

/-- Arming NMI, from a state that differs in device traffic alone. -/
theorem SameButDevices.armed {s t : State} (h : SameButDevices s t) (arms : Bool) :
    SameButDevices { s with nmiArmed := (t.armNmi arms).nmiArmed } (t.armNmi arms) := by
  unfold SameButDevices at *
  rw [h]; rfl

/-- Settles O37: a write of the effective address after `memEa`. -/
theorem loadEffectiveAddress : Obligations.LoadEffectiveAddress := by
  intro form s
  have hea := memEa_same (.idx form) s
  have hacc : ∀ t : State, t.events = (memEa (.idx form) s).2.events ∧ t.devIn = (memEa (.idx form) s).2.devIn →
      AccessesAtEa (.idx form) [] s t := fun t ht => .intro ((Accessed.refl _).congr ⟨rfl, rfl, rfl⟩ ht)
  refine ⟨⟨_, rfl, lea_same (.idx form) s .x, hacc _ ⟨rfl, rfl⟩⟩, ⟨_, rfl, lea_same (.idx form) s .y, hacc _ ⟨rfl, rfl⟩⟩,
    ⟨_, rfl, (hea.set16 .s (memEa (.idx form) s).1).armed _, fun harmed => ?_, hacc _ ⟨rfl, rfl⟩⟩,
    ⟨_, rfl, hea.set16 .u _, hacc _ ⟨rfl, rfl⟩⟩⟩
  have hkeeps : (memEa (.idx form) s).2.nmiArmed = true := (memEa_conserves (.idx form) s).nmiArmed.trans harmed
  exact Bool.or_eq_true_iff.2 (.inl hkeeps)

end Sys2Proof.Machine


/-! Pushes and pulls of register lists (spec/47_stack.md). -/

namespace Sys2Proof.Machine

/-! ### PSHS and PSHU -/

/-- A push of a register list: the stack pointer, the frame, and the registers where the stack is RAM. -/
theorem pushList_spec (p : Stk) (list : Byte) (s : State) :
    SameButMemory (s.set16 (stkReg p) (s.sp p - BitVec.ofNat 16 (listCount list))) (pushList p list s) ∧
    (∀ k, isBelow (s.sp p) k (listCount list) = false → (pushList p list s).cell k = s.cell k) ∧
    (Memory.wf s.mem = true → ramBelow s.memMap (s.sp p) (listCount list) = true →
      (pushList p list s).holds ((pushList p list s).sp p) (listBytes p list s)) := by
  have hlen := listBytes_length p list s
  have hle : (listBytes p list s).length ≤ 2 ^ 16 := by have := listCount_le list; omega
  rw [pushList_eq, ← hlen]
  exact ⟨s.pushBytes_same p _, fun k => State.cell_pushBytes p _ hle, fun hw => State.holds_pushBytes hw p _ hle⟩

/-- Settles O38: both stacks by the law of a list push. -/
theorem pushes : Obligations.Pushes :=
  fun list s => ⟨⟨_, rfl, pushList_spec .s list s⟩, ⟨_, rfl, pushList_spec .u list s⟩⟩

/-! ### PULS and PULU -/

/-- A register that is loaded if the list names it, read back under the same condition. -/
theorem ite_ite_same {α : Type} (c : Prop) [Decidable c] (x y : α) :
    (if c then if c then x else y else y) = if c then x else y := by
  split <;> rfl

/-- Settles O39: a register of the list is what the new state has, the others are the old ones. -/
theorem pullsFromS : Obligations.PullsFromS := by
  refine fun list s => ⟨⟨_, rfl, ?_⟩, fun v h => ⟨_, rfl, pullList_s_holds h⟩⟩
  obtain ⟨w, h⟩ := pullList_s_any s list
  obtain ⟨ha, hb, hx, hy, hu, -, hpc, hdp, hcc, -⟩ := h.fields
  simpa only [ha, hb, hx, hy, hu, hpc, hdp, hcc, ite_ite_same] using h

/-- Settles O40: as PULS, with the arming of a pulled S after it. -/
theorem pullsFromU : Obligations.PullsFromU := by
  refine fun list s => ⟨⟨_, rfl, ?_, fun h6 => ?_⟩, fun v h => ⟨_, rfl, ?_⟩⟩
  · obtain ⟨w, h⟩ := pullList_u_any s list
    obtain ⟨ha, hb, hx, hy, -, hs, hpc, hdp, hcc, -⟩ := h.fields
    have harmed := h.armed (list.getLsbD 6 && Config.nmiArmRule.pulu)
    simpa only [State.armNmi_a, State.armNmi_b, State.armNmi_x, State.armNmi_y, State.armNmi_s, State.armNmi_pc,
      State.armNmi_dp, State.armNmi_cc, ha, hb, hx, hy, hs, hpc, hdp, hcc, ite_ite_same] using harmed
  · rw [State.armNmi_nmiArmed, (pullList_conserves .u list s).nmiArmed, h6]; simp
  · rw [pullList_u_holds h]; rfl

/-- Settles O41: the pull finds the bytes that the push left. -/
theorem pullUndoesPush : Obligations.PullUndoesPush := by
  intro list s t u hw hr hpush hus humem humap
  obtain rfl : pushList .s list s = t := Host.Outcome.next.inj hpush
  obtain ⟨hsame, -, hstack⟩ := pushList_spec .s list s
  have hts : (pushList .s list s).s = s.s - BitVec.ofNat 16 (listCount list) := hsame.fields.2.2.2.2.2.1
  have hu : u.holds u.s (listBytes .s list s) := by
    rw [hus]; exact (State.holds_congr humem humap _ _).2 (hstack hw hr)
  refine ⟨_, congrArg Host.Outcome.next (pullList_s_holds hu), ?_, humem, fun h => if_pos h, fun h => if_pos h,
    fun h => if_pos h, fun h => if_pos h, fun h => if_pos h, fun h => if_pos h, fun h => if_pos h, fun h => if_pos h⟩
  rw [hus, hts, BitVec.sub_add_cancel]

end Sys2Proof.Machine

/-! Interrupts: software interrupts, acceptance, the waits and the returns; CWAI, ANDCC and ORCC (spec/48_interrupt_and_status.md;
60_exceptions.md). -/

namespace Sys2Proof.Machine

/-! ### Masks on CC (R356, R358, R359) -/

/-- CC after its byte was ANDed with a mask. -/
theorem CC.ofByte_and (cc : CC) (data : Byte) : CC.ofByte (cc.toByte &&& data) =
    { e := cc.e && data.getLsbD 7, f := cc.f && data.getLsbD 6, h := cc.h && data.getLsbD 5
      i := cc.i && data.getLsbD 4, n := cc.n && data.getLsbD 3, z := cc.z && data.getLsbD 2
      v := cc.v && data.getLsbD 1, c := cc.c && data.getLsbD 0 } := by
  obtain ⟨h7, h6, h5, h4, h3, h2, h1, h0⟩ := cc.toByte_getLsbD
  simp only [CC.ofByte, BitVec.getLsbD_and, h7, h6, h5, h4, h3, h2, h1, h0]

/-- CC after its byte was ORed with a mask. -/
theorem CC.ofByte_or (cc : CC) (data : Byte) : CC.ofByte (cc.toByte ||| data) =
    { e := cc.e || data.getLsbD 7, f := cc.f || data.getLsbD 6, h := cc.h || data.getLsbD 5
      i := cc.i || data.getLsbD 4, n := cc.n || data.getLsbD 3, z := cc.z || data.getLsbD 2
      v := cc.v || data.getLsbD 1, c := cc.c || data.getLsbD 0 } := by
  obtain ⟨h7, h6, h5, h4, h3, h2, h1, h0⟩ := cc.toByte_getLsbD
  simp only [CC.ofByte, BitVec.getLsbD_or, h7, h6, h5, h4, h3, h2, h1, h0]

/-- Settles O51: CC as a byte, masked bit by bit. -/
theorem conditionCodeMasks : Obligations.ConditionCodeMasks :=
  fun data s => ⟨⟨_, rfl, by rw [CC.ofByte_and]⟩, ⟨_, rfl, by rw [CC.ofByte_or]⟩⟩

/-- A change of `run` commutes with a change of memory. -/
theorem SameButMemory.setRun {s t : State} (h : SameButMemory s t) (run : Run) :
    SameButMemory { s with run := run } { t with run := run } := by
  unfold SameButMemory at *
  rw [h]

/-- Settles O48: the wait changes neither S nor memory after the entire frame was stacked. -/
theorem clearAndWait : Obligations.ClearAndWait := by
  intro data s cc
  refine ⟨_, exec_cwai data s, ?_⟩
  have hcc : { CC.ofByte (s.cc.toByte &&& data) with e := true } = cc := by rw [CC.ofByte_and]
  generalize CC.ofByte (s.cc.toByte &&& data) = masked at hcc ⊢
  have hframe := State.stackFrame_same { s with cc := masked } true
  have hholds := State.holds_stackFrame (s := { s with cc := masked }) (entire := true)
  rw [hcc] at hframe hholds
  have hcell := fun k => State.cell_stackFrame (s := { s with cc := masked }) (k := k) true
  have hsp := hframe.fields.2.2.2.2.2.1
  generalize State.stackFrame { s with cc := masked } true = t at hframe hholds hcell hsp ⊢
  refine ⟨hframe.setRun .cwaiWait, hcell, fun hw hr => ?_⟩
  rw [State.holds_setRun, hsp]
  exact hholds hw hr

/-! ### The entry of an event -/

/-- The handler's PC, where the vector lies in RAM or ROM; the entry after stacking leaves memory alone. -/
theorem State.enterHandler_pc {s : State} (ev : Event) (h : readable s.memMap (eventVector ev) 2 = true) :
    (s.enterHandler ev).pc = wordOf (s.cell (eventVector ev)) (s.cell (eventVector ev + 1#16)) := by
  unfold State.enterHandler
  refine (congrArg State.pc (State.loadVector_plain ?_)).trans ?_
  · exact h
  · rfl

/-- The frame and then the entry, as one change of the state before both. -/
theorem SameButMemory.then_entry {s t u : State} {sp pc : Word} {cc cc' : CC} {request : Bool}
    (hframe : SameButMemory { s with cc := cc, s := sp } t)
    (hentry : SameButDevices { t with cc := cc', nmiRequest := request, pc := pc } u) :
    SameButMemory { s with s := sp, cc := cc', pc := u.pc, nmiRequest := u.nmiRequest } u := by
  unfold SameButMemory SameButDevices at *
  rw [hentry, hframe]

/-- What R381, R391 and R396 say of an event, given the masks that it sets. -/
theorem State.takeEvent_entered (s : State) (ev : Event) {setI setF : Bool}
    (hmasks : ∀ cc, eventMasks ev cc = { cc with i := cc.i || setI, f := cc.f || setF }) :
    Entered (eventVector ev) (eventEntire ev) setI setF s (s.takeEvent ev) := by
  have hframe := s.stackFrame_same (eventEntire ev)
  have henter := (s.stackFrame (eventEntire ev)).enterHandler_same ev
  have hmem : (s.takeEvent ev).mem = (s.stackFrame (eventEntire ev)).mem := henter.mem_eq
  refine ⟨?_, fun k hk => ?_, fun hw hr => State.holds_takeEvent hw ev hr, fun hv => ?_⟩
  · have hsame := hframe.then_entry henter
    rw [State.stackFrame_cc, hmasks] at hsame
    rw [show (if eventEntire ev then 12#16 else 3#16) = BitVec.ofNat 16 (if eventEntire ev then 12 else 3) by
      split <;> rfl]
    exact hsame
  · exact (congrArg (Memory.get · k.toNat) hmem).trans (State.cell_stackFrame _ hk)
  · have hmap : (s.stackFrame (eventEntire ev)).memMap = s.memMap := (s.stackFrame_conserves _).memMap
    have hpc := (s.stackFrame (eventEntire ev)).enterHandler_pc ev (hmap ▸ hv)
    rwa [State.cell, State.cell, hmem]

/-- An event other than NMI leaves the NMI request as it was. -/
theorem State.takeEvent_nmiRequest (s : State) {ev : Event} (hev : ev ≠ .nmi) :
    (s.takeEvent ev).nmiRequest = s.nmiRequest := (s.takeEvent_conserves_of_ne_nmi hev).nmiRequest

/-- Settles O43: each is the event of its vector, and none is NMI. -/
theorem softwareInterrupts : Obligations.SoftwareInterrupts := by
  intro s
  exact ⟨⟨_, rfl, s.takeEvent_entered .swi (by simp [eventMasks]), s.takeEvent_nmiRequest (by decide)⟩,
    ⟨_, rfl, s.takeEvent_entered .swi2 (by simp [eventMasks]), s.takeEvent_nmiRequest (by decide)⟩,
    ⟨_, rfl, s.takeEvent_entered .swi3 (by simp [eventMasks]), s.takeEvent_nmiRequest (by decide)⟩⟩

/-! ### Acceptance (R386, R387) -/

section
variable {inp : Inputs} {s : State}

theorem accepted_nmi (h : s.nmiRequest = true ∧ s.nmiArmed = true) : accepted inp s = some .nmi := by
  rw [accepted, if_pos (by simpa [State.nmiPending] using h)]

theorem accepted_firq (hnmi : ¬ (s.nmiRequest = true ∧ s.nmiArmed = true)) (h : inp.firq = true ∧ s.cc.f = false) :
    accepted inp s = some .firq := by
  rw [accepted, if_neg (by simpa [State.nmiPending] using hnmi), if_pos (by simpa using h)]

theorem accepted_irq (hnmi : ¬ (s.nmiRequest = true ∧ s.nmiArmed = true)) (hfirq : ¬ (inp.firq = true ∧ s.cc.f = false))
    (h : inp.irq = true ∧ s.cc.i = false) : accepted inp s = some .irq := by
  rw [accepted, if_neg (by simpa [State.nmiPending] using hnmi), if_neg (by simpa using hfirq), if_pos (by simpa using h)]

theorem accepted_none (hnmi : ¬ (s.nmiRequest = true ∧ s.nmiArmed = true)) (hfirq : ¬ (inp.firq = true ∧ s.cc.f = false))
    (h : ¬ (inp.irq = true ∧ s.cc.i = false)) : accepted inp s = none := by
  rw [accepted, if_neg (by simpa [State.nmiPending] using hnmi), if_neg (by simpa using hfirq), if_neg (by simpa using h)]

end

/-- Settles O44: the order of `accepted`, and the entry of the event it names. -/
theorem interruptAcceptance : Obligations.InterruptAcceptance := by
  intro s hrun hreset u
  have hb : boundary s = boundaryRunning s.nextInputs u := boundary_of_running hrun hreset
  have htaken : ∀ ev, accepted s.nextInputs u = some ev → step s = .next (u.takeEvent ev) := fun ev h =>
    step_of_settled (by rw [hb, boundaryRunning, h])
  split
  next hnmi =>
    exact ⟨_, htaken .nmi (accepted_nmi hnmi), u.takeEvent_entered .nmi (by simp [eventMasks]),
      (u.takeEvent_conserves .nmi).nmiRequest.trans (Bool.and_false _)⟩
  next hnmi =>
    split
    next hfirq =>
      exact ⟨_, htaken .firq (accepted_firq hnmi hfirq), u.takeEvent_entered .firq (by simp [eventMasks]),
        u.takeEvent_nmiRequest (by decide)⟩
    next hfirq =>
      split
      next hirq =>
        exact ⟨_, htaken .irq (accepted_irq hnmi hfirq hirq), u.takeEvent_entered .irq (by simp [eventMasks]),
          u.takeEvent_nmiRequest (by decide)⟩
      next hirq => rw [hb, boundaryRunning, accepted_none hnmi hfirq hirq]

/-! ### The waits (R400, R401) -/

/-- What a wake from CWAI does: the masks, the vector, and no stacking. -/
theorem State.enterHandler_woke (u : State) (ev : Event) {setF : Bool}
    (hmasks : ∀ cc, eventMasks ev cc = { cc with i := true, f := cc.f || setF }) :
    SameButDevices
      { u with
        run := .running, cc := { u.cc with i := true, f := u.cc.f || setF }, pc := (u.enterHandler ev).pc
        nmiRequest := u.nmiRequest && ev != .nmi }
      { u.enterHandler ev with run := .running } ∧
    (readable u.memMap (eventVector ev) 2 = true →
      (u.enterHandler ev).pc = wordOf (u.cell (eventVector ev)) (u.cell (eventVector ev + 1#16))) := by
  refine ⟨?_, u.enterHandler_pc ev⟩
  have h := u.enterHandler_same ev
  rw [hmasks] at h
  have hpc : (u.enterHandler ev).pc = _ := h.fields.2.2.2.2.2.2.1
  rw [hpc]
  unfold SameButDevices at *
  rw [h]

/-- Settles O49: the order of `accepted`, and a handler entered without a frame. -/
theorem cwaiWake : Obligations.CwaiWake := by
  intro s hrun hreset u woke
  have hb : boundary s = boundaryCwai s.nextInputs u := boundary_of_cwaiWait hrun hreset
  have hwakes : ∀ ev, accepted s.nextInputs u = some ev → step s = .next { u.enterHandler ev with run := .running } :=
    fun ev h => step_of_settled (by rw [hb, boundaryCwai, h])
  split
  next hnmi =>
    have hwoke := u.enterHandler_woke .nmi (setF := true) (by simp [eventMasks])
    rw [show (u.nmiRequest && Event.nmi != .nmi) = false from Bool.and_false _] at hwoke
    exact ⟨_, hwakes .nmi (accepted_nmi hnmi), hwoke⟩
  next hnmi =>
    split
    next hfirq =>
      have hwoke := u.enterHandler_woke .firq (setF := true) (by simp [eventMasks])
      rw [show (u.nmiRequest && Event.firq != .nmi) = u.nmiRequest from Bool.and_true _] at hwoke
      exact ⟨_, hwakes .firq (accepted_firq hnmi hfirq), hwoke⟩
    next hfirq =>
      split
      next hirq =>
        have hwoke := u.enterHandler_woke .irq (setF := false) (by simp [eventMasks])
        rw [show (u.nmiRequest && Event.irq != .nmi) = u.nmiRequest from Bool.and_true _] at hwoke
        exact ⟨_, hwakes .irq (accepted_irq hnmi hfirq hirq), hwoke⟩
      next hirq => exact ⟨u, step_of_settled (by rw [hb, boundaryCwai, accepted_none hnmi hfirq hirq]), rfl⟩

/-- Settles O50: a wake passes the boundary of a running machine. -/
theorem syncAndWake : Obligations.SyncAndWake := by
  refine ⟨fun s => ⟨_, rfl, rfl⟩, ?_⟩
  intro s hrun hreset u
  have hb : boundary s = boundarySync s.nextInputs u := boundary_of_syncWait hrun hreset
  split
  next h =>
    have hb' : boundary s = boundary { s with run := .running } := by
      rw [hb, boundarySync, if_pos (by simpa [State.nmiPending, or_assoc] using h)]
      exact (boundary_of_running (s := { s with run := .running }) rfl hreset).symm
    simp only [step, hb']
  next h =>
    exact ⟨u, step_of_settled (by rw [hb, boundarySync, if_neg (by simpa [State.nmiPending, or_assoc] using h)]), rfl⟩

/-! ### The return (R355, R397) -/

/-- Settles O46: the E that is pulled chooses the frame. -/
theorem returnFromInterrupt : Obligations.ReturnFromInterrupt := by
  refine fun s => ⟨⟨_, rfl, ?_⟩, fun v he h => ⟨_, rfl, State.returnFromEvent_entire he h⟩,
    fun v he h => ⟨_, rfl, State.returnFromEvent_short he h⟩⟩
  obtain ⟨w, h⟩ := s.returnFromEvent_any
  have hcc : s.returnFromEvent.cc = w.cc := h.cc_eq.trans (by split <;> rfl)
  rw [hcc]
  split
  next he =>
    rw [if_pos he] at h
    obtain ⟨ha, hb, hx, hy, hu, -, hpc, hdp, -⟩ := h.fields
    rw [ha, hb, hx, hy, hu, hpc, hdp]
    exact h
  next he =>
    rw [if_neg he] at h
    obtain ⟨-, -, -, -, -, -, hpc, -⟩ := h.fields
    rw [hpc]
    exact h

/-- Settles O47: the frame that the entry left is the one that the pulled E names. -/
theorem returnUndoesEntry : Obligations.ReturnUndoesEntry := by
  intro ev s u hw hr hus humem humap
  have hmap : u.memMap = (s.takeEvent ev).memMap := humap.trans (s.takeEvent_conserves ev).memMap.symm
  have hframe : ramBelow s.memMap s.s (if eventEntire ev then 12 else 3) = true →
      u.holds u.s (frameBytes (eventEntire ev) { s with cc := { s.cc with e := eventEntire ev } }) := fun h => by
    rw [hus]; exact (State.holds_congr humem hmap _ _).2 (State.holds_takeEvent hw ev h)
  have hback : u.s + BitVec.ofNat 16 (if eventEntire ev then 12 else 3) = s.s := by
    rw [hus, State.takeEvent_s, BitVec.sub_add_cancel]
  by_cases hev : ev = .firq
  · subst hev
    refine ⟨_, congrArg Host.Outcome.next (State.returnFromEvent_short rfl (hframe hr)), ?_⟩
    rw [if_pos rfl, ← hback]
    rfl
  · rw [if_neg hev] at hr
    rw [eventEntire_of_ne_firq hev] at hframe hback
    refine ⟨_, congrArg Host.Outcome.next (State.returnFromEvent_entire rfl (hframe hr)), ?_⟩
    rw [if_neg hev, ← hback]
    rfl

end Sys2Proof.Machine
